-- ==== Sys2Proof/Word.lean ====
section
/-! DEFINITION. The word types of the core: 32-bit arithmetic words (`XLEN`), bytes, and 16-bit input code units
(`UNIT_W`), 00_scope.md R7. -/

namespace Sys2Proof

/-- A 32-bit pattern `w[31:0]` (R9). -/
abbrev Word := BitVec 32

/-- A byte of a program, of the ByteBuffer or of a string. -/
abbrev Byte := BitVec 8

/-- A 16-bit UTF-16 code unit of the input text (R16, R110). -/
abbrev CodeUnit := BitVec 16

/-- The unsigned reading `u32(w)` of R9. -/
abbrev u32 (w : Word) : Nat := w.toNat

/-- The signed reading `s32(w)` of R9. -/
abbrev s32 (w : Word) : Int := w.toInt

end Sys2Proof
end

