-- ==== Sys2Proof/Machine/Bits.lean ====
section
/-! DEFINITION. The word primitives of 00_scope.md R9-R11, bit fields, ASCII literals (R15), and the decoding of the
amount character of a micro-op (30_encoding.md R73). Nothing here reads the state. -/

namespace Sys2Proof.Machine

/-- `wrap32(x)` of R10, as the pattern whose signed reading it is. -/
def wrap32 (x : Int) : Word := BitVec.ofInt 32 x

/-- `trunc32(x)` of R10 for a non-negative `x`, as the pattern whose unsigned reading it is. -/
def trunc32 (x : Nat) : Word := BitVec.ofNat 32 x

/-- `v[hi:lo]` of R9 as a number of `hi-lo+1` bits. -/
def field (v : Nat) (hi lo : Nat) : Nat := v / 2 ^ lo % 2 ^ (hi - lo + 1)

/-- `{hi, lo}` of R11 for two 16-bit numbers (the `INFO` words of R210). -/
def pair16 (hi lo : Nat) : Word := BitVec.ofNat 16 hi ++ BitVec.ofNat 16 lo

/-- `'+'` (R15). -/
def charPlus : Byte := 0x2B

/-- `'-'` (R15). -/
def charMinus : Byte := 0x2D

/-- `'^'` (R15). -/
def charCaret : Byte := 0x5E

/-- `'.'` (R15). -/
def charPoint : Byte := 0x2E

/-- An ASCII digit `'0'`-`'9'` (R15). -/
def isDigit (b : Byte) : Bool := 0x30 ≤ b.toNat && b.toNat ≤ 0x39

/-- `amt(c2)` of R73: the shift amount of an amount character, `none` for a reserved byte. -/
def amount (c2 : Byte) : Option Nat :=
  if 0x30 ≤ c2.toNat ∧ c2.toNat ≤ 0x39 then some (c2.toNat - 0x30)
  else if 0x61 ≤ c2.toNat ∧ c2.toNat ≤ 0x70 then some (c2.toNat - 87)
  else none

end Sys2Proof.Machine
end

