-- ==== Sys2Proof/Config.lean ====
section
/-! DEFINITION. What an instance of the core fixes: the named alternatives of the parameter table (00_scope.md R7)
and the values the spec leaves open, as constants without a body. -/

namespace Sys2Proof

/-- `LONE_SURROGATE` (R7, R116): what the expander does with an unpaired surrogate. -/
inductive LoneSurrogate where
  | fault
  | encode3
  deriving DecidableEq, Repr

/-- `TRUNC_COUNT` (R7, R152): what the truncation of `SIGN` counts. -/
inductive TruncCount where
  | characters
  | codeUnits
  deriving DecidableEq, Repr

/-- `MAX_UNITS` (R7, D14): the spec leaves it OPEN, so it has no value here (log 8). -/
opaque Config.maxUnits : Nat

/-- FREE VALUE (log 9): what `rotl(a, n)` gives for an amount outside the 1..31 of R96, for which the spec states no
result. -/
opaque Config.rotlOutside : Word → Int → Word

/-- FREE VALUE (log 28): the `INFO` of `ShiftRange(n)` for an amount that has no `s32` reading (60_exceptions.md R210,
code 4: "the amount `n`, as `s32`"). -/
opaque Config.amountInfoOutside : Int → Word

/-- FREE VALUE (log 28): the `INFO` of `InvalidUnit(V)` for an index above 2^32-1 (60_exceptions.md R210, code 3, which
gives `INFO` 32 bits). -/
opaque Config.indexInfoOutside : Nat → Word

end Sys2Proof
end

