-- ==== Sys2Proof/Machine/Tables.lean ====
section
/-! DEFINITION. The read-only stores' contents and the constants of the parameter table (00_scope.md R7): program
strings, secrets, limits, and the MD5 tables (44_md5_engine.md R186, R191, R192, R194). -/

namespace Sys2Proof.Machine

/-- `PROG_A` = `"+-a^+6"` (R7, R79), from the spec's general-knowledge passages (log 16). -/
def progAReset : List Byte := [0x2B, 0x2D, 0x61, 0x5E, 0x2B, 0x36]

/-- `PROG_B` = `"+-3^+b+-f"` (R7, R79), from the spec's general-knowledge passages (log 16). -/
def progBReset : List Byte := [0x2B, 0x2D, 0x33, 0x5E, 0x2B, 0x62, 0x2B, 0x2D, 0x66]

/-- `SECRET_M` (R7). -/
def secretM : Word := 320305

/-- `SECRET_S` (R7). -/
def secretS : Word := 131321201

/-- `TRUNC_LIMIT` (R7). -/
def truncLimit : Nat := 30

/-- `SEG_LEN` (R7, C1). -/
def segLen : Nat := 10

/-- `SIGN_MOD` (R7). -/
def signMod : Nat := 1000000

/-- `MD5_BLOCK` (R7), in bytes. -/
def md5Block : Nat := 64

/-- `KT[0..15]` (44_md5_engine.md R191). -/
def ktRound1 : List Word :=
  [
    0xD76AA478, 0xE8C7B756, 0x242070DB, 0xC1BDCEEE,
    0xF57C0FAF, 0x4787C62A, 0xA8304613, 0xFD469501,
    0x698098D8, 0x8B44F7AF, 0xFFFF5BB1, 0x895CD7BE,
    0x6B901122, 0xFD987193, 0xA679438E, 0x49B40821
  ]

/-- `KT[16..31]` (44_md5_engine.md R191). -/
def ktRound2 : List Word :=
  [
    0xF61E2562, 0xC040B340, 0x265E5A51, 0xE9B6C7AA,
    0xD62F105D, 0x02441453, 0xD8A1E681, 0xE7D3FBC8,
    0x21E1CDE6, 0xC33707D6, 0xF4D50D87, 0x455A14ED,
    0xA9E3E905, 0xFCEFA3F8, 0x676F02D9, 0x8D2A4C8A
  ]

/-- `KT[32..47]` (44_md5_engine.md R191). -/
def ktRound3 : List Word :=
  [
    0xFFFA3942, 0x8771F681, 0x6D9D6122, 0xFDE5380C,
    0xA4BEEA44, 0x4BDECFA9, 0xF6BB4B60, 0xBEBFBC70,
    0x289B7EC6, 0xEAA127FA, 0xD4EF3085, 0x04881D05,
    0xD9D4D039, 0xE6DB99E5, 0x1FA27CF8, 0xC4AC5665
  ]

/-- `KT[48..63]` (44_md5_engine.md R191). -/
def ktRound4 : List Word :=
  [
    0xF4292244, 0x432AFF97, 0xAB9423A7, 0xFC93A039,
    0x655B59C3, 0x8F0CCC92, 0xFFEFF47D, 0x85845DD1,
    0x6FA87E4F, 0xFE2CE6E0, 0xA3014314, 0x4E0811A1,
    0xF7537E82, 0xBD3AF235, 0x2AD7D2BB, 0xEB86D391
  ]

/-- `KT[0..63]` (R191). -/
def ktTable : List Word := ktRound1 ++ ktRound2 ++ ktRound3 ++ ktRound4

/-- Four rotate amounts, repeated every four steps of a round (R192). -/
def ksRound (a b c d : BitVec 5) : List (BitVec 5) :=
  [a, b, c, d, a, b, c, d, a, b, c, d, a, b, c, d]

/-- `KS[0..63]` (R191, R192). -/
def ksTable : List (BitVec 5) :=
  ksRound 7 12 17 22 ++ ksRound 5 9 14 20 ++ ksRound 4 11 16 23 ++ ksRound 6 10 15 21

/-- `IV[0..3]` = `MD5_IV` (R7, R186). -/
def ivTable : List Word := [0x67452301, 0xEFCDAB89, 0x98BADCFE, 0x10325476]

/-- The message-word index `g(j)` of R194. -/
def messageIndex (j : Nat) : Nat :=
  if j < 16 then j
  else if j < 32 then (5 * j + 1) % 16
  else if j < 48 then (3 * j + 5) % 16
  else 7 * j % 16

end Sys2Proof.Machine
end

