-- ==== Sys2Proof/Syntax.lean ====
section
/-! DEFINITION. The instructions: one constructor for each of the twenty rows of spec/opcode_table.json, and the
shapes in which they reach the core (a request record, a datapath selection). -/

namespace Sys2Proof

/-- A host request record (30_encoding.md R80): the 8-bit command code and the operand fields of the four commands.
A command reads its own operands and no others. The spec fixes no layout beyond this (log 4). -/
structure Request where
  cmd : Byte
  n : Nat := 0
  units : List CodeUnit := []
  m : Word := 0
  sec : Word := 0
  text : List Byte := []
  deriving DecidableEq, Repr

/-- The operands of a datapath operation (R83): up to three words and an integer shift amount. -/
structure DatapathOperands where
  a : Word := 0
  b : Word := 0
  c : Word := 0
  n : Int := 0
  deriving DecidableEq, Repr

/-- A 4-bit select code `SEL` with its operands (R83). -/
structure Select where
  sel : BitVec 4
  ops : DatapathOperands := {}
  deriving DecidableEq, Repr

/-- The instructions of the opcode table. -/
inductive Instr where
  /-- `add.shr`, R134; the operand is the amount byte `c2` of R70. -/
  | addShr (amt : Byte)
  /-- `add.shl`, R133. -/
  | addShl (amt : Byte)
  /-- `xor.shr`, R136. -/
  | xorShr (amt : Byte)
  /-- `xor.shl`, R135. -/
  | xorShl (amt : Byte)
  /-- `SIGN`, R150: `N` and `IN[0..N-1]`. -/
  | sign (n : Nat) (units : List CodeUnit)
  /-- `MD5`, R180: `N` and `IN[0..N-1]`. -/
  | md5 (n : Nat) (units : List CodeUnit)
  /-- `SET_SECRETS`, R81: the patterns for `CFG_M` and `CFG_S`. -/
  | setSecrets (m sec : Word)
  /-- `LOAD_SECRET`, R153: the `"m.s"` byte string. -/
  | loadSecret (text : List Byte)
  /-- `WADD`, R90. -/
  | wadd (a b : Word)
  /-- `XOR`, R91. -/
  | xor (a b : Word)
  /-- `SHL`, R92. -/
  | shl (a : Word) (n : Int)
  /-- `USHR`, R93. -/
  | ushr (a : Word) (n : Int)
  /-- `ROTL`, R96. -/
  | rotl (a : Word) (n : Int)
  /-- `AND`, R97. -/
  | and (a b : Word)
  /-- `OR`, R98. -/
  | or (a b : Word)
  /-- `NOT`, R99. -/
  | not (a : Word)
  /-- `MD5_F`, R187. -/
  | md5F (x y z : Word)
  /-- `MD5_G`, R188. -/
  | md5G (x y z : Word)
  /-- `MD5_H`, R189. -/
  | md5H (x y z : Word)
  /-- `MD5_I`, R190. -/
  | md5I (x y z : Word)
  deriving DecidableEq, Repr

end Sys2Proof
end

