-- ==== Sys2Proof/Machine/State.lean ====
section
/-! DEFINITION. The state of the core as plain data (10_state.md R20-R35), the reasons a step can stop, and the state
after reset (70_reset_and_hazards.md R240). -/

namespace Sys2Proof.Machine

/-- The ByteBuffer as (cell index, byte) pairs, indices strictly rising; an index that is not listed is an unset cell
(R26, log 12). -/
abbrev Memory := List Host.Cell

/-- `PSEL`: the program being applied (R30). -/
inductive Prog where
  | a
  | b
  deriving DecidableEq, Repr

/-- The request-state elements of R35, by name. -/
inductive Element where
  | cmd
  | n
  | inp
  | tx
  | nt
  | bb
  | cap
  | v
  | c
  | bi
  | p
  | opnd
  | upc
  | psel
  | resP
  | resQ
  | resStr
  | h
  | w
  | x
  | j
  | blk
  | nb
  | len
  | digest
  deriving DecidableEq, Repr

/-- The internal spaces of R50, and the message words `X` of R32. -/
inductive Space where
  | inp
  | tx
  | bb
  | progA
  | progB
  | kt
  | ks
  | iv
  | x
  deriving DecidableEq, Repr

/-- The model faults of 60_exceptions.md R216: the machine stops and reports a defect. They are no fault codes of the
core (R210); those are next states. -/
inductive Fault where
  /-- A read of a request-state element that nothing has written in the current request. The stop is the spec's own: "A
  model that finds a read of an element not yet written in the current request must stop with a model fault, never
  supply a value" (10_state.md R21; 00_scope.md R12; 60_exceptions.md R216; 92_eei_decisions.md D20;
  93_implementation_defined.md item 14, `stuck`). Raised by every read of request state. Safe: the model stops where the
  spec says a model must stop. -/
  | unwrittenRead (e : Element)
  /-- An element index outside a space (R51). Raised by every read or write of a space. Safe: the model stops where
  the spec says no access exists. -/
  | outsideSpace (sp : Space) (index : Nat)
  deriving DecidableEq, Repr

/-- Why a step is refused. -/
inductive Refusal where
  /-- An instruction without a meaning in `exec`; raised by `exec` alone. Safe. -/
  | notModelled (mnemonic : String)
  /-- A select code 0xC-0xF: reserved, no operation (R83; 93_implementation_defined.md item 13). Raised by the fetch of
  a datapath selection. Safe. -/
  | reservedSelect (sel : BitVec 4)
  deriving DecidableEq, Repr

/-- Four words: the chaining words `H[0..3]` or the working words `WA`, `WB`, `WC`, `WD` (R32). -/
structure Quad where
  a : Word
  b : Word
  c : Word
  d : Word
  deriving DecidableEq, Repr

/-- The read-only stores (R22). No operation writes them. -/
structure ReadOnlyStores where
  progA : List Byte
  progB : List Byte
  kt : List Word
  ks : List (BitVec 5)
  iv : List Word
  deriving DecidableEq, Repr

/-- The parameters of an instance (00_scope.md R7). No operation writes them (log 8). -/
structure Parameters where
  maxUnits : Nat
  loneSurrogate : LoneSurrogate
  truncCount : TruncCount
  deriving DecidableEq, Repr

/-- Request state (R24-R32). `none` stands for the spec's own "holds no value" (R35; log 1), and a read of it is a
model fault, as R21 and R216 state. Indices and counts are numbers (log 20). -/
structure RequestState where
  cmd : Option Byte := none
  n : Option Nat := none
  inp : Option (List CodeUnit) := none
  tx : Option (List CodeUnit) := none
  nt : Option Nat := none
  bb : Memory := []
  cap : Option Nat := none
  v : Option Nat := none
  c : Option Nat := none
  bi : Option Nat := none
  p : Option Word := none
  opnd : Option Word := none
  upc : Option Nat := none
  psel : Option Prog := none
  resP : Option (BitVec 20) := none
  resQ : Option Word := none
  resStr : Option (List Byte) := none
  h : Option Quad := none
  w : Option Quad := none
  x : Option (List Word) := none
  j : Option (BitVec 6) := none
  blk : Option Nat := none
  nb : Option Nat := none
  len : Option (BitVec 64) := none
  digest : Option (List Byte) := none
  deriving DecidableEq, Repr

/-- The result a response carries (30_encoding.md R82). -/
inductive Result where
  | empty
  | sign (resP : BitVec 20) (resQ : Word) (resStr : List Byte)
  | md5 (digest resStr : List Byte)
  deriving DecidableEq, Repr

/-- A response record (R82): the code, the `INFO` word and the result. -/
structure Response where
  code : Byte
  info : Word
  result : Result
  deriving DecidableEq, Repr

/-- A move of the host, made between requests only (70_reset_and_hazards.md R247). Reading `STATUS` changes nothing and
is no move here. -/
inductive HostMove where
  | submit (r : Request)
  | reset
  deriving DecidableEq, Repr

/-- Whether a request is in flight, and at which of its internal counters the machine stands (D1, log 2). -/
inductive Phase where
  /-- No request is in flight. -/
  | idle
  /-- A `SIGN` in its byte loop or final mix, at the micro-op `UPC` of `PSEL`. -/
  | sequencer
  /-- An `MD5` in its block loop, at step `J` of block `BLK`. -/
  | compression
  deriving DecidableEq, Repr

/-- The state of one core, with the host's moves still to come. -/
structure State where
  cfgM : Word
  cfgS : Word
  status : Byte
  rom : ReadOnlyStores
  params : Parameters
  req : RequestState
  phase : Phase
  host : List HostMove
  response : Option Response
  select : Option Select
  result : Option Word
  deriving DecidableEq, Repr

/-- The fixed contents of the read-only stores (R22, R240). -/
def ReadOnlyStores.fixed : ReadOnlyStores where
  progA := progAReset
  progB := progBReset
  kt := ktTable
  ks := ksTable
  iv := ivTable

/-- Request state in which no element holds a value and every cell of `BB` is unset (R21, R26). -/
def RequestState.empty : RequestState := {}

/-- The state after reset (R35, R240). -/
def State.reset : State where
  cfgM := secretM
  cfgS := secretS
  status := 0
  rom := ReadOnlyStores.fixed
  params := { maxUnits := Config.maxUnits, loneSurrogate := .fault, truncCount := .characters }
  req := RequestState.empty
  phase := .idle
  host := []
  response := none
  select := none
  result := none

end Sys2Proof.Machine
end

