-- ==== Sys2Proof/Machine/Ops.lean ====
section
/-! DEFINITION. The named operations over state: reading request state, the ByteBuffer and the spaces, starting a
request, taking a fault (60_exceptions.md R212) and responding (30_encoding.md R82). -/

namespace Sys2Proof.Machine

/-- The architectural faults the core produces (60_exceptions.md R210). Codes 7, 8 and 9-255 are reserved and never
produced, so they have no constructor. -/
inductive FaultCode where
  | illegalMicroOp
  | programMalformed
  | invalidUnit
  | shiftRange
  | capacityExceeded
  | unknownCommand
  deriving DecidableEq, Repr

/-- The `CODE` of a fault (R210). -/
def faultNumber (f : FaultCode) : Byte :=
  match f with
  | .illegalMicroOp => 1
  | .programMalformed => 2
  | .invalidUnit => 3
  | .shiftRange => 4
  | .capacityExceeded => 5
  | .unknownCommand => 6

/-- How a computation inside an instruction ends before its last step: `raised s` is a fault of the core that has been
taken, `s` being the state after its response; `fault r` is a model fault. -/
inductive Stop where
  | raised (s : State)
  | fault (r : Fault)

/-- A computation inside an instruction. -/
abbrev Exec (α : Type) := Except Stop α

/-- The outcome of an instruction: completing and taking a fault of the core are both next states. -/
def outcome (x : Exec State) : Host.Outcome State Fault Refusal :=
  match x with
  | .ok s => .next s
  | .error (.raised s) => .next s
  | .error (.fault r) => .fault r

/-- TAKING A FAULT (R212, R14): `STATUS.CODE <- F`, a response with `CODE` = `F`, `INFO` = `info` and no result, and
the result registers hold no value. `CFG_M`, `CFG_S` and the read-only stores keep their values; no program counter,
mode or mask is saved. The request is over (R249): its state is discarded and the core is idle (log 11). There is no
return from a fault (R215): the next request starts from here. -/
def enterFault (f : FaultCode) (info : Word) (s : State) : State :=
  { s with
    status := faultNumber f
    response := some { code := faultNumber f, info := info, result := .empty }
    phase := .idle
    req := RequestState.empty }

/-- `INFO` of `ShiftRange(n)`: "the amount `n`, as `s32`" (R210, code 4). For an amount outside the range of `s32`, for
which the spec states no word, a free value (DESIGN CHOICE, log 28). -/
def amountInfo (n : Int) : Word :=
  if -2147483648 ≤ n ∧ n ≤ 2147483647 then wrap32 n else Config.amountInfoOutside n

/-- `INFO` of `InvalidUnit(V)`: the index of the unit in `TX` (R116; R210, code 3). For an index that 32 bits do not
hold, for which the spec states no word, a free value (DESIGN CHOICE, log 28). -/
def indexInfo (v : Nat) : Word := if v ≤ 4294967295 then trunc32 v else Config.indexInfoOutside v

/-- `raise F(info)` (R14). -/
def raise {α : Type} (f : FaultCode) (info : Word) (s : State) : Exec α :=
  .error (.raised (enterFault f info s))

/-- The end of a request that completes (R82, R249): `STATUS.CODE <- 0` and a response with `CODE` = 0, `INFO` = 0
and the result. The request state is discarded (R249, log 11). -/
def respond (res : Result) (s : State) : State :=
  { s with
    status := 0
    response := some { code := 0, info := 0, result := res }
    phase := .idle
    req := RequestState.empty }

/-- The state with request state `r`. -/
def State.setReq (s : State) (r : RequestState) : State := { s with req := r }

/-- Request start (R21, R24): no request-state element holds a value, and `CMD` is written. -/
def beginRequest (cmd : Byte) (s : State) : State :=
  s.setReq { RequestState.empty with cmd := some cmd }

/-- Request start of a text command (R24): `CMD`, `N` and `IN` are written. -/
def beginText (cmd : Byte) (n : Nat) (units : List CodeUnit) (s : State) : State :=
  s.setReq { RequestState.empty with cmd := some cmd, n := some n, inp := some units }

/-- A read of a request-state element: a model fault when it holds no value. The stop is the spec's: R12, R21 ("must
stop with a model fault, never supply a value"), 60_exceptions.md R216 and 93_implementation_defined.md item 14. -/
def need {α : Type} (e : Element) (x : Option α) : Exec α :=
  match x with
  | some a => .ok a
  | none => .error (.fault (.unwrittenRead e))

/-- `MemRead(space, i, n)` (R51) on a space held as a list: the elements `i .. i+n-1`, or a model fault when one lies
outside. -/
def memRead {α : Type} (sp : Space) (l : List α) (i n : Nat) : Exec (List α) :=
  if i + n ≤ l.length then .ok ((l.drop i).take n) else .error (.fault (.outsideSpace sp i))

/-- `MemRead(space, i, 1)` as its one element. -/
def memGet {α : Type} (sp : Space) (l : List α) (i : Nat) : Exec α :=
  match l[i]? with
  | some a => .ok a
  | none => .error (.fault (.outsideSpace sp i))

/-- The byte of cell `i`, `none` when the cell is unset (R26). -/
def Memory.read (m : Memory) (i : Nat) : Option Byte :=
  match m with
  | [] => none
  | (k, b) :: rest => if k = i then some b else Memory.read rest i

/-- Cell `i` set to a byte, its valid bit 1 (R51); the list stays in order of index. -/
def Memory.write (m : Memory) (i : Nat) (b : Byte) : Memory :=
  match m with
  | [] => [(i, b)]
  | (k, x) :: rest =>
    if i < k then (i, b) :: (k, x) :: rest
    else if i = k then (i, b) :: rest
    else (k, x) :: Memory.write rest i b

/-- Cells `i, i+1, ...` set to a sequence of bytes. -/
def Memory.writeMany (m : Memory) (i : Nat) (bs : List Byte) : Memory :=
  match bs with
  | [] => m
  | b :: rest => Memory.writeMany (m.write i b) (i + 1) rest

/-- Every index is at least `lo` and they strictly rise. -/
def Memory.risingFrom (lo : Nat) (m : Memory) : Bool :=
  match m with
  | [] => true
  | (k, _) :: rest => decide (lo ≤ k) && Memory.risingFrom (k + 1) rest

/-- The canonical form: indices strictly rising. An unset cell is not listed, and no byte equals "unset", so no entry
repeats what an unlisted index reads as. -/
def Memory.wf (m : Memory) : Bool := Memory.risingFrom 0 m

/-- `MemRead(BB, i, 1)` (R51): a model fault outside `0..CAP-1` and on an unset cell, which holds no value (R26). -/
def bbGet (s : State) (i : Nat) : Exec Byte := do
  let cap ← need .cap s.req.cap
  if i < cap then need .bb (s.req.bb.read i) else .error (.fault (.outsideSpace .bb i))

/-- `MemWrite(BB, i, n, bs)` (R51): a model fault when a cell lies outside `0..CAP-1`. -/
def bbWrite (i : Nat) (bs : List Byte) (s : State) : Exec State := do
  let cap ← need .cap s.req.cap
  if i + bs.length ≤ cap then pure (s.setReq { s.req with bb := s.req.bb.writeMany i bs })
  else .error (.fault (.outsideSpace .bb i))

/-- The units `IN[0..N-1]` (R24). A record whose `N` exceeds the units it carries reads outside `IN` (log 21). -/
def readInput (s : State) : Exec (List CodeUnit) := do
  let n ← need .n s.req.n
  let inp ← need .inp s.req.inp
  memRead .inp inp 0 n

/-- The program a `PSEL` names (R130). -/
def progBytes (x : Prog) (s : State) : List Byte :=
  match x with
  | .a => s.rom.progA
  | .b => s.rom.progB

/-- The space of a program store (R50). -/
def progSpace (x : Prog) : Space :=
  match x with
  | .a => .progA
  | .b => .progB

/-- `prog` of the `INFO` words of R210: 0 for `PROGA`, 1 for `PROGB`. -/
def progNumber (x : Prog) : Nat :=
  match x with
  | .a => 0
  | .b => 1

/-- `N > MAX_UNITS` raises `CapacityExceeded(N)`, `INFO` saturated to 2^32-1 (R210). -/
def checkCapacity (s : State) : Exec Unit := do
  let n ← need .n s.req.n
  if s.params.maxUnits < n then raise .capacityExceeded (trunc32 (min n 4294967295)) s else pure ()

/-- Reset by the host (R240): configuration to its reset values, no request-state element holds a value, idle. The
read-only stores and the parameters keep their contents, and the host's later moves remain. -/
def resetCore (s : State) : State :=
  { State.reset with rom := s.rom, params := s.params, host := s.host }

end Sys2Proof.Machine
end

