-- ==== Sys2Proof/Machine/Text.lean ====
section
/-! DEFINITION. Text preparation: surrogates and characters (43_checksum_engine.md R152), truncation (R151), CR LF
normalisation (41_utf8_expander.md R118), and the decimal and hexadecimal forms of results (R163, 44_md5_engine.md
R200). -/

namespace Sys2Proof.Machine

/-- A high surrogate, 0xD800-0xDBFF (R16). -/
def isHighSurrogate (u : CodeUnit) : Bool := 0xD800 ≤ u.toNat && u.toNat ≤ 0xDBFF

/-- A low surrogate, 0xDC00-0xDFFF (R16). -/
def isLowSurrogate (u : CodeUnit) : Bool := 0xDC00 ≤ u.toNat && u.toNat ≤ 0xDFFF

/-- `chars(IN)` (R152): a high surrogate immediately followed by a low surrogate is one character, every other unit is
one character. -/
def characters (units : List CodeUnit) : List (List CodeUnit) :=
  match units with
  | [] => []
  | [u] => [[u]]
  | u :: lo :: rest =>
    if isHighSurrogate u && isLowSurrogate lo then [u, lo] :: characters rest else [u] :: characters (lo :: rest)

/-- What truncation counts, by `TRUNC_COUNT` (R152). -/
def countedUnits (t : TruncCount) (units : List CodeUnit) : List (List CodeUnit) :=
  match t with
  | .characters => characters units
  | .codeUnits => units.map fun u => [u]

/-- `a[i:j]` of R151: the elements `i .. j-1`. -/
def slice {α : Type} (l : List α) (i j : Nat) : List α := (l.drop i).take (j - i)

/-- The kept segments of a list of characters (R151). -/
def keptCharacters (ch : List (List CodeUnit)) : List (List CodeUnit) :=
  let l := ch.length
  let mid := l / 2
  slice ch 0 segLen ++ slice ch (mid - segLen / 2) (mid + segLen / 2) ++ slice ch (l - segLen) l

/-- `truncate(IN)` (R151). -/
def truncateUnits (t : TruncCount) (units : List CodeUnit) : List CodeUnit :=
  let ch := countedUnits t units
  if ch.length ≤ truncLimit then units else (keptCharacters ch).flatten

/-- `normalise(IN)` (R118): one left-to-right scan that replaces 0x000D followed by 0x000A with 0x000A. -/
def normaliseUnits (units : List CodeUnit) : List CodeUnit :=
  match units with
  | [] => []
  | [u] => [u]
  | u :: v :: rest =>
    if u = 0x000D ∧ v = 0x000A then 0x000A :: normaliseUnits rest else u :: normaliseUnits (v :: rest)

/-- The ASCII digit of a number below ten (R15). -/
def digitChar (d : Nat) : Byte := BitVec.ofNat 8 (0x30 + d)

/-- The decimal digits of `n`, most significant first, before `acc`, at most `fuel` of them. -/
def decimalDigits (fuel n : Nat) (acc : List Byte) : List Byte :=
  match fuel with
  | 0 => acc
  | k + 1 => if n < 10 then digitChar n :: acc else decimalDigits k (n / 10) (digitChar (n % 10) :: acc)

/-- `dec(x)` for `x >= 0` (R163). -/
def decimalNat (n : Nat) : List Byte := decimalDigits (n + 1) n []

/-- `dec(x)` (R163): `"-"` before the digits of a negative number. -/
def decimalInt (x : Int) : List Byte :=
  if x < 0 then charMinus :: decimalNat (-x).toNat else decimalNat x.toNat

/-- A nibble as `'0'`-`'9'`, `'a'`-`'f'` (R200). -/
def hexChar (d : Nat) : Byte := if d < 10 then BitVec.ofNat 8 (0x30 + d) else BitVec.ofNat 8 (0x61 + (d - 10))

/-- Lower-case hexadecimal, two characters a byte, the high nibble first (R200). -/
def hexString (bs : List Byte) : List Byte :=
  match bs with
  | [] => []
  | b :: rest => hexChar (b.toNat / 16) :: hexChar (b.toNat % 16) :: hexString rest

end Sys2Proof.Machine
end

