-- ==== Sys2Proof/Machine/Expander.lean ====
section
/-! DEFINITION. The UTF-8 byte expander (41_utf8_expander.md R110-R122): the five classes and the loop from `TX` to
`BB`. -/

namespace Sys2Proof.Machine

/-- A byte from a number. -/
def byteOf (n : Nat) : Byte := BitVec.ofNat 8 n

/-- One-byte class (R112). -/
def utf8One (u : CodeUnit) : List Byte := [byteOf u.toNat]

/-- Two-byte class (R113). -/
def utf8Two (u : CodeUnit) : List Byte := [byteOf (0xC0 ||| field u.toNat 10 6), byteOf (0x80 ||| field u.toNat 5 0)]

/-- The scalar value of a surrogate pair (R114). -/
def pairScalar (hi lo : CodeUnit) : Nat := 0x10000 + (field hi.toNat 9 0 <<< 10) + field lo.toNat 9 0

/-- Four-byte class (R114). -/
def utf8Four (hi lo : CodeUnit) : List Byte :=
  let c := pairScalar hi lo
  [byteOf (0xF0 ||| field c 20 18), byteOf (0x80 ||| field c 17 12), byteOf (0x80 ||| field c 11 6),
    byteOf (0x80 ||| field c 5 0)]

/-- Three-byte class (R115). -/
def utf8Three (u : CodeUnit) : List Byte :=
  [byteOf (0xE0 ||| field u.toNat 15 12), byteOf (0x80 ||| field u.toNat 11 6), byteOf (0x80 ||| field u.toNat 5 0)]

/-- The unit after `u` is a low surrogate (the condition of R114, with `V + 1 < NT`). -/
def nextIsLow (next : Option CodeUnit) : Bool :=
  match next with
  | some lo => isLowSurrogate lo
  | none => false

/-- The one class that applies to a unit, given the unit after it (R112-R117): its bytes and the units it consumes.
`none` is `InvalidUnit` (R116). -/
def unitClass (lone : LoneSurrogate) (u : CodeUnit) (next : Option CodeUnit) : Option (List Byte × Nat) :=
  if u.toNat < 0x80 then some (utf8One u, 1)
  else if u.toNat < 0x800 then some (utf8Two u, 1)
  else if isHighSurrogate u && nextIsLow next then some (utf8Four u (next.getD 0), 2)
  else if !(isHighSurrogate u || isLowSurrogate u) then some (utf8Three u, 1)
  else
    match lone with
    | .fault => none
    | .encode3 => some (utf8Three u, 1)

/-- One class application at `V` (R112-R116): writes `BB` from `C` on and advances `V` and `C`. The `INFO` of
`InvalidUnit(V)` for an index above 2^32-1 is the model's free value (log 28). -/
def expandUnit (s : State) : Exec State := do
  let v ← need .v s.req.v
  let c ← need .c s.req.c
  let tx ← need .tx s.req.tx
  let u ← memGet .tx tx v
  match unitClass s.params.loneSurrogate u tx[v + 1]? with
  | none => raise .invalidUnit (indexInfo v) s
  | some (bytes, used) => do
    let s ← bbWrite c bytes s
    pure (s.setReq { s.req with v := some (v + used), c := some (c + bytes.length) })

/-- The expander loop (R119), at most `fuel` class applications. -/
def expandLoop (fuel : Nat) (s : State) : Exec State :=
  match fuel with
  | 0 => .ok s
  | k + 1 => do
    let v ← need .v s.req.v
    let nt ← need .nt s.req.nt
    if v < nt then
      let s' ← expandUnit s
      expandLoop k s'
    else pure s

/-- `TX` and `NT` written, with a ByteBuffer of `CAP = 3 * NT` cells, all unset (R25, R26, log 13). -/
def writeText (tx : List CodeUnit) (s : State) : State :=
  s.setReq { s.req with tx := some tx, nt := some tx.length, bb := [], cap := some (3 * tx.length) }

/-- `expand TX into BB` (R119): `V <- 0; C <- 0`, then the loop; each application consumes a unit, so `NT` bounds
their number. -/
def expand (s : State) : Exec State := do
  let nt ← need .nt s.req.nt
  expandLoop nt (s.setReq { s.req with v := some 0, c := some 0 })

end Sys2Proof.Machine
end

