-- ==== Sys2Proof/Machine/Flags.lean ====
section
/-! DEFINITION. Flags: the core has none (10_state.md R34), so no operation writes one and `State` holds none. The one
test of a sign reads bit 31 of a word directly (R34, 43_checksum_engine.md R160). -/

namespace Sys2Proof.Machine

/-- The sign test of R160: bit 31. -/
def signBit (p : Word) : Bool := p.getLsbD 31

end Sys2Proof.Machine
end

