-- ==== Sys2Proof/WellFormed.lean ====
section
/-! DEFINITION. Well-formed instructions: a legal amount character (30_encoding.md R73), as many code units as `N`
says (10_state.md R24), and shift amounts in the legal ranges of 00_scope.md R8 and 40_int32_alu.md R96. -/

namespace Sys2Proof

/-- The check on each instruction's fields. An ill-formed micro-op or shift still has a meaning: it takes the fault
its rule names. -/
def Instr.wellFormed (i : Instr) : Bool :=
  match i with
  | .addShr amt => (Machine.amount amt).isSome
  | .addShl amt => (Machine.amount amt).isSome
  | .xorShr amt => (Machine.amount amt).isSome
  | .xorShl amt => (Machine.amount amt).isSome
  | .sign n units => units.length == n
  | .md5 n units => units.length == n
  | .setSecrets _ _ => true
  | .loadSecret _ => true
  | .wadd _ _ => true
  | .xor _ _ => true
  | .shl _ n => decide (0 ≤ n ∧ n ≤ 31)
  | .ushr _ n => decide (-31 ≤ n ∧ n ≤ 31)
  | .rotl _ n => decide (1 ≤ n ∧ n ≤ 31)
  | .and _ _ => true
  | .or _ _ => true
  | .not _ => true
  | .md5F _ _ _ => true
  | .md5G _ _ _ => true
  | .md5H _ _ _ => true
  | .md5I _ _ _ => true

end Sys2Proof
end

