-- ==== Sys2Proof/Decode.lean ====
section
/-! DEFINITION. The decoder and the encoder of the three encoded languages of 30_encoding.md: program bytes
(R70-R78), request records (R80) and datapath select codes (R83). Decoding is total and refuses by name. -/

namespace Sys2Proof

/-- What is given to the decoder. -/
inductive Encoded where
  /-- Program bytes, from the offset of the micro-op on (R75). -/
  | program (bytes : List Byte)
  /-- A host request record (R80). -/
  | request (r : Request)
  /-- A datapath selection (R83). -/
  | select (sel : Select)
  deriving DecidableEq, Repr

/-- Why the decoder refuses. -/
inductive DecodeRefusal where
  /-- Fewer than three program bytes: a trailing fragment (R77). -/
  | fragment
  /-- A command code that R80 does not list; the core raises `UnknownCommand`. -/
  | unknownCommand (code : Byte)
  /-- A select code 0xC-0xF, reserved (R83). -/
  | reservedSelect (sel : BitVec 4)
  deriving DecidableEq, Repr

/-- The combine operation of a micro-op (`OP`, R71). -/
inductive MicroOp where
  | add
  | xor
  deriving DecidableEq, Repr

/-- The shift direction of a micro-op (`DIR`, R72). -/
inductive MicroDir where
  | shl
  | shr
  deriving DecidableEq, Repr

/-- `OP`: ADD for `'+'`, XOR for every other byte (R71). -/
def microOpOf (c0 : Byte) : MicroOp := if c0 = Machine.charPlus then .add else .xor

/-- `DIR`: unsigned right shift for `'+'`, left shift for every other byte (R72). -/
def microDirOf (c1 : Byte) : MicroDir := if c1 = Machine.charPlus then .shr else .shl

/-- The instruction of a combine operation, a direction and an amount byte (R74). -/
def microInstr (op : MicroOp) (dir : MicroDir) (amt : Byte) : Instr :=
  match op, dir with
  | .add, .shr => .addShr amt
  | .add, .shl => .addShl amt
  | .xor, .shr => .xorShr amt
  | .xor, .shl => .xorShl amt

/-- The micro-op at the head of program bytes (R75, R78). The amount byte stays in the instruction: a reserved one is
raised as `IllegalMicroOp` where the offset is known (log 7). -/
def decodeProgram (bytes : List Byte) : Except DecodeRefusal Instr :=
  match bytes with
  | c0 :: c1 :: c2 :: _ => .ok (microInstr (microOpOf c0) (microDirOf c1) c2)
  | _ => .error .fragment

/-- The command of a request record (R80). -/
def decodeRequest (r : Request) : Except DecodeRefusal Instr :=
  if r.cmd = 0x01 then .ok (.sign r.n r.units)
  else if r.cmd = 0x02 then .ok (.md5 r.n r.units)
  else if r.cmd = 0x10 then .ok (.setSecrets r.m r.sec)
  else if r.cmd = 0x11 then .ok (.loadSecret r.text)
  else .error (.unknownCommand r.cmd)

/-- The datapath operation of a select code (R83). -/
def decodeSelect (x : Select) : Except DecodeRefusal Instr :=
  match x.sel.toNat with
  | 0x0 => .ok (.wadd x.ops.a x.ops.b)
  | 0x1 => .ok (.xor x.ops.a x.ops.b)
  | 0x2 => .ok (.shl x.ops.a x.ops.n)
  | 0x3 => .ok (.ushr x.ops.a x.ops.n)
  | 0x4 => .ok (.rotl x.ops.a x.ops.n)
  | 0x5 => .ok (.and x.ops.a x.ops.b)
  | 0x6 => .ok (.or x.ops.a x.ops.b)
  | 0x7 => .ok (.not x.ops.a)
  | 0x8 => .ok (.md5F x.ops.a x.ops.b x.ops.c)
  | 0x9 => .ok (.md5G x.ops.a x.ops.b x.ops.c)
  | 0xA => .ok (.md5H x.ops.a x.ops.b x.ops.c)
  | 0xB => .ok (.md5I x.ops.a x.ops.b x.ops.c)
  | _ => .error (.reservedSelect x.sel)

/-- The decoder. -/
def decode (e : Encoded) : Except DecodeRefusal Instr :=
  match e with
  | .program bytes => decodeProgram bytes
  | .request r => decodeRequest r
  | .select x => decodeSelect x

/-- The encoder, from the canonical characters of R74, the command codes of R80 and the select codes of R83. -/
def encode (i : Instr) : Encoded :=
  match i with
  | .addShr amt => .program [Machine.charPlus, Machine.charPlus, amt]
  | .addShl amt => .program [Machine.charPlus, Machine.charMinus, amt]
  | .xorShr amt => .program [Machine.charCaret, Machine.charPlus, amt]
  | .xorShl amt => .program [Machine.charCaret, Machine.charMinus, amt]
  | .sign n units => .request { cmd := 0x01, n := n, units := units }
  | .md5 n units => .request { cmd := 0x02, n := n, units := units }
  | .setSecrets m sec => .request { cmd := 0x10, m := m, sec := sec }
  | .loadSecret text => .request { cmd := 0x11, text := text }
  | .wadd a b => .select { sel := 0x0, ops := { a := a, b := b } }
  | .xor a b => .select { sel := 0x1, ops := { a := a, b := b } }
  | .shl a n => .select { sel := 0x2, ops := { a := a, n := n } }
  | .ushr a n => .select { sel := 0x3, ops := { a := a, n := n } }
  | .rotl a n => .select { sel := 0x4, ops := { a := a, n := n } }
  | .and a b => .select { sel := 0x5, ops := { a := a, b := b } }
  | .or a b => .select { sel := 0x6, ops := { a := a, b := b } }
  | .not a => .select { sel := 0x7, ops := { a := a } }
  | .md5F x y z => .select { sel := 0x8, ops := { a := x, b := y, c := z } }
  | .md5G x y z => .select { sel := 0x9, ops := { a := x, b := y, c := z } }
  | .md5H x y z => .select { sel := 0xA, ops := { a := x, b := y, c := z } }
  | .md5I x y z => .select { sel := 0xB, ops := { a := x, b := y, c := z } }

/-- The program bytes of a list of micro-ops: their bare concatenation (R75). Other instructions have no program
bytes. -/
def encodeMicroOps (is : List Instr) : List Byte :=
  match is with
  | [] => []
  | i :: rest =>
    (match encode i with
      | .program bytes => bytes
      | .request _ => []
      | .select _ => []) ++ encodeMicroOps rest

/-- Whether a command code is one of R80. -/
def isCommand (code : Byte) : Bool := code == 0x01 || code == 0x02 || code == 0x10 || code == 0x11

/-- The encoded form of a word of the opcode table, its bits numbered as the table numbers them: 24 bits are a
micro-op `{c0, c1, c2}` (R70), 8 bits a command code, and 4 bits, or 8 bits whose value is no command code and fits a
select code, a select code. A value below 16 that is a command code is read as the command (log 6). Operands are zero. -/
def tableWord (nbits w : Nat) : Encoded :=
  if nbits ≥ 24 then
    .program [BitVec.ofNat 8 (w / 65536), BitVec.ofNat 8 (w / 256), BitVec.ofNat 8 w]
  else if nbits ≤ 4 then .select { sel := BitVec.ofNat 4 w }
  else if isCommand (BitVec.ofNat 8 w) then .request { cmd := BitVec.ofNat 8 w }
  else if w < 16 then .select { sel := BitVec.ofNat 4 w }
  else .request { cmd := BitVec.ofNat 8 w }

/-- The instruction the decoder reads from a word of the opcode table. -/
def decodeTableWord (nbits w : Nat) : Option Instr :=
  match decode (tableWord nbits w) with
  | .ok i => some i
  | .error _ => none

end Sys2Proof
end

