-- ==== Sys2Proof/Machine/Alu.lean ====
section
/-! DEFINITION. The Int32 layer and the MD5 round functions as functions on words (40_int32_alu.md R90-R100,
44_md5_engine.md R187-R190). No operation writes a flag. -/

namespace Sys2Proof.Machine

/-- `wrappingAdd(a, b)` (R90). -/
def wrappingAdd (a b : Word) : Word := wrap32 (s32 a + s32 b)

/-- `xor(a, b)` (R91). -/
def xor32 (a b : Word) : Word := trunc32 (u32 a ^^^ u32 b)

/-- `shiftLeft(a, n)` (R92); `none` is `ShiftRange(n)`. -/
def shiftLeft (a : Word) (n : Int) : Option Word :=
  if 0 ≤ n ∧ n ≤ 31 then some (trunc32 (u32 a <<< n.toNat)) else none

/-- `unsignedShiftRight(a, n)` (R93), with the negative-amount branch the source requires; `none` is `ShiftRange(n)`. -/
def unsignedShiftRight (a : Word) (n : Int) : Option Word :=
  if -31 ≤ n ∧ n ≤ 31 then
    if 0 ≤ n then some (wrap32 ((u32 a >>> n.toNat : Nat) : Int))
    else some (wrap32 (-((u32 a <<< (-n).toNat : Nat) : Int)))
  else none

/-- `rotl(a, n)` (R96) for `n` in 1..31; outside, a free value (log 9). -/
def rotl (a : Word) (n : Int) : Word :=
  if 1 ≤ n ∧ n ≤ 31 then trunc32 ((u32 a <<< n.toNat) ||| (u32 a >>> (32 - n).toNat)) else Config.rotlOutside a n

/-- `and(a, b)` (R97). -/
def and32 (a b : Word) : Word := trunc32 (u32 a &&& u32 b)

/-- `or(a, b)` (R98). -/
def or32 (a b : Word) : Word := trunc32 (u32 a ||| u32 b)

/-- `not(a)` (R99). -/
def not32 (a : Word) : Word := trunc32 (u32 a ^^^ 0xFFFFFFFF)

/-- The modular sum of several words, `trunc32(w1 + ... + wk)` (R100). -/
def modularSum (ws : List Word) : Word := trunc32 (ws.map u32).sum

/-- `F(x, y, z)` (R187). -/
def md5F (x y z : Word) : Word := or32 (and32 x y) (and32 (not32 x) z)

/-- `G(x, y, z)` (R188). -/
def md5G (x y z : Word) : Word := or32 (and32 x z) (and32 y (not32 z))

/-- `H(x, y, z)` (R189). -/
def md5H (x y z : Word) : Word := xor32 (xor32 x y) z

/-- `I(x, y, z)` (R190). -/
def md5I (x y z : Word) : Word := xor32 y (or32 x (not32 z))

end Sys2Proof.Machine
end

