-- ==== Sys2Proof/Machine/Operands.lean ====
section
/-! DEFINITION. Operand forms: the amount byte of a micro-op with its fault (30_encoding.md R73, R78), the shifted
operand of a micro-op (42_checksum_microops.md R132), and a shift amount outside its range (60_exceptions.md R210). -/

namespace Sys2Proof.Machine

/-- The `INFO` word `{prog[15:0], offset[15:0]}` of the micro-op at `UPC` of `PSEL` (R210). -/
def microInfo (s : State) : Exec Word := do
  let x ← need .psel s.req.psel
  let u ← need .upc s.req.upc
  pure (pair16 (progNumber x) u)

/-- The decoded shift amount of a micro-op; a reserved byte raises `IllegalMicroOp` (R73). -/
def amountOperand (amt : Byte) (s : State) : Exec Nat :=
  match amount amt with
  | some n => .ok n
  | none => do
    let info ← microInfo s
    raise .illegalMicroOp info s

/-- A shift result, or `ShiftRange(n)` with `INFO` the amount as `s32` (R92, R93, R210; an amount without an `s32`
reading: log 28; a fault with no request in flight: log 19). -/
def shiftResult (r : Option Word) (n : Int) (s : State) : Exec Word :=
  match r with
  | some w => .ok w
  | none => raise .shiftRange (amountInfo n) s

/-- The shifted operand of a micro-op, of the start value of `P` (R132, R133-R136). -/
def shiftedOperand (dir : MicroDir) (p : Word) (n : Nat) (s : State) : Exec Word :=
  match dir with
  | .shl => shiftResult (shiftLeft p n) n s
  | .shr => shiftResult (unsignedShiftRight p n) n s

/-- The combine of a micro-op (R71, R133-R136). -/
def combine (op : MicroOp) (p o : Word) : Word :=
  match op with
  | .add => wrappingAdd p o
  | .xor => xor32 p o

end Sys2Proof.Machine
end

