-- ==== Sys2Proof/Machine/MicroOps.lean ====
section
/-! DEFINITION. The four micro-ops and the program sequencer (42_checksum_microops.md R130-R140). -/

namespace Sys2Proof.Machine

/-- One micro-op (R132-R136): `OPND` is formed from the start value of `P`, `P` from that same value and `OPND`, and
`UPC` advances by 3 (R30). -/
def runMicroOp (op : MicroOp) (dir : MicroDir) (amt : Byte) (s : State) : Exec State := do
  let n ← amountOperand amt s
  let p ← need .p s.req.p
  let u ← need .upc s.req.upc
  let o ← shiftedOperand dir p n s
  pure (s.setReq { s.req with opnd := some o, p := some (combine op p o), upc := some (u + 3) })

/-- `add.shr n` (R134). -/
def execAddShr (amt : Byte) (s : State) : Host.Outcome State Fault Refusal :=
  outcome (runMicroOp .add .shr amt s)

/-- `add.shl n` (R133). -/
def execAddShl (amt : Byte) (s : State) : Host.Outcome State Fault Refusal :=
  outcome (runMicroOp .add .shl amt s)

/-- `xor.shr n` (R136). -/
def execXorShr (amt : Byte) (s : State) : Host.Outcome State Fault Refusal :=
  outcome (runMicroOp .xor .shr amt s)

/-- `xor.shl n` (R135). -/
def execXorShl (amt : Byte) (s : State) : Host.Outcome State Fault Refusal :=
  outcome (runMicroOp .xor .shl amt s)

/-- The three bytes of the micro-op at `UPC` of `PSEL` (R130): `MemRead(PROGx, UPC, 3)`. -/
def fetchMicroOp (s : State) : Exec (Byte × Byte × Byte) := do
  let x ← need .psel s.req.psel
  let u ← need .upc s.req.upc
  match (progBytes x s).drop u with
  | c0 :: c1 :: c2 :: _ => pure (c0, c1, c2)
  | _ => .error (.fault (.outsideSpace (progSpace x) u))

/-- Fetch, decode and execute the micro-op at `UPC` (R130, R131). -/
def microStep (s : State) : Exec State := do
  let (c0, c1, c2) ← fetchMicroOp s
  runMicroOp (microOpOf c0) (microDirOf c1) c2 s

/-- Whether `UPC` has reached the end of the program `PSEL` names (R30). -/
def atProgramEnd (s : State) : Exec Bool := do
  let x ← need .psel s.req.psel
  let u ← need .upc s.req.upc
  pure (decide ((progBytes x s).length ≤ u))

/-- `PSEL <- x; P <- r; UPC <- 0`, the start of `apply(x, r)` (R131). -/
def startApply (x : Prog) (r : Word) (s : State) : State :=
  s.setReq { s.req with psel := some x, p := some r, upc := some 0 }

/-- The micro-ops from `UPC` to the end of the program, at most `fuel` of them (R131). -/
def sequence (fuel : Nat) (s : State) : Exec State :=
  match fuel with
  | 0 => .ok s
  | k + 1 => do
    if ← atProgramEnd s then pure s
    else
      let s' ← microStep s
      sequence k s'

/-- `apply(x, r)` (R131); the result is the `P` of the state it gives. Every micro-op takes 3 of the program's bytes,
so the program's length bounds their number. -/
def applyProgram (x : Prog) (r : Word) (s : State) : Exec State :=
  sequence (progBytes x s).length (startApply x r s)

end Sys2Proof.Machine
end

