-- ==== Sys2Proof/Machine/Checksum.lean ====
section
/-! DEFINITION. The checksum engine, `SIGN` (43_checksum_engine.md R150-R163), with the program check of
60_exceptions.md R211. -/

namespace Sys2Proof.Machine

/-- The offset of the first micro-op, from offset `t` on, whose amount byte is reserved (R211). -/
def firstReserved (bytes : List Byte) (t : Nat) : Option Nat :=
  match bytes with
  | _ :: _ :: c2 :: rest => if (amount c2).isSome then firstReserved rest (t + 3) else some t
  | _ => none

/-- The program check on one program (R76, R211): the fault and its `INFO`, or nothing. -/
def programProblem (prog : Nat) (bytes : List Byte) : Option (FaultCode × Word) :=
  if bytes.length = 0 ∨ bytes.length % 3 ≠ 0 then some (.programMalformed, pair16 prog bytes.length)
  else
    match firstReserved bytes 0 with
    | some t => some (.illegalMicroOp, pair16 prog t)
    | none => none

/-- A program well-formed by R76. -/
def programWellFormed (bytes : List Byte) : Bool := (programProblem 0 bytes).isNone

/-- The program check on the program `x` (R211). -/
def checkProgram (x : Prog) (s : State) : Exec Unit :=
  match programProblem (progNumber x) (progBytes x s) with
  | some (f, info) => raise f info s
  | none => pure ()

/-- Step 1 of `SIGN`: `TX <- truncate(IN)` (R151). -/
def truncateInput (s : State) : Exec State := do
  let units ← readInput s
  pure (writeText (truncateUnits s.params.truncCount units) s)

/-- Step 3, and `BI <- 0` of step 4 (R154, R155). -/
def seed (s : State) : State := s.setReq { s.req with p := some s.cfgM, bi := some 0 }

/-- `SIGN` up to its byte loop (R150): the program check, `PROGA` first, the capacity check, truncation, expansion and
the seed. -/
def signStart (n : Nat) (units : List CodeUnit) (s : State) : Exec State := do
  let s := beginText 0x01 n units s
  checkProgram .a s
  checkProgram .b s
  checkCapacity s
  let s ← truncateInput s
  let s ← expand s
  pure { seed s with phase := .sequencer }

/-- The byte the loop consumes next: `BB[BI]` when `BI < CAP` and the cell is valid, else none (R155, R156). -/
def nextByte (s : State) : Exec (Option Byte) := do
  let bi ← need .bi s.req.bi
  let cap ← need .cap s.req.cap
  pure (if bi < cap then s.req.bb.read bi else none)

/-- `P + b` of step 4 (R155, R157). -/
def addByte (b : Byte) (s : State) : Exec Word := do
  let p ← need .p s.req.p
  pure (wrappingAdd p (b.zeroExtend 32))

/-- `BI <- BI + 1` (R155). -/
def advanceByte (s : State) : Exec State := do
  let bi ← need .bi s.req.bi
  pure (s.setReq { s.req with bi := some (bi + 1) })

/-- The byte loop (R155), at most `fuel` bytes. -/
def byteLoop (fuel : Nat) (s : State) : Exec State :=
  match fuel with
  | 0 => .ok s
  | k + 1 => do
    match ← nextByte s with
    | none => pure s
    | some b => do
      let p ← addByte b s
      let s ← applyProgram .a p s
      let s ← advanceByte s
      byteLoop k s

/-- The negative remap (R160): `U`, an unsigned number. -/
def remap (p : Word) : Nat := if signBit p then (u32 p &&& 0x7FFFFFFF) + 0x80000000 else u32 p

/-- `RES_P <- U mod SIGN_MOD` (R161). -/
def signResidue (p : Word) : BitVec 20 := BitVec.ofNat 20 (remap p % signMod)

/-- `RES_Q <- xor(RES_P, CFG_M)` (R162). -/
def signSecond (resP : BitVec 20) (m : Word) : Word := xor32 (resP.zeroExtend 32) m

/-- `RES_STR` (R163). -/
def signString (resP : BitVec 20) (resQ : Word) : List Byte :=
  decimalNat resP.toNat ++ [charPoint] ++ decimalInt (s32 resQ)

/-- The response of a completed `SIGN` (R82): `RES_P`, `RES_Q` and `RES_STR`. -/
def signResponse (s : State) : Exec State := do
  let p ← need .resP s.req.resP
  let q ← need .resQ s.req.resQ
  let str ← need .resStr s.req.resStr
  pure (respond (.sign p q str) s)

/-- Steps 6 to 9 and the response (R159-R163, R150), on the `P` that `apply(B, P)` left. -/
def finalise (s : State) : Exec State := do
  let p0 ← need .p s.req.p
  let p := xor32 p0 s.cfgS
  let resP := signResidue p
  let resQ := signSecond resP s.cfgM
  let str := signString resP resQ
  signResponse (s.setReq { s.req with p := some p, resP := some resP, resQ := some resQ, resStr := some str })

/-- Steps 4 to 9 (R150): the byte loop, which consumes at most `CAP` bytes, the final mix and the finalisation. -/
def signFinish (s : State) : Exec State := do
  let cap ← need .cap s.req.cap
  let s ← byteLoop cap s
  let p ← need .p s.req.p
  let s ← applyProgram .b p s
  finalise s

/-- `SIGN` (R150). -/
def execSign (n : Nat) (units : List CodeUnit) (s : State) : Host.Outcome State Fault Refusal :=
  outcome do
    let s ← signStart n units s
    signFinish s

/-- Inside the byte loop, between two applications of program A (R155, R158): the next byte is added and program A
starts, or the loop is over and program B starts. -/
def byteTurn (s : State) : Exec State := do
  match ← nextByte s with
  | some b => do
    let p ← addByte b s
    pure (startApply .a p s)
  | none => do
    let p ← need .p s.req.p
    pure (startApply .b p s)

/-- The turn of a `SIGN` in flight at the end of a program, or before its first (R131, R155, R158): after program A the
next byte, after program B the finalisation. -/
def signTurn (s : State) : Exec State :=
  match s.req.psel with
  | none => byteTurn s
  | some .a => do
    let s ← advanceByte s
    byteTurn s
  | some .b => finalise s

end Sys2Proof.Machine
end

