-- ==== Sys2Proof/Machine/Datapath.lean ====
section
/-! DEFINITION. The twelve datapath operations of 30_encoding.md R83, selected directly: each leaves its result in the
`result` latch and changes nothing else (log 5). A shift amount outside its range raises `ShiftRange` (60_exceptions.md
R210, code 4: "reachable only by a model that exposes the primitives"). -/

namespace Sys2Proof.Machine

/-- The state with a datapath result. -/
def State.setResult (s : State) (r : Word) : State := { s with result := some r }

/-- A datapath operation that cannot fault. -/
def deliver (r : Word) (s : State) : Host.Outcome State Fault Refusal := .next (s.setResult r)

/-- A shift: its result, or `ShiftRange(n)` (R92, R93). -/
def deliverShift (r : Option Word) (n : Int) (s : State) : Host.Outcome State Fault Refusal :=
  outcome do
    let w ← shiftResult r n s
    pure (s.setResult w)

/-- `WADD` (R90). -/
def execWadd (a b : Word) (s : State) : Host.Outcome State Fault Refusal := deliver (wrappingAdd a b) s

/-- `XOR` (R91). -/
def execXor (a b : Word) (s : State) : Host.Outcome State Fault Refusal := deliver (xor32 a b) s

/-- `SHL` (R92). -/
def execShl (a : Word) (n : Int) (s : State) : Host.Outcome State Fault Refusal := deliverShift (shiftLeft a n) n s

/-- `USHR` (R93). -/
def execUshr (a : Word) (n : Int) (s : State) : Host.Outcome State Fault Refusal :=
  deliverShift (unsignedShiftRight a n) n s

/-- `ROTL` (R96). -/
def execRotl (a : Word) (n : Int) (s : State) : Host.Outcome State Fault Refusal := deliver (rotl a n) s

/-- `AND` (R97). -/
def execAnd (a b : Word) (s : State) : Host.Outcome State Fault Refusal := deliver (and32 a b) s

/-- `OR` (R98). -/
def execOr (a b : Word) (s : State) : Host.Outcome State Fault Refusal := deliver (or32 a b) s

/-- `NOT` (R99). -/
def execNot (a : Word) (s : State) : Host.Outcome State Fault Refusal := deliver (not32 a) s

/-- `MD5_F` (R187). -/
def execMd5F (x y z : Word) (s : State) : Host.Outcome State Fault Refusal := deliver (md5F x y z) s

/-- `MD5_G` (R188). -/
def execMd5G (x y z : Word) (s : State) : Host.Outcome State Fault Refusal := deliver (md5G x y z) s

/-- `MD5_H` (R189). -/
def execMd5H (x y z : Word) (s : State) : Host.Outcome State Fault Refusal := deliver (md5H x y z) s

/-- `MD5_I` (R190). -/
def execMd5I (x y z : Word) (s : State) : Host.Outcome State Fault Refusal := deliver (md5I x y z) s

end Sys2Proof.Machine
end

