-- ==== Sys2Proof/Machine/Md5.lean ====
section
/-! DEFINITION. The MD5 engine (44_md5_engine.md R180-R200). -/

namespace Sys2Proof.Machine

/-- Byte `k` of a word, `k` = 0 the low byte (R55). -/
def wordByte (w : Word) (k : Nat) : Byte := byteOf (field w.toNat (8 * k + 7) (8 * k))

/-- `{b3, b2, b1, b0}` (R53, R185). -/
def littleWord (b0 b1 b2 b3 : Byte) : Word := b3 ++ b2 ++ b1 ++ b0

/-- The number of zero bytes between marker and trailer: `(55 - L) mod 64` (R184). -/
def zeroFill (l : Nat) : Nat := ((55 - (l : Int)) % 64).toNat

/-- The length trailer: the bit length `8 * L mod 2^64`, low byte first (R54, R182, R184). -/
def lengthTrailer (len : BitVec 64) : List Byte :=
  let bl := (8 * len).toNat
  [byteOf (field bl 7 0), byteOf (field bl 15 8), byteOf (field bl 23 16), byteOf (field bl 31 24),
    byteOf (field bl 39 32), byteOf (field bl 47 40), byteOf (field bl 55 48), byteOf (field bl 63 56)]

/-- The padding after `L` message bytes (R184). -/
def padding (l : Nat) : List Byte :=
  [(0x80 : Byte)] ++ List.replicate (zeroFill l) (0x00 : Byte) ++ lengthTrailer (BitVec.ofNat 64 l)

/-- `TX <- normalise(IN)` (R118, R180). -/
def normaliseInput (s : State) : Exec State := do
  let units ← readInput s
  pure (writeText (normaliseUnits units) s)

/-- `LEN <- C`, the padding, and `NB` (R182, R184); `CAP` becomes the padded length (R50, log 13). -/
def padMessage (s : State) : Exec State := do
  let l ← need .c s.req.c
  let pad := padding l
  let total := l + pad.length
  let s := s.setReq { s.req with len := some (BitVec.ofNat 64 l), nb := some (total / md5Block), cap := some total }
  bbWrite l pad s

/-- `H[0..3] <- IV[0..3]` (R186). -/
def loadIv (s : State) : Exec State := do
  let a ← memGet .iv s.rom.iv 0
  let b ← memGet .iv s.rom.iv 1
  let c ← memGet .iv s.rom.iv 2
  let d ← memGet .iv s.rom.iv 3
  pure (s.setReq { s.req with h := some { a := a, b := b, c := c, d := d } })

/-- `MD5` up to its block loop (R180): the capacity check, normalisation, expansion, padding and the initial state. -/
def md5Start (n : Nat) (units : List CodeUnit) (s : State) : Exec State := do
  let s := beginText 0x02 n units s
  checkCapacity s
  let s ← normaliseInput s
  let s ← expand s
  let s ← padMessage s
  let s ← loadIv s
  pure { s with phase := .compression }

/-- The word of four cells of `BB` from index `i` on (R185). -/
def bbWord (s : State) (i : Nat) : Exec Word := do
  let b0 ← bbGet s i
  let b1 ← bbGet s (i + 1)
  let b2 ← bbGet s (i + 2)
  let b3 ← bbGet s (i + 3)
  pure (littleWord b0 b1 b2 b3)

/-- `k` words of `BB` from index `i` on (R185). -/
def bbWords (s : State) (i k : Nat) : Exec (List Word) :=
  match k with
  | 0 => pure []
  | k + 1 => do
    let w ← bbWord s i
    let ws ← bbWords s (i + 4) k
    pure (w :: ws)

/-- The start of block `blk` (R185, R195): `BLK`, the sixteen words `X`, the working words from `H`, and `J <- 0`. -/
def loadBlock (blk : Nat) (s : State) : Exec State := do
  let x ← bbWords s (md5Block * blk) 16
  let h ← need .h s.req.h
  pure (s.setReq { s.req with blk := some blk, x := some x, w := some h, j := some 0 })

/-- The round function of step `j` (R187-R191). -/
def roundFunction (j : Nat) (x y z : Word) : Word :=
  if j < 16 then md5F x y z
  else if j < 32 then md5G x y z
  else if j < 48 then md5H x y z
  else md5I x y z

/-- The working words after a step with rotate amount `ks`, constant `kt` and message word `xg` (R193). -/
def stepWords (j : Nat) (w : Quad) (kt : Word) (ks : BitVec 5) (xg : Word) : Quad :=
  let f := roundFunction j w.b w.c w.d
  let t := modularSum [w.a, f, kt, xg]
  let nb := modularSum [w.b, rotl t ks.toNat]
  { a := w.d, b := nb, c := w.b, d := w.c }

/-- MD5 step `J` (R193). `J` is 6 bits, so it is 0 again after step 63 (log 14). -/
def md5Step (s : State) : Exec State := do
  let j ← need .j s.req.j
  let w ← need .w s.req.w
  let x ← need .x s.req.x
  let kt ← memGet .kt s.rom.kt j.toNat
  let ks ← memGet .ks s.rom.ks j.toNat
  let xg ← memGet .x x (messageIndex j.toNat)
  pure (s.setReq { s.req with w := some (stepWords j.toNat w kt ks xg), j := some (j + 1) })

/-- `k` steps. -/
def md5Steps (k : Nat) (s : State) : Exec State :=
  match k with
  | 0 => .ok s
  | k + 1 => do
    let s' ← md5Step s
    md5Steps k s'

/-- The sums at the end of a block (R195). -/
def addQuad (h w : Quad) : Quad where
  a := modularSum [h.a, w.a]
  b := modularSum [h.b, w.b]
  c := modularSum [h.c, w.c]
  d := modularSum [h.d, w.d]

/-- `H[i] <- trunc32(H[i] + W[i])` (R195). -/
def feedForward (s : State) : Exec State := do
  let h ← need .h s.req.h
  let w ← need .w s.req.w
  pure (s.setReq { s.req with h := some (addQuad h w) })

/-- `compress(BLK)` (R195). -/
def compress (blk : Nat) (s : State) : Exec State := do
  let s ← loadBlock blk s
  let s ← md5Steps 64 s
  feedForward s

/-- The blocks `blk, blk+1, ...`, `k` of them, in order (R196). -/
def compressFrom (blk k : Nat) (s : State) : Exec State :=
  match k with
  | 0 => .ok s
  | k + 1 => do
    let s' ← compress blk s
    compressFrom (blk + 1) k s'

/-- The four bytes of a word, low byte first (R199). -/
def wordBytes (w : Word) : List Byte := [wordByte w 0, wordByte w 1, wordByte w 2, wordByte w 3]

/-- `DIGEST` (R55, R199). -/
def digestBytes (h : Quad) : List Byte := wordBytes h.a ++ wordBytes h.b ++ wordBytes h.c ++ wordBytes h.d

/-- The response of a completed `MD5` (R82): `DIGEST` and `RES_STR`. -/
def md5Response (s : State) : Exec State := do
  let digest ← need .digest s.req.digest
  let str ← need .resStr s.req.resStr
  pure (respond (.md5 digest str) s)

/-- `DIGEST`, `RES_STR` and the response (R199, R200, R180). -/
def md5Output (s : State) : Exec State := do
  let h ← need .h s.req.h
  let digest := digestBytes h
  md5Response (s.setReq { s.req with digest := some digest, resStr := some (hexString digest) })

/-- The block loop and the output (R180). -/
def md5Finish (s : State) : Exec State := do
  let nb ← need .nb s.req.nb
  let s ← compressFrom 0 nb s
  md5Output s

/-- `MD5` (R180). -/
def execMd5 (n : Nat) (units : List CodeUnit) (s : State) : Host.Outcome State Fault Refusal :=
  outcome do
    let s ← md5Start n units s
    md5Finish s

/-- The turn of an `MD5` in flight at the end of a block: the next block, or the output (R195, R196). -/
def blockTurn (s : State) : Exec State := do
  let s ← feedForward s
  let blk ← need .blk s.req.blk
  let nb ← need .nb s.req.nb
  if blk + 1 < nb then loadBlock (blk + 1) s else md5Output s

/-- One step of an `MD5` in flight: block 0 is loaded, or step `J` runs, with the turn of the block after step 63. -/
def md5Turn (s : State) : Exec State :=
  match s.req.j with
  | none => loadBlock 0 s
  | some j => do
    let s ← md5Step s
    if j = 63 then blockTurn s else pure s

end Sys2Proof.Machine
end

