-- ==== Sys2Proof/Machine/Secrets.lean ====
section
/-! DEFINITION. The configuration commands `SET_SECRETS` (30_encoding.md R81) and `LOAD_SECRET` (43_checksum_engine.md
R153). -/

namespace Sys2Proof.Machine

/-- `CFG_M <- m; CFG_S <- s` (R81). -/
def writeSecrets (m sec : Word) (s : State) : State := { s with cfgM := m, cfgS := sec }

/-- `SET_SECRETS` (R81). -/
def execSetSecrets (m sec : Word) (s : State) : Host.Outcome State Fault Refusal :=
  .next (respond .empty (writeSecrets m sec (beginRequest 0x10 s)))

/-- `dec_value` of a digit string (R153). -/
def decimalValue (bs : List Byte) : Nat := bs.foldl (fun v b => 10 * v + (b.toNat - 0x30)) 0

/-- `D+` (R153): one or more digits. -/
def isNumber (bs : List Byte) : Bool := !bs.isEmpty && bs.all isDigit

/-- The two parts of `first "." second`, split at the first point; none without a point. -/
def splitAtPoint (bs : List Byte) : Option (List Byte × List Byte) :=
  match bs with
  | [] => none
  | b :: rest =>
    if b = charPoint then some ([], rest)
    else
      match splitAtPoint rest with
      | some (x, y) => some (b :: x, y)
      | none => none

/-- The largest secret `LOAD_SECRET` loads (R153). -/
def maxSecret : Nat := 2147483647

/-- The secrets a `"m.s"` string gives; a string that does not parse gives 0, 0 (R153). -/
def parseSecrets (text : List Byte) : Word × Word :=
  match splitAtPoint text with
  | some (x, y) =>
    if isNumber x ∧ isNumber y ∧ decimalValue x ≤ maxSecret ∧ decimalValue y ≤ maxSecret then
      (trunc32 (decimalValue x), trunc32 (decimalValue y))
    else (0, 0)
  | none => (0, 0)

/-- `LOAD_SECRET` (R153). -/
def execLoadSecret (text : List Byte) (s : State) : Host.Outcome State Fault Refusal :=
  .next (respond .empty (writeSecrets (parseSecrets text).1 (parseSecrets text).2 (beginRequest 0x11 s)))

end Sys2Proof.Machine
end

