-- ==== Sys2Proof/Machine/Fetch.lean ====
section
/-! DEFINITION. What a step does before an instruction runs: the next instruction is a datapath selection, the
micro-op at `UPC` of a `SIGN` in flight (42_checksum_microops.md R130), or the host's next request
(70_reset_and_hazards.md R247). -/

namespace Sys2Proof.Machine

/-- What the fetch gives: an instruction with the state it runs in, or the whole step. -/
inductive Fetched where
  | instr (i : Instr) (s : State)
  | done (o : Host.Outcome State Fault Refusal)

/-- The fetch of a datapath selection, which is consumed; a reserved code is refused (R83). -/
def fetchSelect (x : Select) (s : State) : Fetched :=
  match decode (.select x) with
  | .ok i => .instr i { s with select := none }
  | .error _ => .done (.refused (.reservedSelect x.sel))

/-- The fetch of a request, which is consumed; a code that R80 does not list raises `UnknownCommand` (R210, log 15). -/
def fetchRequest (r : Request) (s : State) : Fetched :=
  match decode (.request r) with
  | .ok i => .instr i s
  | .error _ =>
    .done (.next (enterFault .unknownCommand (r.cmd.zeroExtend 32) s))

/-- In the idle phase: the host's next move, or the core waits (R241, R247, log 3). -/
def fetchHost (s : State) : Fetched :=
  match s.host with
  | [] => .done (.next s)
  | .reset :: rest => .done (.next (resetCore { s with host := rest }))
  | .submit r :: rest => fetchRequest r { s with host := rest }

/-- The fetch of the micro-op at `UPC` (R130). -/
def fetchProgram (x : Prog) (u : Nat) (s : State) : Fetched :=
  match decode (.program ((progBytes x s).drop u)) with
  | .ok i => .instr i s
  | .error _ => .done (.fault (.outsideSpace (progSpace x) u))

/-- In the sequencer phase: the micro-op at `UPC`, or the turn at the end of a program. `UPC` without a value is a read
of request state not yet written, where the spec says that the machine stops (R21, R216). -/
def fetchSequencer (s : State) : Fetched :=
  match s.req.psel, s.req.upc with
  | some x, some u =>
    if u < (progBytes x s).length then fetchProgram x u s else .done (outcome (signTurn s))
  | some _, none => .done (.fault (.unwrittenRead .upc))
  | none, _ => .done (outcome (signTurn s))

/-- The fetch of a step. -/
def fetch (s : State) : Fetched :=
  match s.select with
  | some x => fetchSelect x s
  | none =>
    match s.phase with
    | .idle => fetchHost s
    | .sequencer => fetchSequencer s
    | .compression => .done (outcome (md5Turn s))

/-- The state with an encoded instruction placed where the next step fetches it (log 3, log 22): a selection in the
datapath port; a request as the host's next move, the core idle; the bytes of a micro-op at the head of `PROGA`, with
the sequencer at the start of `apply(A, P)`, `P` the seed of R154 when it holds no value. -/
def placeEncoded (e : Encoded) (s : State) : State :=
  match e with
  | .select x => { s with select := some x }
  | .request r => { s with select := none, phase := .idle, host := .submit r :: s.host }
  | .program bytes =>
    { startApply .a (s.req.p.getD s.cfgM) s with
      select := none
      phase := .sequencer
      rom := { s.rom with progA := bytes ++ s.rom.progA.drop bytes.length } }

end Sys2Proof.Machine
end

