-- ==== Sys2Proof/Machine/Dispatch.lean ====
section
/-! DEFINITION. One arm per instruction: each is one call of its meaning. -/

namespace Sys2Proof.Machine

def exec (i : Instr) (s : State) : Host.Outcome State Fault Refusal :=
  match i with
  | .addShr amt => Sys2Proof.Machine.execAddShr amt s
  | .addShl amt => Sys2Proof.Machine.execAddShl amt s
  | .xorShr amt => Sys2Proof.Machine.execXorShr amt s
  | .xorShl amt => Sys2Proof.Machine.execXorShl amt s
  | .sign n units => Sys2Proof.Machine.execSign n units s
  | .md5 n units => Sys2Proof.Machine.execMd5 n units s
  | .setSecrets m sec => Sys2Proof.Machine.execSetSecrets m sec s
  | .loadSecret text => Sys2Proof.Machine.execLoadSecret text s
  | .wadd a b => Sys2Proof.Machine.execWadd a b s
  | .xor a b => Sys2Proof.Machine.execXor a b s
  | .shl a n => Sys2Proof.Machine.execShl a n s
  | .ushr a n => Sys2Proof.Machine.execUshr a n s
  | .rotl a n => Sys2Proof.Machine.execRotl a n s
  | .and a b => Sys2Proof.Machine.execAnd a b s
  | .or a b => Sys2Proof.Machine.execOr a b s
  | .not a => Sys2Proof.Machine.execNot a s
  | .md5F x y z => Sys2Proof.Machine.execMd5F x y z s
  | .md5G x y z => Sys2Proof.Machine.execMd5G x y z s
  | .md5H x y z => Sys2Proof.Machine.execMd5H x y z s
  | .md5I x y z => Sys2Proof.Machine.execMd5I x y z s

end Sys2Proof.Machine
end

