-- ==== Sys2Proof/Safety.lean ====
section
/-! DEFINITION. The terms the claims use: the launch premises of a request and the duties of the host, the report of a
fault, the machine's invariant, and the checksum, UTF-8 and MD5 algorithms as plain functions of their inputs. The
machine does not use this file. -/

namespace Sys2Proof.Safety

open Sys2Proof.Machine

/-- A core at rest: no request is in flight, no datapath operation is selected, and the constant tables hold their
fixed contents. The programs are any two programs, since a core takes them as parameters (20_memory.md R64). -/
structure AtRest (s : State) : Prop where
  idle : s.phase = .idle
  noSelection : s.select = none
  kt : s.rom.kt = ktTable
  ks : s.rom.ks = ksTable
  iv : s.rom.iv = ivTable

/-- The launch premises of a request, the clean-entry record (70_reset_and_hazards.md R243): a core at rest in which
every request-state element holds no value, the programs and the tables hold their fixed contents, and `STATUS` holds
the code of the previous response, or 0 after reset (the last response is a field of the model, log 17). `CFG_M` and
`CFG_S` hold what the last reset or configuration request left, which is any pattern (10_state.md R23): the record
asks nothing of them, and `LaunchIsKept` states that the other moves leave them. -/
structure Launch (s : State) : Prop extends AtRest s where
  req : s.req = RequestState.empty
  progA : s.rom.progA = progAReset
  progB : s.rom.progB = progBReset
  statusAfterReset : s.response = none → s.status = 0
  statusAfterResponse : ∀ r, s.response = some r → s.status = r.code

/-- The moves of the host that may change the configuration (10_state.md R21): reset and the two configuration
requests. -/
def configures (x : HostMove) : Prop :=
  x = .reset ∨ ∃ r, x = .submit r ∧ (r.cmd = 0x10 ∨ r.cmd = 0x11)

/-- The host's duty that a text request carries `N` units (70_reset_and_hazards.md R248, 10_state.md R24). -/
def dutiful (r : Request) : Prop := r.units.length = r.n

/-- The `INFO` word of an index of `TX` (60_exceptions.md R210, code 3): its unsigned reading is the index. Nothing is
said of an index above 2^32-1, for which the word is free (log 28). -/
def IndexInfo (v : Nat) (info : Word) : Prop := v ≤ 4294967295 → u32 info = v

/-- The `INFO` word of a shift amount (60_exceptions.md R210, code 4): its signed reading is the amount. Nothing is
said of an amount without an `s32` reading, for which the word is free (log 28). -/
def AmountInfo (n : Int) (info : Word) : Prop := -2147483648 ≤ n → n ≤ 2147483647 → s32 info = n

/-- What a taken fault leaves (60_exceptions.md R212): the code in `STATUS` and in the response, the `INFO` word, no
result, and the configuration, the read-only stores and everything outside the request as before. -/
structure FaultTaken (code : Byte) (info : Word) (s t : State) : Prop where
  status : t.status = code
  response : t.response = some { code := code, info := info, result := .empty }
  resP : t.req.resP = none
  resQ : t.req.resQ = none
  resStr : t.req.resStr = none
  digest : t.req.digest = none
  idle : t.phase = .idle
  cfgM : t.cfgM = s.cfgM
  cfgS : t.cfgS = s.cfgS
  rom : t.rom = s.rom
  params : t.params = s.params
  host : t.host = s.host
  select : t.select = s.select
  result : t.result = s.result

/-- What a completed request leaves: `STATUS.CODE` = 0, the response with its result, and everything outside the
request but the configuration as before (30_encoding.md R82, 70_reset_and_hazards.md R249). -/
structure Completed (res : Result) (s t : State) : Prop where
  status : t.status = 0
  response : t.response = some { code := 0, info := 0, result := res }
  idle : t.phase = .idle
  rom : t.rom = s.rom
  params : t.params = s.params
  host : t.host = s.host
  select : t.select = s.select
  result : t.result = s.result

/-- The form of a response's result (10_state.md R31, R32; 30_encoding.md R82): `RES_P` is at most 999999, `DIGEST` has
sixteen bytes and the string of an `MD5` thirty-two characters. -/
def ResultForm (res : Result) : Prop :=
  match res with
  | .empty => True
  | .sign resP _ _ => resP.toNat ≤ 999999
  | .md5 digest resStr => digest.length = 16 ∧ resStr.length = 32

/-- The invariant of the machine: `STATUS` is a code the core produces (60_exceptions.md R210); a response repeats
`STATUS`, has `INFO` 0 when it reports no fault, carries no result when it reports one (30_encoding.md R82,
60_exceptions.md R212), and its result has its form; `UPC` is a multiple of 3 (10_state.md R30); the ByteBuffer is in
canonical form with every valid cell below `CAP` (20_memory.md R51); `X` has sixteen words (10_state.md R32). -/
structure Inv (s : State) : Prop where
  status : s.status.toNat ≤ 6
  response : ∀ r, s.response = some r →
    r.code = s.status ∧ (r.code = 0 → r.info = 0) ∧ (r.code ≠ 0 → r.result = .empty) ∧ ResultForm r.result
  upc : ∀ u, s.req.upc = some u → u % 3 = 0
  bufferForm : Memory.wf s.req.bb = true
  bufferBound : ∀ i b, s.req.bb.read i = some b → ∃ cap, s.req.cap = some cap ∧ i < cap
  words : ∀ x, s.req.x = some x → x.length = 16

end Sys2Proof.Safety

namespace Sys2Proof.Reference

open Sys2Proof.Machine

/-- The amount a legal amount character stands for (30_encoding.md R73): `'0'`-`'9'` are 0-9, `'a'`-`'p'` are 10-25. -/
def AmountIs (amt : Byte) (n : Nat) : Prop :=
  (amt.toNat = 0x30 + n ∧ n ≤ 9) ∨ (amt.toNat = 0x61 + (n - 10) ∧ 10 ≤ n ∧ n ≤ 25)

/-- A reserved amount byte (30_encoding.md R73, R77): neither `'0'`-`'9'` nor `'a'`-`'p'`. -/
def AmountReserved (amt : Byte) : Prop := ∀ n, ¬ AmountIs amt n

/-- One micro-op on the accumulator, with machine operations on 32-bit words. -/
def micro (c0 c1 : Byte) (n : Nat) (p : Word) : Word :=
  let o := if c1 = 0x2B then p >>> n else p <<< n
  if c0 = 0x2B then p + o else p ^^^ o

/-- The amount of an amount byte. -/
def amountOf (c2 : Byte) : Nat := if c2.toNat ≤ 0x39 then c2.toNat - 0x30 else c2.toNat - 0x61 + 10

/-- `apply(program, r)` (42_checksum_microops.md R131) as a function. -/
def apply (program : List Byte) (p : Word) : Word :=
  match program with
  | c0 :: c1 :: c2 :: rest => apply rest (micro c0 c1 (amountOf c2) p)
  | _ => p

/-- Steps 3 to 6 of the checksum (43_checksum_engine.md R154-R159) on the expanded bytes. -/
def checksum (progA progB : List Byte) (m sec : Word) (bytes : List Byte) : Word :=
  apply progB (bytes.foldl (fun p b => apply progA (p + b.zeroExtend 32)) m) ^^^ sec

/-- A program that R76 calls well-formed: non-empty, whole micro-ops, every amount byte legal. -/
def WellFormedProgram (program : List Byte) : Prop :=
  3 ≤ program.length ∧ program.length % 3 = 0 ∧
    ∀ k c2, 3 * k + 2 < program.length → program[3 * k + 2]? = some c2 → ∃ n, AmountIs c2 n

/-- The fault of the program check on one program (60_exceptions.md R211), with its `INFO` word: the length, or the
offset of the first micro-op whose amount byte is reserved. -/
def ProgramFault (prog : Nat) (program : List Byte) (code : Byte) (info : Word) : Prop :=
  (program.length = 0 ∨ program.length % 3 ≠ 0) ∧ code = 2 ∧
      info = BitVec.ofNat 32 (65536 * prog + program.length % 65536) ∨
    program.length ≠ 0 ∧ program.length % 3 = 0 ∧ code = 1 ∧
      ∃ k c2, program[3 * k + 2]? = some c2 ∧ AmountReserved c2 ∧
        (∀ j c, j < k → program[3 * j + 2]? = some c → ∃ n, AmountIs c n) ∧
        info = BitVec.ofNat 32 (65536 * prog + 3 * k % 65536)

/-- The characters of a text (43_checksum_engine.md R152): a group goes on from a high surrogate to a low one and
nowhere else. -/
def chars (units : List CodeUnit) : List (List CodeUnit) :=
  units.splitBy fun u lo => decide (55296 ≤ u.toNat ∧ u.toNat ≤ 56319 ∧ 56320 ≤ lo.toNat ∧ lo.toNat ≤ 57343)

/-- Truncation (43_checksum_engine.md R151) on the characters, or on the units. -/
def truncate (t : TruncCount) (units : List CodeUnit) : List CodeUnit :=
  let ch := if t = .characters then chars units else units.map fun u => [u]
  let mid := ch.length / 2
  if ch.length ≤ 30 then units
  else (ch.take 10 ++ (ch.drop (mid - 5)).take 10 ++ ch.drop (ch.length - 10)).flatten

/-- The normalisation scan (41_utf8_expander.md R118) from index `i` on, with the output so far. -/
def normaliseFrom (fuel : Nat) (units : List CodeUnit) (i : Nat) (tx : List CodeUnit) : List CodeUnit :=
  match fuel with
  | 0 => tx
  | k + 1 =>
    match units[i]? with
    | none => tx
    | some u =>
      if u = 13 ∧ units[i + 1]? = some 10 then normaliseFrom k units (i + 2) (tx ++ [10])
      else normaliseFrom k units (i + 1) (tx ++ [u])

/-- Line-end normalisation (41_utf8_expander.md R118). -/
def normalise (units : List CodeUnit) : List CodeUnit := normaliseFrom units.length units 0 []

/-- The decimal digits of a number, `"0"` for zero (43_checksum_engine.md R163). -/
def digitString (x : Nat) : List Byte :=
  if x = 0 then [0x30] else (Nat.digits 10 x).reverse.map fun d => BitVec.ofNat 8 (0x30 + d)

/-- `dec(x)` (43_checksum_engine.md R163). -/
def decimal (x : Int) : List Byte := if x < 0 then 0x2D :: digitString x.natAbs else digitString x.natAbs

/-- `D+` (43_checksum_engine.md R153). -/
def IsNumber (text : List Byte) : Prop := text ≠ [] ∧ ∀ c ∈ text, 0x30 ≤ c.toNat ∧ c.toNat ≤ 0x39

/-- `dec_value` (43_checksum_engine.md R153). -/
def numberValue (text : List Byte) : Nat := Nat.ofDigits 10 (text.reverse.map fun c => c.toNat - 0x30)

/-- A secret pair `"m.s"` and its two values (43_checksum_engine.md R153). -/
def IsSecretPair (text : List Byte) (m k : Nat) : Prop :=
  ∃ x y, text = x ++ 0x2E :: y ∧ IsNumber x ∧ IsNumber y ∧ m = numberValue x ∧ k = numberValue y ∧
    m ≤ 2147483647 ∧ k ≤ 2147483647

/-- The bytes of one unit that is no part of a surrogate pair, at index `v` (41_utf8_expander.md R112, R113, R115,
R116), or the index of an unpaired surrogate. -/
def unitBytes (lone : LoneSurrogate) (u : CodeUnit) (v : Nat) : Except Nat (List Byte) :=
  let x := u.toNat
  let three : List Byte :=
    [BitVec.ofNat 8 (224 + x / 4096), BitVec.ofNat 8 (128 + x / 64 % 64), BitVec.ofNat 8 (128 + x % 64)]
  if x < 128 then .ok [BitVec.ofNat 8 x]
  else if x < 2048 then .ok [BitVec.ofNat 8 (192 + x / 64), BitVec.ofNat 8 (128 + x % 64)]
  else if 55296 ≤ x ∧ x ≤ 57343 ∧ lone = .fault then .error v
  else .ok three

/-- The four bytes of a surrogate pair (41_utf8_expander.md R114). -/
def pairBytes (hi lo : CodeUnit) : List Byte :=
  let c := 65536 + (hi.toNat - 55296) * 1024 + (lo.toNat - 56320)
  [BitVec.ofNat 8 (240 + c / 262144), BitVec.ofNat 8 (128 + c / 4096 % 64), BitVec.ofNat 8 (128 + c / 64 % 64),
    BitVec.ofNat 8 (128 + c % 64)]

/-- The expansion of the units from index `v` on (41_utf8_expander.md R119), or the index of the first unpaired
surrogate. -/
def utf8 (lone : LoneSurrogate) (units : List CodeUnit) (v : Nat) : Except Nat (List Byte) :=
  match units with
  | [] => .ok []
  | [u] => unitBytes lone u v
  | u :: lo :: rest =>
    if 55296 ≤ u.toNat ∧ u.toNat ≤ 56319 ∧ 56320 ≤ lo.toNat ∧ lo.toNat ≤ 57343 then
      match utf8 lone rest (v + 2) with
      | .ok bs => .ok (pairBytes u lo ++ bs)
      | .error k => .error k
    else
      match unitBytes lone u v with
      | .error k => .error k
      | .ok b =>
        match utf8 lone (lo :: rest) (v + 1) with
        | .ok bs => .ok (b ++ bs)
        | .error k => .error k

/-- The UTF-16 code units of a character (00_scope.md R16). -/
def utf16 (ch : Char) : List CodeUnit :=
  if ch.toNat < 65536 then [BitVec.ofNat 16 ch.toNat]
  else [BitVec.ofNat 16 (55296 + (ch.toNat - 65536) / 1024), BitVec.ofNat 16 (56320 + (ch.toNat - 65536) % 1024)]

/-- The padded MD5 message (44_md5_engine.md R184). -/
def pad (bytes : List Byte) : List Byte :=
  bytes ++ [(128 : Byte)] ++ List.replicate ((119 - bytes.length % 64) % 64) (0 : Byte) ++
    (List.range 8).map fun k => BitVec.ofNat 8 (8 * bytes.length / 256 ^ k)

/-- Byte `i` of a message, as a number. -/
def byteAt (bytes : List Byte) (i : Nat) : Nat := (bytes.getD i 0).toNat

/-- The little-endian word at byte `i` (44_md5_engine.md R185). -/
def wordAt (bytes : List Byte) (i : Nat) : Word :=
  BitVec.ofNat 32 (byteAt bytes i + 256 * byteAt bytes (i + 1) + 65536 * byteAt bytes (i + 2) +
    16777216 * byteAt bytes (i + 3))

/-- The round function of step `j`, on 32-bit words (44_md5_engine.md R187-R190). -/
def roundFn (j : Nat) (x y z : Word) : Word :=
  match j / 16 with
  | 0 => (x &&& y) ||| (~~~x &&& z)
  | 1 => (x &&& z) ||| (y &&& ~~~z)
  | 2 => x ^^^ y ^^^ z
  | _ => y ^^^ (x ||| ~~~z)

/-- The message word of step `j` (44_md5_engine.md R194). -/
def wordIndex (j : Nat) : Nat :=
  match j / 16 with
  | 0 => j
  | 1 => (5 * j + 1) % 16
  | 2 => (3 * j + 5) % 16
  | _ => 7 * j % 16

/-- The 64 additive constants, written out from the column `KT[j]` of 44_md5_engine.md R191. -/
def additive : List Word :=
  [0xD76AA478, 0xE8C7B756, 0x242070DB, 0xC1BDCEEE, 0xF57C0FAF, 0x4787C62A, 0xA8304613, 0xFD469501,
    0x698098D8, 0x8B44F7AF, 0xFFFF5BB1, 0x895CD7BE, 0x6B901122, 0xFD987193, 0xA679438E, 0x49B40821] ++
  [0xF61E2562, 0xC040B340, 0x265E5A51, 0xE9B6C7AA, 0xD62F105D, 0x02441453, 0xD8A1E681, 0xE7D3FBC8,
    0x21E1CDE6, 0xC33707D6, 0xF4D50D87, 0x455A14ED, 0xA9E3E905, 0xFCEFA3F8, 0x676F02D9, 0x8D2A4C8A] ++
  [0xFFFA3942, 0x8771F681, 0x6D9D6122, 0xFDE5380C, 0xA4BEEA44, 0x4BDECFA9, 0xF6BB4B60, 0xBEBFBC70,
    0x289B7EC6, 0xEAA127FA, 0xD4EF3085, 0x04881D05, 0xD9D4D039, 0xE6DB99E5, 0x1FA27CF8, 0xC4AC5665] ++
  [0xF4292244, 0x432AFF97, 0xAB9423A7, 0xFC93A039, 0x655B59C3, 0x8F0CCC92, 0xFFEFF47D, 0x85845DD1,
    0x6FA87E4F, 0xFE2CE6E0, 0xA3014314, 0x4E0811A1, 0xF7537E82, 0xBD3AF235, 0x2AD7D2BB, 0xEB86D391]

/-- The rotate amount of step `j`, by the round and `j mod 4` (44_md5_engine.md R192). -/
def rotation (j : Nat) : Nat :=
  ([[7, 12, 17, 22], [5, 9, 14, 20], [4, 11, 16, 23], [6, 10, 15, 21]].getD (j / 16) []).getD (j % 4) 0

/-- One MD5 step on the block at byte `base`, in the reference form (44_md5_engine.md R193, R197). -/
def md5Round (message : List Byte) (base : Nat) (q : Quad) (j : Nat) : Quad :=
  let x := wordAt message (base + 4 * wordIndex j)
  let sum := q.a + roundFn j q.b q.c q.d + x + additive.getD j 0
  { a := q.d, b := q.b + sum.rotateLeft (rotation j), c := q.b, d := q.c }

/-- The compression of the block at byte `base` (44_md5_engine.md R195). -/
def md5Block (message : List Byte) (h : Quad) (base : Nat) : Quad :=
  let w := (List.range 64).foldl (md5Round message base) h
  { a := h.a + w.a, b := h.b + w.b, c := h.c + w.c, d := h.d + w.d }

/-- The chaining words after the last block of a padded message (44_md5_engine.md R186, R196). -/
def md5Chain (message : List Byte) : Quad :=
  (List.range (message.length / 64)).foldl (fun h k => md5Block message h (64 * k))
    { a := 0x67452301, b := 0xEFCDAB89, c := 0x98BADCFE, d := 0x10325476 }

/-- The four bytes of a word, low byte first (44_md5_engine.md R199). -/
def lowFirst (w : Word) : List Byte := (List.range 4).map fun k => BitVec.ofNat 8 (w.toNat / 256 ^ k)

/-- The MD5 digest of a byte string (44_md5_engine.md R180-R199). -/
def md5 (bytes : List Byte) : List Byte :=
  let h := md5Chain (pad bytes)
  lowFirst h.a ++ lowFirst h.b ++ lowFirst h.c ++ lowFirst h.d

/-- The lower-case hexadecimal characters. -/
def hexDigits : List Byte :=
  [0x30, 0x31, 0x32, 0x33, 0x34, 0x35, 0x36, 0x37, 0x38, 0x39, 0x61, 0x62, 0x63, 0x64, 0x65, 0x66]

/-- Lower-case hexadecimal, high nibble first (44_md5_engine.md R200). -/
def hex (bytes : List Byte) : List Byte :=
  bytes.flatMap fun b => [hexDigits.getD (b.toNat / 16) 0, hexDigits.getD (b.toNat % 16) 0]

end Sys2Proof.Reference
end

