-- ==== Sys2Proof/Certificates/Slice0/Obligations.lean ====
section
/-! DEFINITION. The statements for the provers. Each docstring names the rules of the spec a statement formalises, and
the log entry where a clause is the model's own choice. -/

open Sys2Proof Sys2Proof.Machine Sys2Proof.Safety

/-! ### The Int32 layer and the datapath operations -/

/-- R90: the sum of the signed readings, reduced modulo 2^32; reading the operands as unsigned gives the same pattern.
No flag, no exception. The latch the result stands in is the model's choice (log 5). -/
def Obligations.WaddWrapsTheSum : Prop :=
  ∀ (ops : DatapathOperands) (s : State),
    decode (.select { sel := 0x0, ops := ops }) = .ok (.wadd ops.a ops.b) ∧
      ∃ r, exec (.wadd ops.a ops.b) s = .next { s with result := some r } ∧
        (4294967296 : Int) ∣ s32 r - (s32 ops.a + s32 ops.b) ∧ u32 r = (u32 ops.a + u32 ops.b) % 4294967296

/-- R91, R97, R98, R99: XOR, AND, OR and NOT bit by bit. No flag, no exception. The result latch is the model's
choice (log 5). -/
def Obligations.BitwiseOperations : Prop :=
  ∀ (ops : DatapathOperands) (s : State),
    (decode (.select { sel := 0x1, ops := ops }) = .ok (.xor ops.a ops.b) ∧
      ∃ r, exec (.xor ops.a ops.b) s = .next { s with result := some r } ∧
        ∀ i < 32, r.getLsbD i = (ops.a.getLsbD i != ops.b.getLsbD i)) ∧
    (decode (.select { sel := 0x5, ops := ops }) = .ok (.and ops.a ops.b) ∧
      ∃ r, exec (.and ops.a ops.b) s = .next { s with result := some r } ∧
        ∀ i < 32, r.getLsbD i = (ops.a.getLsbD i && ops.b.getLsbD i)) ∧
    (decode (.select { sel := 0x6, ops := ops }) = .ok (.or ops.a ops.b) ∧
      ∃ r, exec (.or ops.a ops.b) s = .next { s with result := some r } ∧
        ∀ i < 32, r.getLsbD i = (ops.a.getLsbD i || ops.b.getLsbD i)) ∧
    (decode (.select { sel := 0x7, ops := ops }) = .ok (.not ops.a) ∧
      ∃ r, exec (.not ops.a) s = .next { s with result := some r } ∧
        (∀ i < 32, r.getLsbD i = !ops.a.getLsbD i) ∧ (4294967296 : Int) ∣ s32 r - (-s32 ops.a - 1))

/-- R92 for the legal amounts 0..31: bits shifted past bit 31 are lost and zeros enter. The result latch is the
model's choice (log 5). -/
def Obligations.ShlLegalAmounts : Prop :=
  ∀ (ops : DatapathOperands) (s : State), 0 ≤ ops.n → ops.n ≤ 31 →
    decode (.select { sel := 0x2, ops := ops }) = .ok (.shl ops.a ops.n) ∧
      ∃ r, exec (.shl ops.a ops.n) s = .next { s with result := some r } ∧
        u32 r = u32 ops.a * 2 ^ ops.n.toNat % 4294967296

/-- R93 for the legal amounts -31..31: the unsigned shift for `n >= 0`, and for `n < 0` the negation of the left shift
modulo 2^32. The result latch is the model's choice (log 5). -/
def Obligations.UshrLegalAmounts : Prop :=
  ∀ (ops : DatapathOperands) (s : State), -31 ≤ ops.n → ops.n ≤ 31 →
    decode (.select { sel := 0x3, ops := ops }) = .ok (.ushr ops.a ops.n) ∧
      ∃ r, exec (.ushr ops.a ops.n) s = .next { s with result := some r } ∧
        (0 ≤ ops.n → u32 r = u32 ops.a / 2 ^ ops.n.toNat) ∧
        (ops.n < 0 → (4294967296 : Int) ∣ s32 r + u32 ops.a * 2 ^ (-ops.n).toNat)

/-- R92, R93, R210, R212: a shift amount outside its range raises `ShiftRange` with `INFO` the amount, as `s32`; for an
amount without an `s32` reading the word is free (log 28). That the fault is also taken, with a response, when no
request is in flight is the model's reading (log 19). -/
def Obligations.ShiftRangeFault : Prop :=
  ∀ (a : Word) (n : Int) (s : State),
    (n < 0 ∨ 31 < n → ∃ t info, exec (.shl a n) s = .next t ∧ FaultTaken 4 info s t ∧ AmountInfo n info) ∧
    (n < -31 ∨ 31 < n → ∃ t info, exec (.ushr a n) s = .next t ∧ FaultTaken 4 info s t ∧ AmountInfo n info)

/-- R96 for the amounts 1..31: bits leaving bit 31 re-enter at bit 0. The result latch is the model's choice (log 5). -/
def Obligations.RotlLegalAmounts : Prop :=
  ∀ (ops : DatapathOperands) (s : State), 1 ≤ ops.n → ops.n ≤ 31 →
    decode (.select { sel := 0x4, ops := ops }) = .ok (.rotl ops.a ops.n) ∧
      ∃ r, exec (.rotl ops.a ops.n) s = .next { s with result := some r } ∧
        (∀ i < 32, r.getLsbD ((i + ops.n.toNat) % 32) = ops.a.getLsbD i)

/-- R96 states no result for an amount outside 1..31 and no exception: the operation completes, with a value that the
model leaves free (log 9), in the result latch, which is the model's own (log 5), and changes nothing else. -/
def Obligations.RotlOtherAmountsComplete : Prop :=
  ∀ (a : Word) (n : Int) (s : State), n < 1 ∨ 31 < n →
    ∃ r, exec (.rotl a n) s = .next { s with result := some r }

/-- R187, R188, R189, R190: the MD5 round functions, `F` and `G` as bitwise selections. The result latch is the model's
choice (log 5). -/
def Obligations.RoundFunctions : Prop :=
  ∀ (ops : DatapathOperands) (s : State),
    (decode (.select { sel := 0x8, ops := ops }) = .ok (.md5F ops.a ops.b ops.c) ∧
      ∃ r, exec (.md5F ops.a ops.b ops.c) s = .next { s with result := some r } ∧
        ∀ i < 32, r.getLsbD i = if ops.a.getLsbD i then ops.b.getLsbD i else ops.c.getLsbD i) ∧
    (decode (.select { sel := 0x9, ops := ops }) = .ok (.md5G ops.a ops.b ops.c) ∧
      ∃ r, exec (.md5G ops.a ops.b ops.c) s = .next { s with result := some r } ∧
        ∀ i < 32, r.getLsbD i = if ops.c.getLsbD i then ops.a.getLsbD i else ops.b.getLsbD i) ∧
    (decode (.select { sel := 0xA, ops := ops }) = .ok (.md5H ops.a ops.b ops.c) ∧
      ∃ r, exec (.md5H ops.a ops.b ops.c) s = .next { s with result := some r } ∧
        ∀ i < 32, r.getLsbD i = ((ops.a.getLsbD i != ops.b.getLsbD i) != ops.c.getLsbD i)) ∧
    (decode (.select { sel := 0xB, ops := ops }) = .ok (.md5I ops.a ops.b ops.c) ∧
      ∃ r, exec (.md5I ops.a ops.b ops.c) s = .next { s with result := some r } ∧
        ∀ i < 32, r.getLsbD i = (ops.b.getLsbD i != (ops.a.getLsbD i || !ops.c.getLsbD i)))

/-- R94: on its legal domain each primitive is the 32-bit machine operation on the patterns. The law stands in the spec
as derived from R90 to R93. For a negative amount the machine operation is the negated left shift that R93 gives. -/
def Obligations.PrimitivesAreMachineOperations : Prop :=
  ∀ (a b : Word),
    wrappingAdd a b = a + b ∧ xor32 a b = a ^^^ b ∧
    (∀ n : Nat, n ≤ 31 → shiftLeft a n = some (a <<< n)) ∧
    (∀ n : Nat, n ≤ 31 → unsignedShiftRight a n = some (a >>> n)) ∧
    (∀ n : Nat, 1 ≤ n → n ≤ 31 → unsignedShiftRight a (-n) = some (-(a <<< n)))

/-- R100: the modular sum is the sum modulo 2^32, and equals folding `wrappingAdd` over the words in any order. The rule
stands in the spec as derived from R90 and R94. -/
def Obligations.ModularSumInAnyOrder : Prop :=
  ∀ (ws : List Word),
    u32 (modularSum ws) = (ws.map u32).sum % 4294967296 ∧
      ∀ (w : Word) (vs : List Word), (w :: vs).Perm ws → vs.foldl wrappingAdd w = modularSum ws

/-! ### The micro-ops and the sequencer -/

/-- R133 with R30: `add.shl n`. `OPND`, `P` and `UPC` are written and nothing else. The clause on `P * (1 + 2^n)` is what
the spec derives: "as a multiplication, `P <- wrap32(P * (1 + 2^n))` [derived: from rules R90, R92]" (R133). -/
def Obligations.AddShlRule : Prop :=
  ∀ (c1 amt : Byte) (rest : List Byte) (n : Nat) (s : State) (p : Word) (u : Nat),
    c1 ≠ 0x2B → Reference.AmountIs amt n → s.req.p = some p → s.req.upc = some u →
      decode (.program (0x2B :: c1 :: amt :: rest)) = .ok (.addShl amt) ∧
        ∃ o q, exec (.addShl amt) s =
            .next { s with req := { s.req with opnd := some o, p := some q, upc := some (u + 3) } } ∧
          u32 o = u32 p * 2 ^ n % 4294967296 ∧ u32 q = (u32 p + u32 o) % 4294967296 ∧
          u32 q = u32 p * (1 + 2 ^ n) % 4294967296

/-- R134: `add.shr n`. `OPND`, `P` and `UPC` are written and nothing else. -/
def Obligations.AddShrRule : Prop :=
  ∀ (amt : Byte) (rest : List Byte) (n : Nat) (s : State) (p : Word) (u : Nat),
    Reference.AmountIs amt n → s.req.p = some p → s.req.upc = some u →
      decode (.program (0x2B :: 0x2B :: amt :: rest)) = .ok (.addShr amt) ∧
        ∃ o q, exec (.addShr amt) s =
            .next { s with req := { s.req with opnd := some o, p := some q, upc := some (u + 3) } } ∧
          u32 o = u32 p / 2 ^ n ∧ u32 q = (u32 p + u32 o) % 4294967296 ∧ (1 ≤ n → 0 ≤ s32 o)

/-- R135: `xor.shl n`. `OPND`, `P` and `UPC` are written and nothing else. -/
def Obligations.XorShlRule : Prop :=
  ∀ (c0 c1 amt : Byte) (rest : List Byte) (n : Nat) (s : State) (p : Word) (u : Nat),
    c0 ≠ 0x2B → c1 ≠ 0x2B → Reference.AmountIs amt n → s.req.p = some p → s.req.upc = some u →
      decode (.program (c0 :: c1 :: amt :: rest)) = .ok (.xorShl amt) ∧
        ∃ o q, exec (.xorShl amt) s =
            .next { s with req := { s.req with opnd := some o, p := some q, upc := some (u + 3) } } ∧
          u32 o = u32 p * 2 ^ n % 4294967296 ∧
          (∀ i < 32, q.getLsbD i = (p.getLsbD i != o.getLsbD i)) ∧
          (n = 0 → q = 0) ∧ (∀ i < n, q.getLsbD i = p.getLsbD i)

/-- R136: `xor.shr n`. `OPND`, `P` and `UPC` are written and nothing else. -/
def Obligations.XorShrRule : Prop :=
  ∀ (c0 amt : Byte) (rest : List Byte) (n : Nat) (s : State) (p : Word) (u : Nat),
    c0 ≠ 0x2B → Reference.AmountIs amt n → s.req.p = some p → s.req.upc = some u →
      decode (.program (c0 :: 0x2B :: amt :: rest)) = .ok (.xorShr amt) ∧
        ∃ o q, exec (.xorShr amt) s =
            .next { s with req := { s.req with opnd := some o, p := some q, upc := some (u + 3) } } ∧
          u32 o = u32 p / 2 ^ n ∧
          (∀ i < 32, q.getLsbD i = (p.getLsbD i != o.getLsbD i)) ∧
          (n = 0 → q = 0) ∧ (∀ i < 32, 32 - n ≤ i → q.getLsbD i = p.getLsbD i)

/-- R73, R77, R210: a reserved amount byte raises `IllegalMicroOp` with `INFO` the program and the offset, in each of
the four forms. A `SIGN` never gets there (R130); that a micro-op run on its own raises the fault itself is the model's
reading (log 7). -/
def Obligations.ReservedAmountFault : Prop :=
  ∀ (amt : Byte) (i : Instr) (s : State) (x : Prog) (u : Nat),
    i = .addShr amt ∨ i = .addShl amt ∨ i = .xorShr amt ∨ i = .xorShl amt →
    Reference.AmountReserved amt → s.req.psel = some x → s.req.upc = some u →
      ∃ t, exec i s = .next t ∧
        FaultTaken 1 (BitVec.ofNat 32 ((if x = .a then 0 else 65536) + u % 65536)) s t

/-- R73, R77: `amt` decodes exactly the digits and the letters `'a'`-`'p'`; every other byte is reserved. -/
def Obligations.AmountBytes : Prop :=
  ∀ (c2 : Byte),
    (∀ n, amount c2 = some n ↔ Reference.AmountIs c2 n) ∧ (amount c2 = none ↔ Reference.AmountReserved c2)

/-- R21, R216: a micro-op that would read `P`, `UPC` or `PSEL` before the request has written it stops with a model
fault and supplies no value. That a reserved amount byte makes the micro-op itself raise its fault, and so read `PSEL`
and `UPC`, is the model's reading (log 7). -/
def Obligations.UnwrittenReadStops : Prop :=
  ∀ (amt : Byte) (i : Instr) (s : State),
    i = .addShr amt ∨ i = .addShl amt ∨ i = .xorShr amt ∨ i = .xorShl amt →
      ((∃ n, Reference.AmountIs amt n) → s.req.p = none → exec i s = .fault (.unwrittenRead .p)) ∧
      ((∃ n, Reference.AmountIs amt n) → s.req.p ≠ none → s.req.upc = none →
        exec i s = .fault (.unwrittenRead .upc)) ∧
      (Reference.AmountReserved amt → s.req.psel = none → exec i s = .fault (.unwrittenRead .psel)) ∧
      (Reference.AmountReserved amt → s.req.psel ≠ none → s.req.upc = none →
        exec i s = .fault (.unwrittenRead .upc))

/-- R131, R140: the sequencer, started on a well-formed program at offset 0 with the argument in `P`, runs each micro-op
once and in order, one step each, and ends after a third of the program's length with the value of `apply` in `P` and
`UPC` at the program's length. The steps between a request's ends are the model's granularity (log 2). -/
def Obligations.SequencerRunsApply : Prop :=
  ∀ (s : State) (x : Prog) (r : Word), s.select = none → s.phase = .sequencer →
    Reference.WellFormedProgram (progBytes x s) →
    s.req.psel = some x → s.req.p = some r → s.req.upc = some 0 →
      ∃ o, Host.Core.run Sys2Proof.core ((progBytes x s).length / 3) s =
        .next { s with req := { s.req with
          opnd := some o
          p := some (Reference.apply (progBytes x s) r)
          upc := some (progBytes x s).length } }

/-- R139: the literal programs as closed formulas, run by the sequencer (granularity: log 2). -/
def Obligations.LiteralProgramsMix : Prop :=
  ∀ (s : State) (r : Word), s.select = none → s.phase = .sequencer → s.rom = ReadOnlyStores.fixed →
    s.req.p = some r → s.req.upc = some 0 →
      (s.req.psel = some .a →
        ∃ t, Host.Core.run Sys2Proof.core 2 s = .next t ∧
          t.req.p = some (let q := r + (r <<< 10); q ^^^ (q >>> 6))) ∧
      (s.req.psel = some .b →
        ∃ t, Host.Core.run Sys2Proof.core 3 s = .next t ∧
          t.req.p = some (let q := r + (r <<< 3); let w := q ^^^ (q >>> 11); w + (w <<< 15)))

/-- R155, R156, R158: at the end of program A the byte loop moves to the next byte: a valid one is added to `P` and
program A starts again, and at the first unset cell or the end of the buffer program B starts on `P`. The step boundary
is the model's granularity (log 2). -/
def Obligations.ByteLoopTurn : Prop :=
  ∀ (s : State) (u i cap : Nat) (p : Word), s.select = none → s.phase = .sequencer → s.req.psel = some .a →
    s.req.upc = some u → s.rom.progA.length ≤ u → s.req.bi = some i → s.req.cap = some cap → s.req.p = some p →
      (∀ b, i + 1 < cap → s.req.bb.read (i + 1) = some b →
        step s = .next { s with req := { s.req with
          bi := some (i + 1), p := some (p + b.zeroExtend 32), upc := some 0 } }) ∧
      (cap ≤ i + 1 ∨ s.req.bb.read (i + 1) = none →
        step s = .next { s with req := { s.req with bi := some (i + 1), psel := some .b, upc := some 0 } })

/-! ### Encodings -/

/-- R78 and the `priority` of opcode_table.json: program bytes decode to the first row of the table whose masked word
matches, and fewer than three bytes do not decode. The amount byte stays in the instruction (log 7). -/
def Obligations.MicroOpPriorityDecode : Prop :=
  ∀ (c0 c1 c2 : Byte) (rest : List Byte),
    let w : BitVec 24 := c0 ++ c1 ++ c2
    let rows : List (BitVec 24 × BitVec 24 × (Byte → Instr)) :=
      [(0xFFFF00, 0x2B2B00, .addShr), (0xFF0000, 0x2B0000, .addShl), (0x00FF00, 0x002B00, .xorShr),
        (0x000000, 0x000000, .xorShl)]
    (∃ row, rows.find? (fun row => w &&& row.1 == row.2.1) = some row ∧
      decode (.program (c0 :: c1 :: c2 :: rest)) = .ok (row.2.2 c2)) ∧
    decode (.program [c0, c1]) = .error .fragment ∧ decode (.program [c0]) = .error .fragment ∧
    decode (.program []) = .error .fragment

/-- The decoder reads back every instruction from its encoding, with every operand (R70, R74, R80, R83). -/
def Obligations.DecodeEncode : Prop := ∀ i : Instr, i.wellFormed = true → decode (encode i) = .ok i

/-- R75: a program is the bare concatenation of its micro-ops, and the micro-op at offset `3 k` of it decodes to the
`k`-th. -/
def Obligations.ProgramDecodesInOrder : Prop :=
  ∀ (is : List Instr), (∀ i ∈ is, ∃ bytes, encode i = .program bytes) →
    (encodeMicroOps is).length = 3 * is.length ∧
      ∀ k i, is[k]? = some i → decode (.program ((encodeMicroOps is).drop (3 * k))) = .ok i

/-- R80, R83: the command codes and the select codes, and the codes that name nothing. -/
def Obligations.CommandAndSelectCodes : Prop :=
  (∀ r : Request,
    (r.cmd = 0x01 → decode (.request r) = .ok (.sign r.n r.units)) ∧
    (r.cmd = 0x02 → decode (.request r) = .ok (.md5 r.n r.units)) ∧
    (r.cmd = 0x10 → decode (.request r) = .ok (.setSecrets r.m r.sec)) ∧
    (r.cmd = 0x11 → decode (.request r) = .ok (.loadSecret r.text)) ∧
    (r.cmd ≠ 0x01 → r.cmd ≠ 0x02 → r.cmd ≠ 0x10 → r.cmd ≠ 0x11 →
      decode (.request r) = .error (.unknownCommand r.cmd))) ∧
  (∀ x : Select, 12 ≤ x.sel.toNat → decode (.select x) = .error (.reservedSelect x.sel))

/-- R79: the bytes of the literal programs and what they decode to, with the words of one instruction of every other
kind. -/
def Obligations.LiteralWordsDecode : Prop :=
  State.reset.rom.progA = [0x2B, 0x2D, 0x61, 0x5E, 0x2B, 0x36] ∧
  State.reset.rom.progB = [0x2B, 0x2D, 0x33, 0x5E, 0x2B, 0x62, 0x2B, 0x2D, 0x66] ∧
  decode (.program (State.reset.rom.progA.drop 0)) = .ok (.addShl 0x61) ∧ amount 0x61 = some 10 ∧
  decode (.program (State.reset.rom.progA.drop 3)) = .ok (.xorShr 0x36) ∧ amount 0x36 = some 6 ∧
  decode (.program (State.reset.rom.progB.drop 0)) = .ok (.addShl 0x33) ∧ amount 0x33 = some 3 ∧
  decode (.program (State.reset.rom.progB.drop 3)) = .ok (.xorShr 0x62) ∧ amount 0x62 = some 11 ∧
  decode (.program (State.reset.rom.progB.drop 6)) = .ok (.addShl 0x66) ∧ amount 0x66 = some 15 ∧
  decodeTableWord 8 0x11 = some (.loadSecret []) ∧ decodeTableWord 4 0xB = some (.md5I 0 0 0)

/-! ### The step -/

/-- A step runs the decoded instruction: a datapath selection (consumed), the host's next request when the core is idle
(consumed, R247), or the micro-op at `UPC` of `PSEL` (R130). The selection port and the list of host moves are the
model's (log 3, log 5). -/
def Obligations.StepRunsDecoded : Prop :=
  ∀ (s : State) (i : Instr),
    (∀ x, s.select = some x → decode (.select x) = .ok i → step s = exec i { s with select := none }) ∧
    (∀ r rest, s.select = none → s.phase = .idle → s.host = .submit r :: rest → decode (.request r) = .ok i →
      step s = exec i { s with host := rest }) ∧
    (∀ x u, s.select = none → s.phase = .sequencer → s.req.psel = some x → s.req.upc = some u →
      u < (progBytes x s).length → decode (.program ((progBytes x s).drop u)) = .ok i → step s = exec i s)

/-- R80, R210, R248: a request with any other command code raises `UnknownCommand` with `INFO` the code; nothing but
`STATUS`, the response and request state changes. That request state then holds no value is the model's reading of the
"discarded" of R249 (log 11). -/
def Obligations.UnknownCommandFault : Prop :=
  ∀ (s : State) (r : Request) (rest : List HostMove),
    s.select = none → s.phase = .idle → s.host = .submit r :: rest →
    r.cmd ≠ 0x01 → r.cmd ≠ 0x02 → r.cmd ≠ 0x10 → r.cmd ≠ 0x11 →
      ∃ t, step s = .next t ∧ FaultTaken 6 (BitVec.ofNat 32 r.cmd.toNat) { s with host := rest } t ∧
        t.req = RequestState.empty

/-- R83: a reserved select code has no operation, so the step is refused by name. -/
def Obligations.ReservedSelectRefused : Prop :=
  ∀ (s : State) (x : Select), s.select = some x → 12 ≤ x.sel.toNat → step s = .refused (.reservedSelect x.sel)

/-- R240: what reset leaves, from any idle state, and the reset state itself. R241: with no move of the host the core
waits. The list of host moves is the model's (log 3, log 18). -/
def Obligations.ResetAndIdle : Prop :=
  (∀ (s : State) (rest : List HostMove), s.select = none → s.phase = .idle → s.host = .reset :: rest →
    ∃ t, step s = .next t ∧ t.cfgM.toNat = 320305 ∧ t.cfgS.toNat = 131321201 ∧ t.status = 0 ∧ t.rom = s.rom ∧
      t.params = s.params ∧ t.req = RequestState.empty ∧ t.phase = .idle ∧ t.host = rest) ∧
  (∀ (s : State), s.select = none → s.phase = .idle → s.host = [] → step s = .next s) ∧
  (State.reset.cfgM.toNat = 320305 ∧ State.reset.cfgS.toNat = 131321201 ∧ State.reset.status = 0 ∧
    State.reset.req = RequestState.empty ∧ State.reset.phase = .idle ∧ State.reset.rom = ReadOnlyStores.fixed)

/-! ### The expander -/

/-- R112, R113, R114, R115, R116: one class application at `V`, for each of the five classes, wherever the cells it writes
fit below `CAP`: the bytes written to `BB` from `C` on, and how `V` and `C` advance. For an index above 2^32-1 nothing is
said of `INFO` (log 28). -/
def Obligations.ExpanderClasses : Prop :=
  ∀ (s : State) (tx : List CodeUnit) (u : CodeUnit) (v c cap : Nat),
    s.req.tx = some tx → s.req.v = some v → s.req.c = some c → s.req.cap = some cap → tx[v]? = some u →
      let x := u.toNat
      let writes := fun (bs : List Byte) (used : Nat) =>
        c + bs.length ≤ cap → expandUnit s = .ok { s with req := { s.req with
          bb := s.req.bb.writeMany c bs, v := some (v + used), c := some (c + bs.length) } }
      let three : List Byte :=
        [BitVec.ofNat 8 (224 + x / 4096), BitVec.ofNat 8 (128 + x / 64 % 64), BitVec.ofNat 8 (128 + x % 64)]
      let paired := ∃ lo, tx[v + 1]? = some lo ∧ 0xDC00 ≤ lo.toNat ∧ lo.toNat ≤ 0xDFFF
      (x < 0x80 → writes [BitVec.ofNat 8 x] 1) ∧
      (0x80 ≤ x → x < 0x800 → writes [BitVec.ofNat 8 (192 + x / 64), BitVec.ofNat 8 (128 + x % 64)] 1) ∧
      (0xD800 ≤ x → x ≤ 0xDBFF → ∀ lo, tx[v + 1]? = some lo → 0xDC00 ≤ lo.toNat → lo.toNat ≤ 0xDFFF →
        let k := 65536 + (x - 55296) * 1024 + (lo.toNat - 56320)
        writes [BitVec.ofNat 8 (240 + k / 262144), BitVec.ofNat 8 (128 + k / 4096 % 64),
          BitVec.ofNat 8 (128 + k / 64 % 64), BitVec.ofNat 8 (128 + k % 64)] 2) ∧
      (0x800 ≤ x → (x < 0xD800 ∨ 0xDFFF < x) → writes three 1) ∧
      (0xD800 ≤ x → x ≤ 0xDFFF → ¬ (x ≤ 0xDBFF ∧ paired) →
        (s.params.loneSurrogate = .encode3 → writes three 1) ∧
        (s.params.loneSurrogate = .fault → ∃ t info, outcome (expandUnit s) = .next t ∧
          FaultTaken 3 info s t ∧ IndexInfo v info))

/-- R119, with R120 and R121 as the spec derives them: the expander writes the concatenation of the classes' bytes to
cells 0, 1, ... and no other cell, within `3 * NT` cells, and raises `InvalidUnit` at the first unpaired surrogate (an
index above 2^32-1: log 28). -/
def Obligations.ExpanderWritesTheBytes : Prop :=
  ∀ (s : State) (tx : List CodeUnit),
    match Reference.utf8 s.params.loneSurrogate tx 0 with
    | .ok bytes =>
      ∃ t, expand (writeText tx s) = .ok t ∧ (∀ i, t.req.bb.read i = bytes[i]?) ∧ t.req.v = some tx.length ∧
        t.req.c = some bytes.length ∧ bytes.length ≤ 3 * tx.length ∧ t.req.cap = some (3 * tx.length) ∧
        t.req.tx = some tx ∧ t.req.nt = some tx.length
    | .error v =>
      ∃ t info, outcome (expand (writeText tx s)) = .next t ∧ FaultTaken 3 info s t ∧ IndexInfo v info

/-- R122: on well-formed UTF-16 the expander's output is standard UTF-8. The law stands in the spec as derived; the
standard is Lean's own `String.utf8EncodeChar`. -/
def Obligations.ExpanderIsStandardUtf8 : Prop :=
  ∀ (s : State) (text : List Char),
    ∃ t, expand (writeText (text.flatMap Reference.utf16) s) = .ok t ∧
      ∀ i, t.req.bb.read i = ((text.flatMap String.utf8EncodeChar).map UInt8.toBitVec)[i]?

/-! ### SIGN -/

/-- R150 and R211: `SIGN`. The program check, `PROGA` first, then the capacity check, then the checksum of the expanded
truncated text, or `InvalidUnit` at the first unpaired surrogate (an index above 2^32-1: log 28). That a record with
more units than `N` is read up to `N` is the model's reading (log 21); a record with fewer is the subject of
`ShortRecordStops`. What request state holds afterwards is not stated (log 11). -/
def Obligations.SignRule : Prop :=
  ∀ (s : State) (n : Nat) (units : List CodeUnit), n ≤ units.length →
    ∃ t, exec (.sign n units) s = .next t ∧ t.cfgM = s.cfgM ∧ t.cfgS = s.cfgS ∧
      (∀ code info, Reference.ProgramFault 0 s.rom.progA code info → FaultTaken code info s t) ∧
      (Reference.WellFormedProgram s.rom.progA → ∀ code info,
        Reference.ProgramFault 1 s.rom.progB code info → FaultTaken code info s t) ∧
      (Reference.WellFormedProgram s.rom.progA → Reference.WellFormedProgram s.rom.progB → s.params.maxUnits < n →
        FaultTaken 5 (BitVec.ofNat 32 (min n 4294967295)) s t) ∧
      (Reference.WellFormedProgram s.rom.progA → Reference.WellFormedProgram s.rom.progB → n ≤ s.params.maxUnits →
        match Reference.utf8 s.params.loneSurrogate (Reference.truncate s.params.truncCount (units.take n)) 0 with
        | .ok bytes =>
          let p := Reference.checksum s.rom.progA s.rom.progB s.cfgM s.cfgS bytes
          let resP := p.toNat % 1000000
          let resQ := BitVec.ofNat 32 resP ^^^ s.cfgM
          Completed (.sign (BitVec.ofNat 20 resP) resQ
            (Reference.decimal resP ++ [0x2E] ++ Reference.decimal resQ.toInt)) s t
        | .error v => ∃ info, FaultTaken 3 info s t ∧ IndexInfo v info)

/-- R76, R211: the check on one program passes exactly the well-formed ones, and otherwise raises the one fault the
rule names, with its `INFO`. The order of the two programs is stated in `SignRule`. -/
def Obligations.ProgramCheckRule : Prop :=
  ∀ (x : Prog) (s : State),
    (checkProgram x s = .ok () ↔ Reference.WellFormedProgram (progBytes x s)) ∧
    ((∃ code info, Reference.ProgramFault (progNumber x) (progBytes x s) code info) ↔
      ¬ Reference.WellFormedProgram (progBytes x s)) ∧
    (∀ code info, Reference.ProgramFault (progNumber x) (progBytes x s) code info →
      ∃ t, checkProgram x s = .error (.raised t) ∧ FaultTaken code info s t)

/-- R51, R216 (log 21): a text request whose record carries fewer units than `N` reads outside `IN` and stops with a
model fault; the host's duty of R248 rules it out. -/
def Obligations.ShortRecordStops : Prop :=
  ∀ (s : State) (n : Nat) (units : List CodeUnit), units.length < n → n ≤ s.params.maxUnits →
    (Reference.WellFormedProgram s.rom.progA → Reference.WellFormedProgram s.rom.progB →
      exec (.sign n units) s = .fault (.outsideSpace .inp 0)) ∧
    exec (.md5 n units) s = .fault (.outsideSpace .inp 0)

/-- R151, R152: truncation of a text of more than 30 counted characters keeps characters `0..9`, `mid-5..mid+4` and
`L-10..L-1`, thirty of them, for either `TRUNC_COUNT`, and leaves other texts alone. That the segments do not overlap is
what the spec derives: "the three segments are disjoint and in order (`10 <= mid-5` and `mid+5 <= L-10`), so no
character is kept twice [derived: from `L >= 31`]" (R151). -/
def Obligations.TruncationKeepsThreeSegments : Prop :=
  ∀ (t : TruncCount) (units : List CodeUnit),
    truncateUnits t units = Reference.truncate t units ∧ (Reference.chars units).flatten = units ∧
      (∀ ch ∈ Reference.chars units, ch.length = 1 ∨ ch.length = 2) ∧
      ∀ l, l = (countedUnits t units).length → 30 < l →
        10 ≤ l / 2 - 5 ∧ l / 2 + 5 ≤ l - 10 ∧ (keptCharacters (countedUnits t units)).length = 30

/-- R165: `SIGN` of a text and of its truncated form respond alike. The law stands in the spec as derived from R151. -/
def Obligations.TruncationLaw : Prop :=
  ∀ (s : State) (units : List CodeUnit), units.length ≤ s.params.maxUnits →
    ∃ t t', exec (.sign units.length units) s = .next t ∧
      exec (.sign (Reference.truncate s.params.truncCount units).length
        (Reference.truncate s.params.truncCount units)) s = .next t' ∧ t'.response = t.response

/-- R162 and R161: in the result of every successful `SIGN`, `RES_P` is at most 999999, `RES_Q` is its XOR with `m`, and
`RES_Q` is negative exactly when `m` is. -/
def Obligations.SignNumbers : Prop :=
  ∀ (s t : State) (n : Nat) (units : List CodeUnit) (info : Word) (res : Result),
    exec (.sign n units) s = .next t → t.response = some { code := 0, info := info, result := res } →
      ∃ p q str, res = .sign p q str ∧ p.toNat ≤ 999999 ∧ q = p.zeroExtend 32 ^^^ s.cfgM ∧
        (0 ≤ s32 s.cfgM → 0 ≤ s32 q) ∧ (s32 s.cfgM < 0 → s32 q < 0)

/-- R164: the string of every successful `SIGN` is one to six digits, a point, an optional minus sign and digits. The
law stands in the spec as derived from R161 and R163. -/
def Obligations.SignOutputPattern : Prop :=
  ∀ (s t : State) (n : Nat) (units : List CodeUnit) (info : Word) (res : Result),
    exec (.sign n units) s = .next t → t.response = some { code := 0, info := info, result := res } →
      ∃ p q ds sg es, res = .sign p q (ds ++ [0x2E] ++ sg ++ es) ∧ Reference.IsNumber ds ∧ ds.length ≤ 6 ∧
        (sg = [] ∨ sg = [0x2D]) ∧ Reference.IsNumber es

/-- R160: the remap, by the sign bit. That it is the unsigned reading of `P` is what the spec derives: "in both cases
`U = u32(P)` [derived: from the pseudocode]" (R160). -/
def Obligations.RemapIsUnsigned : Prop :=
  ∀ (p : Word),
    (p.getLsbD 31 = true → remap p = (u32 p &&& 0x7FFFFFFF) + 0x80000000) ∧
    (p.getLsbD 31 = false → remap p = u32 p ∧ (remap p : Int) = s32 p) ∧ remap p = u32 p

/-- R166: `SIGN` depends on the text, the configuration, the programs and the parameters alone, so two states that agree
on these respond alike. The rule stands in the spec as derived from R150 and R21. -/
def Obligations.SignHasNoHiddenState : Prop :=
  ∀ (s s' t : State) (n : Nat) (units : List CodeUnit),
    s'.cfgM = s.cfgM → s'.cfgS = s.cfgS → s'.rom.progA = s.rom.progA → s'.rom.progB = s.rom.progB →
    s'.params = s.params → exec (.sign n units) s = .next t →
      ∃ t', exec (.sign n units) s' = .next t' ∧ t'.response = t.response ∧ t'.status = t.status

/-- The small steps of a `SIGN` (R131, R155, R158: one step a micro-op, and one step at each end of a program) reach
exactly the outcome of `SIGN` as one step. The granularity is the model's (log 2). -/
def Obligations.SignSmallStepsAgree : Prop :=
  ∀ (s t : State) (n : Nat) (units : List CodeUnit), s.select = none → signStart n units s = .ok t →
    ∃ k, Host.Core.run Sys2Proof.core k t = exec (.sign n units) s

/-! ### The configuration commands -/

/-- R81: `SET_SECRETS` writes both secrets and responds with status 0. -/
def Obligations.SetSecretsRule : Prop :=
  ∀ (m k : Word) (s : State),
    ∃ t, exec (.setSecrets m k) s = .next t ∧ Completed .empty s t ∧ t.cfgM = m ∧ t.cfgS = k

/-- R153: `LOAD_SECRET` loads the two numbers of a well-formed pair, and 0, 0 otherwise, without a fault. -/
def Obligations.LoadSecretRule : Prop :=
  ∀ (text : List Byte) (s : State),
    ∃ t, exec (.loadSecret text) s = .next t ∧ Completed .empty s t ∧
      (∀ m k, Reference.IsSecretPair text m k → t.cfgM.toNat = m ∧ t.cfgS.toNat = k) ∧
      ((∀ m k, ¬ Reference.IsSecretPair text m k) → t.cfgM = 0 ∧ t.cfgS = 0)

/-! ### MD5 -/

/-- R180: `MD5`. The capacity check, then the digest of the expanded normalised text, or `InvalidUnit` at the first
unpaired surrogate (an index above 2^32-1: log 28). The configuration and the programs are not looked at. That a record
with more units than `N` is read up to `N` is the model's reading (log 21); a record with fewer is the subject of
`ShortRecordStops`. -/
def Obligations.Md5Rule : Prop :=
  ∀ (s : State) (n : Nat) (units : List CodeUnit), n ≤ units.length →
    s.rom.kt = ktTable → s.rom.ks = ksTable → s.rom.iv = ivTable →
      ∃ t, exec (.md5 n units) s = .next t ∧ t.cfgM = s.cfgM ∧ t.cfgS = s.cfgS ∧
        (s.params.maxUnits < n → FaultTaken 5 (BitVec.ofNat 32 (min n 4294967295)) s t) ∧
        (n ≤ s.params.maxUnits →
          match Reference.utf8 s.params.loneSurrogate (Reference.normalise (units.take n)) 0 with
          | .ok bytes => Completed (.md5 (Reference.md5 bytes) (Reference.hex (Reference.md5 bytes))) s t
          | .error v => ∃ info, FaultTaken 3 info s t ∧ IndexInfo v info)

/-- R202: `MD5` reads no configuration register, no program and nothing an earlier request left: two states with the same
tables and parameters respond alike. -/
def Obligations.Md5ReadsTheTextAlone : Prop :=
  ∀ (s s' t : State) (n : Nat) (units : List CodeUnit),
    s.rom.kt = ktTable → s.rom.ks = ksTable → s.rom.iv = ivTable →
    s'.rom.kt = ktTable → s'.rom.ks = ksTable → s'.rom.iv = ivTable → s'.params = s.params →
    exec (.md5 n units) s = .next t →
      ∃ t', exec (.md5 n units) s' = .next t' ∧ t'.response = t.response ∧ t'.status = t.status

/-- R118: line-end normalisation of the first `N` units into `TX`, by the spec's left-to-right scan; the scan order
stands in the spec as derived. The new `BB` is all unset (log 13). -/
def Obligations.NormalisationRule : Prop :=
  ∀ (s : State) (n : Nat) (inp : List CodeUnit), s.req.n = some n → s.req.inp = some inp → n ≤ inp.length →
    normaliseInput s = .ok { s with req := { s.req with
      tx := some (Reference.normalise (inp.take n))
      nt := some (Reference.normalise (inp.take n)).length
      bb := []
      cap := some (3 * (Reference.normalise (inp.take n)).length) } }

/-- R184: the padding after `L` message bytes: the marker, the zero fill, the bit length low byte first, and the least
multiple of 64 that is at least `L + 9` as the padded length, which the spec derives: "The padded length
`L + 1 + z + 8` is the least multiple of 64 that is at least `L + 9` [derived: from the choice of `z`]" (R184). The message bytes stay. That `CAP` is the padded length from
here on is the model's choice (log 13), and that `LEN` is `L` modulo 2^64 its reading (log 25). -/
def Obligations.PaddingRule : Prop :=
  ∀ (s : State) (l : Nat), s.req.c = some l →
    ∃ t total, padMessage s = .ok t ∧ t.req.nb = some (total / 64) ∧ t.req.len = some (BitVec.ofNat 64 l) ∧
      t.req.cap = some total ∧ total % 64 = 0 ∧ l + 9 ≤ total ∧ total < l + 9 + 64 ∧
      (∀ i, i < l → t.req.bb.read i = s.req.bb.read i) ∧ t.req.bb.read l = some 0x80 ∧
      (∀ i, l < i → i < total - 8 → t.req.bb.read i = some 0) ∧
      (∀ k, k < 8 → t.req.bb.read (total - 8 + k) = some (BitVec.ofNat 8 (8 * l % 2 ^ 64 / 256 ^ k))) ∧
      (∀ i, total ≤ i → t.req.bb.read i = s.req.bb.read i)

/-- R185 with the start of a block (R195): sixteen little-endian words, the working words from `H`, and `J` = 0. -/
def Obligations.BlockLoadRule : Prop :=
  ∀ (s : State) (blk cap : Nat) (h : Quad) (bytes : Nat → Byte), s.req.cap = some cap → 64 * blk + 64 ≤ cap →
    s.req.h = some h → (∀ i, i < 64 → s.req.bb.read (64 * blk + i) = some (bytes i)) →
      ∃ x, loadBlock blk s =
          .ok { s with req := { s.req with blk := some blk, x := some x, w := some h, j := some 0 } } ∧
        x.length = 16 ∧
        ∀ k, k < 16 → ∃ w, x[k]? = some w ∧
          u32 w = (bytes (4 * k)).toNat + 256 * (bytes (4 * k + 1)).toNat + 65536 * (bytes (4 * k + 2)).toNat +
            16777216 * (bytes (4 * k + 3)).toNat

/-- R193: MD5 step `j`, in the machine's own words, with the constants of R191 and the amounts of R192 written out. `WA`,
`WB`, `WC`, `WD` and `J` are written and nothing else. That `J`, which has 6 bits, is 0 again after step 63 is the
model's reading (log 14). -/
def Obligations.Md5StepRule : Prop :=
  ∀ (s : State) (j : Nat) (w : Quad) (x : List Word), j < 64 → s.req.j = some (BitVec.ofNat 6 j) →
    s.req.w = some w → s.req.x = some x → x.length = 16 → s.rom.kt = ktTable → s.rom.ks = ksTable →
      let f := Reference.roundFn j w.b w.c w.d
      let t := w.a + f + Reference.additive.getD j 0 + x.getD (Reference.wordIndex j) 0
      let nb := w.b + t.rotateLeft (Reference.rotation j)
      md5Step s = .ok { s with req := { s.req with
        w := some { a := w.d, b := nb, c := w.b, d := w.c }, j := some (BitVec.ofNat 6 (j + 1)) } }

/-- R199, R200: `DIGEST[4 i + k]` is byte `k`, low byte first, of `H[i]`, and `RES_STR` writes each digest byte as two
lower-case hexadecimal characters, the high nibble first. -/
def Obligations.DigestRule : Prop :=
  ∀ (s : State) (q : Quad), s.req.h = some q →
    ∃ t digest str, md5Output s = .ok t ∧ t.response = some { code := 0, info := 0, result := .md5 digest str } ∧
      digest.length = 16 ∧ str.length = 32 ∧
      (∀ i k w, [q.a, q.b, q.c, q.d][i]? = some w → k < 4 →
        digest[4 * i + k]? = some (BitVec.ofNat 8 (u32 w / 256 ^ k))) ∧
      ∀ j b, digest[j]? = some b →
        str[2 * j]? = some (Reference.hexDigits.getD (b.toNat / 16) 0) ∧
        str[2 * j + 1]? = some (Reference.hexDigits.getD (b.toNat % 16) 0)

/-- R191, R192, R194, R186: the contents of `KT`, the 64 values written out from the table of R191, of `KS` and of `IV`;
the index of the message word of each step; and the rotate amounts, which repeat every four steps and lie in 4..23. That
each round reads each word once is what the spec derives: "Each round reads each of the sixteen words exactly once
[derived: 5, 3 and 7 are odd, hence units modulo 16]" (R194). -/
def Obligations.Md5Schedules : Prop :=
  (∀ j < 64, messageIndex j = if j < 16 then j else if j < 32 then (5 * j + 1) % 16
    else if j < 48 then (3 * j + 5) % 16 else 7 * j % 16) ∧
  (∀ r < 4, ((List.range' (16 * r) 16).map messageIndex).Perm (List.range 16)) ∧
  ktTable = Reference.additive ∧ ktTable.length = 64 ∧ ksTable.length = 64 ∧
  (∀ j < 64, (ksTable.getD j 0).toNat = Reference.rotation j) ∧
  (∀ j < 64, 4 ≤ Reference.rotation j ∧ Reference.rotation j ≤ 23) ∧
  State.reset.rom.kt = Reference.additive ∧ State.reset.rom.ks = ksTable ∧
  State.reset.rom.iv = [0x67452301, 0xEFCDAB89, 0x98BADCFE, 0x10325476] ∧ ivTable = State.reset.rom.iv

/-- The small steps of an `MD5` (R193, R195, R196: one step each step `J`) reach exactly the outcome of `MD5` as one step.
The granularity is the model's (log 2). -/
def Obligations.Md5SmallStepsAgree : Prop :=
  ∀ (s t : State) (n : Nat) (units : List CodeUnit), s.select = none →
    s.rom.kt = ktTable → s.rom.ks = ksTable → s.rom.iv = ivTable → md5Start n units s = .ok t →
      ∃ k, Host.Core.run Sys2Proof.core k t = exec (.md5 n units) s

/-! ### The whole machine -/

/-- What every instruction leaves alone when it answers a next state. Every instruction: the read-only stores, the
parameters, the host's later moves and the selection port; and the configuration, but for the two configuration commands
(R220). A micro-op writes `OPND`, `P` and `UPC` and nothing else, so every cell of `BB` and all other request state is as
before, or has taken `IllegalMicroOp`. A datapath operation writes the result latch and nothing else, or has taken
`ShiftRange`. A command has completed or taken one of the fault codes 1 to 6, and leaves the latch (R22, R212). The
result latch and the selection port are the model's own (log 5), and so is the list of the host's moves (log 3). -/
def Obligations.ExecFrame : Prop :=
  ∀ (i : Instr) (s t : State), exec i s = .next t →
    t.rom = s.rom ∧ t.params = s.params ∧ t.host = s.host ∧ t.select = s.select ∧
    ((∀ m k, i ≠ .setSecrets m k) → (∀ text, i ≠ .loadSecret text) → t.cfgM = s.cfgM ∧ t.cfgS = s.cfgS) ∧
    ((∃ bytes, encode i = .program bytes) →
      (∃ o p u, t = { s with req := { s.req with opnd := some o, p := some p, upc := some u } } ∧
        ∀ a, t.req.bb.read a = s.req.bb.read a) ∨
      ∃ info, FaultTaken 1 info s t) ∧
    ((∃ x, encode i = .select x) →
      (∃ w, t = { s with result := some w }) ∨ ∃ info, FaultTaken 4 info s t) ∧
    ((∃ r, encode i = .request r) → t.result = s.result ∧ t.phase = .idle ∧
      ((∃ res, Completed res s t) ∨
        ∃ code info, FaultTaken code info s t ∧ 1 ≤ code.toNat ∧ code.toNat ≤ 6))

/-- The invariant holds after reset. -/
def Obligations.ResetMeetsInv : Prop := Inv State.reset

/-- Every step keeps the invariant (R210, R82, R30, R26, R31, R32). -/
def Obligations.StepKeepsInv : Prop := ∀ s t : State, Inv s → step s = .next t → Inv t

/-- R64: the program stores are never written, by any step; nor are the constant tables (R22). That no step writes the
parameters is the model's reading (log 8). -/
def Obligations.StoresAreNeverWritten : Prop :=
  ∀ (k : Nat) (s t : State), Host.Core.run Sys2Proof.core k s = .next t → t.rom = s.rom ∧ t.params = s.params

/-- R21, R220: only reset, `SET_SECRETS` and `LOAD_SECRET` change the configuration, and only with no request in
flight. -/
def Obligations.OnlyThreeMovesConfigure : Prop :=
  ∀ (s t : State), step s = .next t → (t.cfgM ≠ s.cfgM ∨ t.cfgS ≠ s.cfgS) → s.select = none ∧ s.phase = .idle ∧
    ((∃ rest, s.host = .reset :: rest) ∨
      ∃ r rest, s.host = .submit r :: rest ∧ (r.cmd = 0x10 ∨ r.cmd = 0x11))

/-- R216, R249: a core at rest with its fixed tables, whatever its programs, driven by a host that keeps its duties,
never stops: after every number of steps it is at rest again, having made that many of the host's moves, one whole
request a step (log 2). -/
def Obligations.DutifulCoreNeverStops : Prop :=
  ∀ (k : Nat) (s : State), AtRest s → (∀ r, HostMove.submit r ∈ s.host → dutiful r) →
    ∃ t, Host.Core.run Sys2Proof.core k s = .next t ∧ AtRest t ∧ t.host = s.host.drop k

/-- R243, R240: the clean-entry record holds after reset, and again after every whole request or reset that a dutiful
host makes; and the configuration is then what the last reset or configuration request left, since the host's other
moves leave it (R245). One whole request a step, the list of moves, and the empty request state after a response are the
model's (log 2, log 3, log 11). -/
def Obligations.LaunchIsKept : Prop :=
  Launch State.reset ∧
  ∀ (k : Nat) (s : State), Launch s → (∀ r, HostMove.submit r ∈ s.host → dutiful r) →
    ∃ t, Host.Core.run Sys2Proof.core k s = .next t ∧ Launch t ∧
      ((∀ x ∈ s.host.take k, ¬ configures x) → t.cfgM = s.cfgM ∧ t.cfgS = s.cfgS)
end

