-- ==== Sys2Proof/Laws/State.lean ====
section
/-! SUPPORT. One lemma per field and named update of the state, each true by definition, and the relation "the same
outside request state" that the steps inside a request keep. -/

namespace Sys2Proof.Machine

@[simp] theorem setReq_req (s : State) (r : RequestState) : (s.setReq r).req = r := rfl
@[simp] theorem setReq_cfgM (s : State) (r : RequestState) : (s.setReq r).cfgM = s.cfgM := rfl
@[simp] theorem setReq_cfgS (s : State) (r : RequestState) : (s.setReq r).cfgS = s.cfgS := rfl
@[simp] theorem setReq_status (s : State) (r : RequestState) : (s.setReq r).status = s.status := rfl
@[simp] theorem setReq_rom (s : State) (r : RequestState) : (s.setReq r).rom = s.rom := rfl
@[simp] theorem setReq_params (s : State) (r : RequestState) : (s.setReq r).params = s.params := rfl
@[simp] theorem setReq_phase (s : State) (r : RequestState) : (s.setReq r).phase = s.phase := rfl
@[simp] theorem setReq_host (s : State) (r : RequestState) : (s.setReq r).host = s.host := rfl
@[simp] theorem setReq_response (s : State) (r : RequestState) : (s.setReq r).response = s.response := rfl
@[simp] theorem setReq_select (s : State) (r : RequestState) : (s.setReq r).select = s.select := rfl
@[simp] theorem setReq_result (s : State) (r : RequestState) : (s.setReq r).result = s.result := rfl
@[simp] theorem setReq_setReq (s : State) (q r : RequestState) : (s.setReq q).setReq r = s.setReq r := rfl
@[simp] theorem setReq_self (s : State) : s.setReq s.req = s := rfl

@[simp] theorem setResult_req (s : State) (r : Word) : (s.setResult r).req = s.req := rfl
@[simp] theorem setResult_cfgM (s : State) (r : Word) : (s.setResult r).cfgM = s.cfgM := rfl
@[simp] theorem setResult_cfgS (s : State) (r : Word) : (s.setResult r).cfgS = s.cfgS := rfl
@[simp] theorem setResult_status (s : State) (r : Word) : (s.setResult r).status = s.status := rfl
@[simp] theorem setResult_rom (s : State) (r : Word) : (s.setResult r).rom = s.rom := rfl
@[simp] theorem setResult_params (s : State) (r : Word) : (s.setResult r).params = s.params := rfl
@[simp] theorem setResult_phase (s : State) (r : Word) : (s.setResult r).phase = s.phase := rfl
@[simp] theorem setResult_host (s : State) (r : Word) : (s.setResult r).host = s.host := rfl
@[simp] theorem setResult_response (s : State) (r : Word) : (s.setResult r).response = s.response := rfl
@[simp] theorem setResult_select (s : State) (r : Word) : (s.setResult r).select = s.select := rfl
@[simp] theorem setResult_result (s : State) (r : Word) : (s.setResult r).result = some r := rfl

@[simp] theorem respond_req (x : Result) (s : State) : (respond x s).req = RequestState.empty := rfl
@[simp] theorem respond_cfgM (x : Result) (s : State) : (respond x s).cfgM = s.cfgM := rfl
@[simp] theorem respond_cfgS (x : Result) (s : State) : (respond x s).cfgS = s.cfgS := rfl
@[simp] theorem respond_status (x : Result) (s : State) : (respond x s).status = 0 := rfl
@[simp] theorem respond_rom (x : Result) (s : State) : (respond x s).rom = s.rom := rfl
@[simp] theorem respond_params (x : Result) (s : State) : (respond x s).params = s.params := rfl
@[simp] theorem respond_phase (x : Result) (s : State) : (respond x s).phase = .idle := rfl
@[simp] theorem respond_host (x : Result) (s : State) : (respond x s).host = s.host := rfl
@[simp] theorem respond_response (x : Result) (s : State) :
    (respond x s).response = some { code := 0, info := 0, result := x } := rfl
@[simp] theorem respond_select (x : Result) (s : State) : (respond x s).select = s.select := rfl
@[simp] theorem respond_result (x : Result) (s : State) : (respond x s).result = s.result := rfl

@[simp] theorem enterFault_cfgM (f : FaultCode) (i : Word) (s : State) : (enterFault f i s).cfgM = s.cfgM := rfl
@[simp] theorem enterFault_cfgS (f : FaultCode) (i : Word) (s : State) : (enterFault f i s).cfgS = s.cfgS := rfl
@[simp] theorem enterFault_status (f : FaultCode) (i : Word) (s : State) :
    (enterFault f i s).status = faultNumber f := rfl
@[simp] theorem enterFault_rom (f : FaultCode) (i : Word) (s : State) : (enterFault f i s).rom = s.rom := rfl
@[simp] theorem enterFault_params (f : FaultCode) (i : Word) (s : State) : (enterFault f i s).params = s.params := rfl
@[simp] theorem enterFault_phase (f : FaultCode) (i : Word) (s : State) : (enterFault f i s).phase = .idle := rfl
@[simp] theorem enterFault_host (f : FaultCode) (i : Word) (s : State) : (enterFault f i s).host = s.host := rfl
@[simp] theorem enterFault_response (f : FaultCode) (i : Word) (s : State) :
    (enterFault f i s).response = some { code := faultNumber f, info := i, result := .empty } := rfl
@[simp] theorem enterFault_select (f : FaultCode) (i : Word) (s : State) : (enterFault f i s).select = s.select := rfl
@[simp] theorem enterFault_result (f : FaultCode) (i : Word) (s : State) : (enterFault f i s).result = s.result := rfl
@[simp] theorem enterFault_req (f : FaultCode) (i : Word) (s : State) :
    (enterFault f i s).req = RequestState.empty := rfl
@[simp] theorem enterFault_setReq (f : FaultCode) (i : Word) (s : State) (r : RequestState) :
    enterFault f i (s.setReq r) = enterFault f i s := rfl
@[simp] theorem respond_setReq (x : Result) (s : State) (r : RequestState) :
    respond x (s.setReq r) = respond x s := rfl

@[simp] theorem writeSecrets_cfgM (m k : Word) (s : State) : (writeSecrets m k s).cfgM = m := rfl
@[simp] theorem writeSecrets_cfgS (m k : Word) (s : State) : (writeSecrets m k s).cfgS = k := rfl
@[simp] theorem writeSecrets_req (m k : Word) (s : State) : (writeSecrets m k s).req = s.req := rfl
@[simp] theorem writeSecrets_status (m k : Word) (s : State) : (writeSecrets m k s).status = s.status := rfl
@[simp] theorem writeSecrets_rom (m k : Word) (s : State) : (writeSecrets m k s).rom = s.rom := rfl
@[simp] theorem writeSecrets_params (m k : Word) (s : State) : (writeSecrets m k s).params = s.params := rfl
@[simp] theorem writeSecrets_phase (m k : Word) (s : State) : (writeSecrets m k s).phase = s.phase := rfl
@[simp] theorem writeSecrets_host (m k : Word) (s : State) : (writeSecrets m k s).host = s.host := rfl
@[simp] theorem writeSecrets_response (m k : Word) (s : State) : (writeSecrets m k s).response = s.response := rfl
@[simp] theorem writeSecrets_select (m k : Word) (s : State) : (writeSecrets m k s).select = s.select := rfl
@[simp] theorem writeSecrets_result (m k : Word) (s : State) : (writeSecrets m k s).result = s.result := rfl

theorem beginRequest_eq (cmd : Byte) (s : State) :
    beginRequest cmd s = s.setReq { RequestState.empty with cmd := some cmd } := rfl
theorem beginText_eq (cmd : Byte) (n : Nat) (units : List CodeUnit) (s : State) :
    beginText cmd n units s = s.setReq { RequestState.empty with cmd := some cmd, n := some n, inp := some units } := rfl
theorem writeText_eq (tx : List CodeUnit) (s : State) :
    writeText tx s =
      s.setReq { s.req with tx := some tx, nt := some tx.length, bb := [], cap := some (3 * tx.length) } := rfl
theorem startApply_eq (x : Prog) (r : Word) (s : State) :
    startApply x r s = s.setReq { s.req with psel := some x, p := some r, upc := some 0 } := rfl
theorem seed_eq (s : State) : seed s = s.setReq { s.req with p := some s.cfgM, bi := some 0 } := rfl

@[simp] theorem progBytes_setReq (x : Prog) (s : State) (r : RequestState) :
    progBytes x (s.setReq r) = progBytes x s := by cases x <;> rfl

/-- Two states that agree outside request state. -/
structure SameOutside (s t : State) : Prop where
  cfgM : t.cfgM = s.cfgM
  cfgS : t.cfgS = s.cfgS
  status : t.status = s.status
  rom : t.rom = s.rom
  params : t.params = s.params
  phase : t.phase = s.phase
  host : t.host = s.host
  response : t.response = s.response
  select : t.select = s.select
  result : t.result = s.result

theorem SameOutside.refl (s : State) : SameOutside s s := ⟨rfl, rfl, rfl, rfl, rfl, rfl, rfl, rfl, rfl, rfl⟩

theorem SameOutside.trans {s t u : State} (h : SameOutside s t) (k : SameOutside t u) : SameOutside s u :=
  ⟨k.cfgM.trans h.cfgM, k.cfgS.trans h.cfgS, k.status.trans h.status, k.rom.trans h.rom, k.params.trans h.params,
    k.phase.trans h.phase, k.host.trans h.host, k.response.trans h.response, k.select.trans h.select,
    k.result.trans h.result⟩

theorem SameOutside.setReq {s t : State} (h : SameOutside s t) (r : RequestState) : SameOutside s (t.setReq r) :=
  ⟨h.cfgM, h.cfgS, h.status, h.rom, h.params, h.phase, h.host, h.response, h.select, h.result⟩

theorem SameOutside.progBytes {s t : State} (h : SameOutside s t) (x : Prog) : progBytes x t = progBytes x s := by
  cases x <;> simp [Machine.progBytes, h.rom]

/-- A state is determined by what stands outside request state and by request state. -/
theorem SameOutside.eq_setReq {s t : State} (h : SameOutside s t) : t = s.setReq t.req := by
  obtain ⟨h1, h2, h3, h4, h5, h6, h7, h8, h9, h10⟩ := h
  cases s; cases t
  simp_all [State.setReq]

/-- A fault discards request state, so where it is taken inside a request does not show. -/
theorem SameOutside.enterFault {s t : State} (h : SameOutside s t) (f : FaultCode) (i : Word) :
    enterFault f i t = enterFault f i s := by
  rw [h.eq_setReq, enterFault_setReq]

end Sys2Proof.Machine
end

