-- ==== Sys2Proof/Laws/Exec.lean ====
section
/-! SUPPORT. What the reads of request state and of the spaces can answer, what an outcome can be, and what every
computation inside a request leaves alone. -/

namespace Sys2Proof.Machine

@[simp] theorem need_some {α : Type} (e : Element) (a : α) : need e (some a) = .ok a := rfl
@[simp] theorem need_none {α : Type} (e : Element) :
    need e (none : Option α) = .error (.fault (.unwrittenRead e)) := rfl

theorem need_eq_ok {α : Type} {e : Element} {x : Option α} {a : α} (h : need e x = .ok a) : x = some a := by
  cases x with
  | none => simp at h
  | some b => simpa using h

theorem memGet_eq_ok {α : Type} {sp : Space} {l : List α} {i : Nat} {a : α} (h : memGet sp l i = .ok a) :
    l[i]? = some a := by
  unfold memGet at h
  split at h
  · cases h; assumption
  · cases h

theorem memGet_of_getElem {α : Type} {sp : Space} {l : List α} {i : Nat} {a : α} (h : l[i]? = some a) :
    memGet sp l i = .ok a := by simp [memGet, h]

@[simp] theorem ok_bind {α β : Type} (a : α) (f : α → Exec β) : ((Except.ok a : Exec α) >>= f) = f a := rfl
@[simp] theorem error_bind {α β : Type} (e : Stop) (f : α → Exec β) :
    ((Except.error e : Exec α) >>= f) = .error e := rfl

/-- A sequence of two computations completes exactly when both do. -/
theorem bind_eq_ok {α β : Type} {x : Exec α} {f : α → Exec β} {b : β} :
    (x >>= f) = .ok b ↔ ∃ a, x = .ok a ∧ f a = .ok b := by
  cases x with
  | error e => simp
  | ok a => simp

/-- The `INFO` of an amount that has an `s32` reading. -/
theorem amountInfo_of_s32 {n : Int} (h0 : -2147483648 ≤ n) (h1 : n ≤ 2147483647) : amountInfo n = wrap32 n :=
  if_pos ⟨h0, h1⟩

/-- The `INFO` of an index that 32 bits hold. -/
theorem indexInfo_of_le {v : Nat} (h : v ≤ 4294967295) : indexInfo v = trunc32 v := if_pos h

@[simp] theorem outcome_ok (s : State) : outcome (.ok s) = .next s := rfl
@[simp] theorem outcome_raised (s : State) : outcome (.error (.raised s)) = .next s := rfl
@[simp] theorem outcome_fault (r : Fault) : outcome (.error (.fault r)) = .fault r := rfl

theorem outcome_eq_next {x : Exec State} {t : State} (h : outcome x = .next t) :
    x = .ok t ∨ x = .error (.raised t) := by
  match x, h with
  | .ok _, h => cases h; exact .inl rfl
  | .error (.raised _), h => cases h; exact .inr rfl

theorem outcome_ne_refused {x : Exec State} {r : Refusal} : outcome x ≠ .refused r := by
  match x with
  | .ok _ => simp
  | .error (.raised _) => simp
  | .error (.fault _) => simp

/-- Where a computation that starts in `s` can end: a fault it raises is a fault taken from `s`. -/
def RaisesFrom (s : State) {α : Type} (x : Exec α) : Prop :=
  ∀ t, x = .error (.raised t) → ∃ f info, t = enterFault f info s

/-- A computation on states that leaves everything outside request state alone. -/
def Contained (s : State) (x : Exec State) : Prop :=
  RaisesFrom s x ∧ ∀ t, x = .ok t → SameOutside s t

theorem raisesFrom_ok (s : State) {α : Type} (a : α) : RaisesFrom s (.ok a : Exec α) := by
  intro t h; cases h

theorem raisesFrom_pure (s : State) {α : Type} (a : α) : RaisesFrom s (pure a : Exec α) := raisesFrom_ok s a

theorem raisesFrom_fault (s : State) {α : Type} (r : Fault) : RaisesFrom s (.error (.fault r) : Exec α) := by
  intro t h; cases h

theorem raisesFrom_raise {s u : State} (h : SameOutside s u) {α : Type} (f : FaultCode) (i : Word) :
    RaisesFrom s (raise f i u : Exec α) := by
  intro t ht
  cases ht
  exact ⟨f, i, h.enterFault f i⟩

theorem raisesFrom_need (s : State) {α : Type} (e : Element) (x : Option α) : RaisesFrom s (need e x) := by
  cases x with
  | none => exact raisesFrom_fault s _
  | some a => exact raisesFrom_ok s a

theorem raisesFrom_memGet (s : State) {α : Type} (sp : Space) (l : List α) (i : Nat) : RaisesFrom s (memGet sp l i) := by
  unfold memGet
  split
  · exact raisesFrom_ok s _
  · exact raisesFrom_fault s _

theorem raisesFrom_memRead (s : State) {α : Type} (sp : Space) (l : List α) (i n : Nat) :
    RaisesFrom s (memRead sp l i n) := by
  unfold memRead
  split
  · exact raisesFrom_ok s _
  · exact raisesFrom_fault s _

theorem raisesFrom_bind {s : State} {α β : Type} {x : Exec α} {f : α → Exec β} (hx : RaisesFrom s x)
    (hf : ∀ a, x = .ok a → RaisesFrom s (f a)) : RaisesFrom s (x >>= f) := by
  cases x with
  | error e =>
    intro t h
    exact hx t (by simpa using h)
  | ok a => exact hf a rfl

theorem contained_ok {s t : State} (h : SameOutside s t) : Contained s (.ok t) :=
  ⟨raisesFrom_ok s t, fun u hu => by cases hu; exact h⟩

theorem contained_pure {s t : State} (h : SameOutside s t) : Contained s (pure t) := contained_ok h

theorem contained_fault (s : State) (r : Fault) : Contained s (.error (.fault r)) :=
  ⟨raisesFrom_fault s r, fun t h => by cases h⟩

theorem contained_raise {s u : State} (h : SameOutside s u) (f : FaultCode) (i : Word) :
    Contained s (raise f i u) :=
  ⟨raisesFrom_raise h f i, fun t ht => by cases ht⟩

/-- A computation that reads, then one on states. -/
theorem contained_bind {s : State} {α : Type} {x : Exec α} {f : α → Exec State} (hx : RaisesFrom s x)
    (hf : ∀ a, x = .ok a → Contained s (f a)) : Contained s (x >>= f) := by
  cases x with
  | error e =>
    refine ⟨fun t h => hx t (by simpa using h), fun t h => by simp at h⟩
  | ok a => exact hf a rfl

/-- Two computations on states, one after the other. -/
theorem Contained.bind {s : State} {x : Exec State} {f : State → Exec State} (hx : Contained s x)
    (hf : ∀ t, Contained t (f t)) : Contained s (x >>= f) := by
  refine contained_bind hx.1 fun t ht => ?_
  have hst := hx.2 t ht
  refine ⟨fun v hv => ?_, fun v hv => hst.trans ((hf t).2 v hv)⟩
  obtain ⟨g, i, rfl⟩ := (hf t).1 v hv
  exact ⟨g, i, hst.enterFault g i⟩

/-- A computation that raises no fault and stops on none answers a state. -/
theorem outcome_contained {s t : State} {x : Exec State} (h : Contained s x) (ht : outcome x = .next t) :
    x = .ok t ∧ SameOutside s t ∨ ∃ f info, t = enterFault f info s := by
  rcases outcome_eq_next ht with hx | hx
  · exact .inl ⟨hx, h.2 t hx⟩
  · exact .inr (h.1 t hx)

end Sys2Proof.Machine
end

