-- ==== Sys2Proof/Laws/Memory.lean ====
section
/-! SUPPORT. The ByteBuffer: a read after a write, what a write leaves alone, and the canonical form. -/

namespace Sys2Proof.Machine

@[simp] theorem memory_read_nil (i : Nat) : Memory.read [] i = none := rfl

theorem memory_read_write (m : Memory) (i k : Nat) (b : Byte) :
    (m.write i b).read k = if k = i then some b else m.read k := by
  induction m with
  | nil =>
    simp only [Memory.write, Memory.read]
    split <;> rename_i h <;> simp [h, eq_comm]
  | cons p rest ih =>
    obtain ⟨j, x⟩ := p
    simp only [Memory.write]
    split
    · rename_i hij
      by_cases hk : k = i
      · simp [Memory.read, hk]
      · simp [Memory.read, hk, Ne.symm hk]
    · split
      · rename_i h; subst h
        by_cases hk : k = i
        · simp [Memory.read, hk]
        · simp [Memory.read, hk, Ne.symm hk]
      · rename_i h1 h2
        simp only [Memory.read, ih]
        by_cases hk : k = i
        · have : ¬ j = k := by omega
          simp [hk, Ne.symm h2]
        · simp [hk]

/-- A read after a write to the same cell gives the byte written. -/
theorem memory_read_write_same (m : Memory) (i : Nat) (b : Byte) : (m.write i b).read i = some b := by
  simp [memory_read_write]

/-- A write leaves every other cell alone. -/
theorem memory_read_write_other (m : Memory) {i k : Nat} (b : Byte) (h : k ≠ i) : (m.write i b).read k = m.read k := by
  simp [memory_read_write, h]

theorem memory_read_writeMany (m : Memory) (i k : Nat) (bs : List Byte) :
    (m.writeMany i bs).read k = if i ≤ k ∧ k < i + bs.length then bs[k - i]? else m.read k := by
  induction bs generalizing m i with
  | nil =>
    have : ¬ (i ≤ k ∧ k < i + ([] : List Byte).length) := by simp
    rw [if_neg this]; rfl
  | cons b rest ih =>
    simp only [Memory.writeMany, ih, memory_read_write, List.length_cons]
    by_cases h1 : k = i
    · subst h1
      rw [if_neg (by omega), if_pos rfl, if_pos (by omega)]
      simp
    · by_cases h2 : i + 1 ≤ k ∧ k < i + 1 + rest.length
      · rw [if_pos h2, if_pos (by omega)]
        obtain ⟨d, rfl⟩ : ∃ d, k = i + 1 + d := ⟨k - (i + 1), by omega⟩
        have e1 : i + 1 + d - (i + 1) = d := by omega
        have e2 : i + 1 + d - i = d + 1 := by omega
        rw [e1, e2, List.getElem?_cons_succ]
      · rw [if_neg h2, if_neg h1, if_neg (by omega)]

theorem risingFrom_write {lo : Nat} {m : Memory} {i : Nat} {b : Byte} (h : Memory.risingFrom lo m = true)
    (hi : lo ≤ i) : Memory.risingFrom lo (m.write i b) = true := by
  induction m generalizing lo with
  | nil => simp [Memory.write, Memory.risingFrom, hi]
  | cons p rest ih =>
    obtain ⟨j, x⟩ := p
    simp only [Memory.risingFrom, Bool.and_eq_true, decide_eq_true_eq] at h
    simp only [Memory.write]
    split
    · rename_i hij
      simp [Memory.risingFrom, hi, h.2]; omega
    · split
      · rename_i h2; subst h2
        simp [Memory.risingFrom, hi, h.2]
      · rename_i h1 h2
        simp only [Memory.risingFrom, Bool.and_eq_true, decide_eq_true_eq]
        exact ⟨h.1, ih h.2 (by omega)⟩

/-- A write keeps the canonical form. -/
theorem memory_wf_write {m : Memory} (h : m.wf = true) (i : Nat) (b : Byte) : (m.write i b).wf = true :=
  risingFrom_write h (Nat.zero_le i)

theorem memory_wf_writeMany {m : Memory} (h : m.wf = true) (i : Nat) (bs : List Byte) :
    (m.writeMany i bs).wf = true := by
  induction bs generalizing m i with
  | nil => exact h
  | cons b rest ih => exact ih (memory_wf_write h i b) (i + 1)

theorem memory_wf_nil : Memory.wf [] = true := rfl

/-- In canonical form a cell below the first index listed is unset. -/
theorem memory_read_below {lo : Nat} {m : Memory} (h : Memory.risingFrom lo m = true) {i : Nat} (hi : i < lo) :
    m.read i = none := by
  induction m generalizing lo with
  | nil => rfl
  | cons p rest ih =>
    obtain ⟨j, x⟩ := p
    simp only [Memory.risingFrom, Bool.and_eq_true, decide_eq_true_eq] at h
    simp only [Memory.read]
    rw [if_neg (by omega)]
    exact ih h.2 (by omega)

/-- Equal reads are equal memories, in canonical form. -/
theorem memory_ext {lo : Nat} {m n : Memory} (hm : Memory.risingFrom lo m = true) (hn : Memory.risingFrom lo n = true)
    (h : ∀ i, m.read i = n.read i) : m = n := by
  induction m generalizing lo n with
  | nil =>
    cases n with
    | nil => rfl
    | cons p rest => have := h p.1; simp [Memory.read] at this
  | cons p rest ih =>
    obtain ⟨j, x⟩ := p
    cases n with
    | nil => have := h j; simp [Memory.read] at this
    | cons q rest' =>
      obtain ⟨k, y⟩ := q
      simp only [Memory.risingFrom, Bool.and_eq_true, decide_eq_true_eq] at hm hn
      have hjk : j = k := by
        rcases Nat.lt_trichotomy j k with hlt | heq | hgt
        · have := h j
          simp [Memory.read, show ¬ k = j by omega, memory_read_below hn.2 (show j < k + 1 by omega)] at this
        · exact heq
        · have := h k
          simp [Memory.read, show ¬ j = k by omega, memory_read_below hm.2 (show k < j + 1 by omega)] at this
      subst hjk
      have hxy : x = y := by
        have := h j
        simpa [Memory.read] using this
      subst hxy
      have : rest = rest' := ih hm.2 hn.2 fun i => by
        have hi := h i
        simp only [Memory.read] at hi
        by_cases hji : j = i
        · subst hji
          rw [memory_read_below hm.2 (by omega), memory_read_below hn.2 (by omega)]
        · simpa [hji] using hi
      rw [this]

/-- What a ByteBuffer write does when it completes. -/
theorem bbWrite_ok {i : Nat} {bs : List Byte} {s t : State} (h : bbWrite i bs s = .ok t) :
    ∃ cap, s.req.cap = some cap ∧ i + bs.length ≤ cap ∧
      t = s.setReq { s.req with bb := s.req.bb.writeMany i bs } := by
  unfold bbWrite at h
  obtain ⟨cap, hc, h⟩ := bind_eq_ok.1 h
  split at h
  · rename_i hle
    cases h
    exact ⟨cap, need_eq_ok hc, hle, rfl⟩
  · cases h

theorem bbWrite_of_le {i cap : Nat} {bs : List Byte} {s : State} (hc : s.req.cap = some cap)
    (h : i + bs.length ≤ cap) : bbWrite i bs s = .ok (s.setReq { s.req with bb := s.req.bb.writeMany i bs }) := by
  simp [bbWrite, hc, h, pure, Except.pure]

theorem bbWrite_contained (i : Nat) (bs : List Byte) (s : State) : Contained s (bbWrite i bs s) := by
  unfold bbWrite
  refine contained_bind (raisesFrom_need s _ _) fun cap _ => ?_
  split
  · exact contained_pure ((SameOutside.refl s).setReq _)
  · exact contained_fault s _

theorem bbGet_ok {s : State} {i cap : Nat} {b : Byte} (hc : s.req.cap = some cap) (hi : i < cap)
    (hb : s.req.bb.read i = some b) : bbGet s i = .ok b := by simp [bbGet, hc, hi, hb]

theorem bbGet_raisesFrom (s u : State) (i : Nat) : RaisesFrom s (bbGet u i) := by
  unfold bbGet
  refine raisesFrom_bind (raisesFrom_need s _ _) fun cap _ => ?_
  split
  · exact raisesFrom_need s _ _
  · exact raisesFrom_fault s _

theorem readInput_raisesFrom (s u : State) : RaisesFrom s (readInput u) :=
  raisesFrom_bind (raisesFrom_need s _ _) fun _ _ =>
    raisesFrom_bind (raisesFrom_need s _ _) fun _ _ => raisesFrom_memRead s _ _ _ _

theorem readInput_ok {s : State} {n : Nat} {units : List CodeUnit} (hn : s.req.n = some n)
    (hi : s.req.inp = some units) (h : n ≤ units.length) : readInput s = .ok (units.take n) := by
  simp [readInput, hn, hi, memRead, h]

theorem checkCapacity_raisesFrom (s : State) : RaisesFrom s (checkCapacity s) := by
  unfold checkCapacity
  refine raisesFrom_bind (raisesFrom_need s _ _) fun n _ => ?_
  split
  · exact raisesFrom_raise (SameOutside.refl s) _ _
  · exact raisesFrom_pure s _

end Sys2Proof.Machine
end

