-- ==== Sys2Proof/Laws/MicroOps.lean ====
section
/-! SUPPORT. The micro-ops and the sequencer: what one micro-op does, and that `apply` on a well-formed program is a
fold of its micro-ops over the accumulator. -/

namespace Sys2Proof.Machine

theorem amount_le {c : Byte} {n : Nat} (h : amount c = some n) : n ≤ 25 := by
  unfold amount at h
  split at h
  · cases h; omega
  · split at h
    · cases h; omega
    · cases h

/-- The shifted operand of a micro-op whose amount is in range. -/
def shiftedValue (dir : MicroDir) (p : Word) (n : Nat) : Word :=
  match dir with
  | .shl => trunc32 (u32 p <<< n)
  | .shr => wrap32 ((u32 p >>> n : Nat) : Int)

theorem shiftedOperand_ok {n : Nat} (h : n ≤ 31) (dir : MicroDir) (p : Word) (s : State) :
    shiftedOperand dir p n s = .ok (shiftedValue dir p n) := by
  cases dir
  · have : (0 : Int) ≤ n ∧ (n : Int) ≤ 31 := by omega
    simp [shiftedOperand, shiftedValue, shiftLeft, this, shiftResult]
  · have h1 : (-31 : Int) ≤ n ∧ (n : Int) ≤ 31 := by omega
    simp [shiftedOperand, shiftedValue, unsignedShiftRight, h1, shiftResult]

/-- A micro-op with a legal amount completes: `OPND`, `P` and `UPC` are written and nothing else. -/
theorem runMicroOp_ok {amt : Byte} {n : Nat} (hn : amount amt = some n) {s : State} {p : Word} {u : Nat}
    (hp : s.req.p = some p) (hu : s.req.upc = some u) (op : MicroOp) (dir : MicroDir) :
    runMicroOp op dir amt s = .ok (s.setReq { s.req with
      opnd := some (shiftedValue dir p n), p := some (combine op p (shiftedValue dir p n)), upc := some (u + 3) }) := by
  have h25 := amount_le hn
  simp [runMicroOp, amountOperand, hn, hp, hu, shiftedOperand_ok (show n ≤ 31 by omega), pure, Except.pure]

/-- A micro-op with a reserved amount raises `IllegalMicroOp` at its offset. -/
theorem runMicroOp_reserved {amt : Byte} (hn : amount amt = none) {s : State} {x : Prog} {u : Nat}
    (hx : s.req.psel = some x) (hu : s.req.upc = some u) (op : MicroOp) (dir : MicroDir) :
    runMicroOp op dir amt s = raise .illegalMicroOp (pair16 (progNumber x) u) s := by
  simp [runMicroOp, amountOperand, hn, microInfo, hx, hu, raise, pure, Except.pure]

theorem shiftedOperand_raisesFrom (dir : MicroDir) (p : Word) (n : Nat) (s : State) :
    RaisesFrom s (shiftedOperand dir p n s) := by
  have key : ∀ (r : Option Word) (k : Int), RaisesFrom s (shiftResult r k s) := by
    intro r k
    cases r with
    | none => exact raisesFrom_raise (SameOutside.refl s) _ _
    | some w => exact raisesFrom_ok s w
  cases dir <;> exact key _ _

theorem runMicroOp_contained (op : MicroOp) (dir : MicroDir) (amt : Byte) (s : State) :
    Contained s (runMicroOp op dir amt s) := by
  unfold runMicroOp
  refine contained_bind ?_ fun n _ => contained_bind (raisesFrom_need s _ _) fun p _ =>
    contained_bind (raisesFrom_need s _ _) fun u _ =>
      contained_bind (shiftedOperand_raisesFrom dir p n s) fun o _ =>
        contained_pure ((SameOutside.refl s).setReq _)
  unfold amountOperand
  split
  · exact raisesFrom_ok s _
  · refine raisesFrom_bind ?_ fun i _ => raisesFrom_raise (SameOutside.refl s) _ _
    exact raisesFrom_bind (raisesFrom_need s _ _) fun _ _ => raisesFrom_bind (raisesFrom_need s _ _) fun _ _ =>
      raisesFrom_pure s _

/-- The one fault of a micro-op is `IllegalMicroOp`: its amount is at most 25, so no shift is out of range (R133). -/
theorem runMicroOp_raised {op : MicroOp} {dir : MicroDir} {amt : Byte} {s t : State}
    (h : runMicroOp op dir amt s = .error (.raised t)) : ∃ info, t = enterFault .illegalMicroOp info s := by
  cases hn : amount amt with
  | none =>
    cases hx : s.req.psel with
    | none => simp [runMicroOp, amountOperand, hn, microInfo, hx] at h
    | some x =>
      cases hu : s.req.upc with
      | none => simp [runMicroOp, amountOperand, hn, microInfo, hx, hu] at h
      | some u =>
        rw [runMicroOp_reserved hn hx hu] at h
        cases h
        exact ⟨_, rfl⟩
  | some n =>
    cases hp : s.req.p with
    | none => simp [runMicroOp, amountOperand, hn, hp] at h
    | some p =>
      cases hu : s.req.upc with
      | none => simp [runMicroOp, amountOperand, hn, hp, hu] at h
      | some u => rw [runMicroOp_ok hn hp hu] at h; cases h

/-- What a completed micro-op wrote. -/
theorem runMicroOp_inv {op : MicroOp} {dir : MicroDir} {amt : Byte} {s t : State}
    (h : runMicroOp op dir amt s = .ok t) :
    ∃ n p u, amount amt = some n ∧ s.req.p = some p ∧ s.req.upc = some u ∧ t = s.setReq { s.req with
      opnd := some (shiftedValue dir p n), p := some (combine op p (shiftedValue dir p n)), upc := some (u + 3) } := by
  cases hn : amount amt with
  | none =>
    simp only [runMicroOp, amountOperand, hn] at h
    cases hi : microInfo s with
    | error e => simp [hi] at h
    | ok i => simp [hi, raise] at h
  | some n =>
    cases hp : s.req.p with
    | none => simp [runMicroOp, amountOperand, hn, hp] at h
    | some p =>
      cases hu : s.req.upc with
      | none => simp [runMicroOp, amountOperand, hn, hp, hu] at h
      | some u =>
        rw [runMicroOp_ok hn hp hu] at h
        cases h
        exact ⟨n, p, u, rfl, rfl, rfl, rfl⟩

theorem fetchMicroOp_raisesFrom (s u : State) : RaisesFrom s (fetchMicroOp u) := by
  unfold fetchMicroOp
  refine raisesFrom_bind (raisesFrom_need s _ _) fun x _ => raisesFrom_bind (raisesFrom_need s _ _) fun k _ => ?_
  split
  · exact raisesFrom_pure s _
  · exact raisesFrom_fault s _

theorem microStep_contained (s : State) : Contained s (microStep s) :=
  contained_bind (fetchMicroOp_raisesFrom s s) fun c _ => runMicroOp_contained _ _ c.2.2 s

theorem atProgramEnd_raisesFrom (s u : State) : RaisesFrom s (atProgramEnd u) :=
  raisesFrom_bind (raisesFrom_need s _ _) fun _ _ => raisesFrom_bind (raisesFrom_need s _ _) fun _ _ =>
    raisesFrom_pure s _

theorem sequence_contained (fuel : Nat) (s : State) : Contained s (sequence fuel s) := by
  induction fuel generalizing s with
  | zero => exact contained_ok (SameOutside.refl s)
  | succ k ih =>
    unfold sequence
    refine contained_bind (atProgramEnd_raisesFrom s s) fun b _ => ?_
    cases b
    · exact (microStep_contained s).bind ih
    · exact contained_pure (SameOutside.refl s)

theorem applyProgram_contained (x : Prog) (r : Word) (s : State) : Contained s (applyProgram x r s) := by
  unfold applyProgram
  have h : SameOutside s (startApply x r s) := (SameOutside.refl s).setReq _
  obtain ⟨h1, h2⟩ := sequence_contained (progBytes x s).length (startApply x r s)
  refine ⟨fun t ht => ?_, fun t ht => h.trans (h2 t ht)⟩
  obtain ⟨f, i, rfl⟩ := h1 t ht
  exact ⟨f, i, h.enterFault f i⟩

/-- The accumulator after the micro-ops of some program bytes. -/
def programValue (bytes : List Byte) (p : Word) : Word :=
  match bytes with
  | c0 :: c1 :: c2 :: rest =>
    programValue rest (combine (microOpOf c0) p (shiftedValue (microDirOf c1) p ((amount c2).getD 0)))
  | _ => p

/-- `OPND` after the micro-ops of some program bytes. -/
def programOperand (bytes : List Byte) (p : Word) (o : Option Word) : Option Word :=
  match bytes with
  | c0 :: c1 :: c2 :: rest =>
    let v := shiftedValue (microDirOf c1) p ((amount c2).getD 0)
    programOperand rest (combine (microOpOf c0) p v) (some v)
  | _ => o

/-- Whole micro-ops with legal amounts. -/
def legalBytes (bytes : List Byte) : Bool :=
  match bytes with
  | [] => true
  | [_] => false
  | [_, _] => false
  | _ :: _ :: c2 :: rest => (amount c2).isSome && legalBytes rest

theorem legalBytes_of_firstReserved (bytes : List Byte) :
    ∀ t, bytes.length % 3 = 0 → firstReserved bytes t = none → legalBytes bytes = true := by
  induction bytes using legalBytes.induct with
  | case1 => intros; rfl
  | case2 => intro t h; simp at h
  | case3 => intro t h; simp at h
  | case4 c0 c1 c2 rest ih =>
    intro t hl hf
    unfold firstReserved at hf
    split at hf
    · rename_i ha
      simp only [List.length_cons] at hl
      simp [legalBytes, ha, ih (t + 3) (by omega) hf]
    · cases hf

/-- The program check passes exactly non-empty whole micro-ops with legal amounts. -/
theorem legalBytes_of_programProblem {k : Nat} {bytes : List Byte} (h : programProblem k bytes = none) :
    legalBytes bytes = true := by
  unfold programProblem at h
  split at h
  · cases h
  · rename_i hl
    split at h
    · cases h
    · exact legalBytes_of_firstReserved bytes 0 (by omega) (by assumption)

/-- The sequencer on the rest of a program: every micro-op runs once, in order. -/
theorem sequence_eq (bytes : List Byte) :
    ∀ (fuel : Nat) (s : State) (x : Prog) (before : List Byte) (p : Word), legalBytes bytes = true →
      bytes.length ≤ fuel → s.req.psel = some x → s.req.upc = some before.length → s.req.p = some p →
      progBytes x s = before ++ bytes →
      sequence fuel s = .ok (s.setReq { s.req with
        opnd := programOperand bytes p s.req.opnd, p := some (programValue bytes p),
        upc := some (before.length + bytes.length) }) := by
  induction bytes using legalBytes.induct with
  | case1 =>
    intro fuel s x before p _ _ hx hu hp hb
    have hs : s.setReq { s.req with
        opnd := programOperand [] p s.req.opnd, p := some (programValue [] p),
        upc := some (before.length + ([] : List Byte).length) } = s := by
      simp only [programOperand, programValue, List.length_nil, Nat.add_zero, ← hu, ← hp]
      rfl
    rw [hs]
    cases fuel with
    | zero => rfl
    | succ k => simp [sequence, atProgramEnd, hx, hu, hb, pure, Except.pure]
  | case2 => intro fuel s x before p h; simp [legalBytes] at h
  | case3 => intro fuel s x before p h; simp [legalBytes] at h
  | case4 c0 c1 c2 rest ih =>
    intro fuel s x before p hl hf hx hu hp hb
    simp only [legalBytes, Bool.and_eq_true, Option.isSome_iff_exists] at hl
    obtain ⟨⟨n, hn⟩, hl⟩ := hl
    cases fuel with
    | zero => simp at hf
    | succ k =>
      have hend : atProgramEnd s = .ok false := by
        simp [atProgramEnd, hx, hu, hb, pure, Except.pure]
      have hfetch : fetchMicroOp s = .ok (c0, c1, c2) := by
        simp [fetchMicroOp, hx, hu, hb, pure, Except.pure]
      rw [sequence, hend]
      simp only [ok_bind, Bool.false_eq_true, if_false, microStep, hfetch, runMicroOp_ok hn hp hu]
      refine (ih k (s.setReq { s.req with
          opnd := some (shiftedValue (microDirOf c1) p n)
          p := some (combine (microOpOf c0) p (shiftedValue (microDirOf c1) p n))
          upc := some (before.length + 3) }) x (before ++ [c0, c1, c2]) _ hl
        (by simp only [List.length_cons] at hf; omega) hx (by simp) rfl (by simp [hb])).trans ?_
      have hlen : before.length + 3 + rest.length = before.length + (rest.length + 1 + 1 + 1) := by omega
      simp [programValue, programOperand, hn, hlen]

/-- `apply(x, r)` on a program that passes the check completes, and only `PSEL`, `UPC`, `P` and `OPND` are written. -/
theorem applyProgram_eq {x : Prog} {s : State} {k : Nat} (h : programProblem k (progBytes x s) = none) (r : Word) :
    applyProgram x r s = .ok (s.setReq { s.req with
      psel := some x, upc := some (progBytes x s).length, p := some (programValue (progBytes x s) r),
      opnd := programOperand (progBytes x s) r s.req.opnd }) := by
  unfold applyProgram
  rw [sequence_eq (progBytes x s) _ (startApply x r s) x [] r (legalBytes_of_programProblem h) (Nat.le_refl _) rfl rfl
    rfl (by simp [startApply_eq])]
  simp [startApply_eq]

end Sys2Proof.Machine
end

