-- ==== Sys2Proof/Laws/Expander.lean ====
section
/-! SUPPORT. The expander: what one class application does, and that the loop computes the expansion of the text as a
function of its units. -/

namespace Sys2Proof.Machine

/-- Every class consumes one unit and gives at most three bytes, or consumes a pair and gives four (R120). -/
theorem unitClass_cases {lone : LoneSurrogate} {u : CodeUnit} {next : Option CodeUnit} {bs : List Byte} {k : Nat}
    (h : unitClass lone u next = some (bs, k)) :
    (k = 1 ∧ bs.length ≤ 3) ∨ (k = 2 ∧ bs.length = 4 ∧ ∃ lo, next = some lo) := by
  unfold unitClass at h
  split at h
  · cases h; exact .inl ⟨rfl, by simp [utf8One]⟩
  · split at h
    · cases h; exact .inl ⟨rfl, by simp [utf8Two]⟩
    · split at h
      · rename_i hc
        cases h
        refine .inr ⟨rfl, by simp [utf8Four], ?_⟩
        cases next with
        | none => simp [nextIsLow] at hc
        | some lo => exact ⟨lo, rfl⟩
      · split at h
        · cases h; exact .inl ⟨rfl, by simp [utf8Three]⟩
        · cases lone with
          | fault => cases h
          | encode3 => cases h; exact .inl ⟨rfl, by simp [utf8Three]⟩

/-- The bytes the units from index `v` on expand to, or the index of the first unit without a class. -/
def expansion (lone : LoneSurrogate) (units : List CodeUnit) (v : Nat) : Except Nat (List Byte) :=
  match units with
  | [] => .ok []
  | [u] =>
    match unitClass lone u none with
    | none => .error v
    | some (bs, _) => .ok bs
  | u :: lo :: rest =>
    match unitClass lone u (some lo) with
    | none => .error v
    | some (bs, k) =>
      if k = 1 then (expansion lone (lo :: rest) (v + 1)).map (bs ++ ·)
      else (expansion lone rest (v + 2)).map (bs ++ ·)

theorem expansion_cons (lone : LoneSurrogate) (u : CodeUnit) (rest : List CodeUnit) (v : Nat) :
    expansion lone (u :: rest) v =
      match unitClass lone u rest.head? with
      | none => .error v
      | some (bs, k) => (expansion lone ((u :: rest).drop k) (v + k)).map (bs ++ ·) := by
  cases rest with
  | nil =>
    simp only [expansion, List.head?_nil]
    cases h : unitClass lone u none with
    | none => rfl
    | some r =>
      obtain ⟨bs, k⟩ := r
      rcases unitClass_cases h with ⟨rfl, _⟩ | ⟨_, _, lo, hlo⟩
      · simp [expansion, Except.map]
      · cases hlo
  | cons lo rest =>
    simp only [expansion, List.head?_cons]
    cases h : unitClass lone u (some lo) with
    | none => rfl
    | some r =>
      obtain ⟨bs, k⟩ := r
      rcases unitClass_cases h with ⟨rfl, _⟩ | ⟨rfl, _⟩ <;> rfl

theorem memory_writeMany_append (m : Memory) (i : Nat) (xs ys : List Byte) :
    m.writeMany i (xs ++ ys) = (m.writeMany i xs).writeMany (i + xs.length) ys := by
  induction xs generalizing m i with
  | nil => rfl
  | cons b rest ih =>
    simp only [List.cons_append, Memory.writeMany, ih, List.length_cons]
    congr 1
    omega

/-- One class application. -/
theorem expandUnit_eq {s : State} {v c cap k : Nat} {tx : List CodeUnit} {u : CodeUnit} {bs : List Byte}
    (hv : s.req.v = some v) (hc : s.req.c = some c) (htx : s.req.tx = some tx) (hu : tx[v]? = some u)
    (hk : unitClass s.params.loneSurrogate u tx[v + 1]? = some (bs, k)) (hcap : s.req.cap = some cap)
    (hle : c + bs.length ≤ cap) :
    expandUnit s = .ok (s.setReq { s.req with
      bb := s.req.bb.writeMany c bs, v := some (v + k), c := some (c + bs.length) }) := by
  simp [expandUnit, hv, hc, htx, memGet_of_getElem hu, hk, bbWrite_of_le hcap hle, pure, Except.pure]

/-- A unit without a class raises `InvalidUnit` with its index. -/
theorem expandUnit_raise {s : State} {v c : Nat} {tx : List CodeUnit} {u : CodeUnit}
    (hv : s.req.v = some v) (hc : s.req.c = some c) (htx : s.req.tx = some tx) (hu : tx[v]? = some u)
    (hk : unitClass s.params.loneSurrogate u tx[v + 1]? = none) :
    expandUnit s = raise .invalidUnit (indexInfo v) s := by
  simp [expandUnit, hv, hc, htx, memGet_of_getElem hu, hk]

theorem expandUnit_contained (s : State) : Contained s (expandUnit s) := by
  unfold expandUnit
  refine contained_bind (raisesFrom_need s _ _) fun v _ => contained_bind (raisesFrom_need s _ _) fun c _ =>
    contained_bind (raisesFrom_need s _ _) fun tx _ => contained_bind (raisesFrom_memGet s _ _ _) fun u _ => ?_
  split
  · exact contained_raise (SameOutside.refl s) _ _
  · exact (bbWrite_contained c _ s).bind fun t => contained_pure ((SameOutside.refl t).setReq _)

theorem expandLoop_contained (fuel : Nat) (s : State) : Contained s (expandLoop fuel s) := by
  induction fuel generalizing s with
  | zero => exact contained_ok (SameOutside.refl s)
  | succ k ih =>
    unfold expandLoop
    refine contained_bind (raisesFrom_need s _ _) fun v _ => contained_bind (raisesFrom_need s _ _) fun nt _ => ?_
    split
    · exact (expandUnit_contained s).bind ih
    · exact contained_pure (SameOutside.refl s)

theorem expand_contained (s : State) : Contained s (expand s) := by
  unfold expand
  refine contained_bind (raisesFrom_need s _ _) fun nt _ => ?_
  have h : SameOutside s (s.setReq { s.req with v := some 0, c := some 0 }) := (SameOutside.refl s).setReq _
  obtain ⟨h1, h2⟩ := expandLoop_contained nt (s.setReq { s.req with v := some 0, c := some 0 })
  refine ⟨fun t ht => ?_, fun t ht => h.trans (h2 t ht)⟩
  obtain ⟨f, i, rfl⟩ := h1 t ht
  exact ⟨f, i, h.enterFault f i⟩

/-- The loop on the units from `V` on. -/
theorem expandLoop_eq (n : Nat) :
    ∀ (units before : List CodeUnit) (fuel : Nat) (s : State) (c cap : Nat), units.length = n → n ≤ fuel →
      s.req.tx = some (before ++ units) → s.req.nt = some (before ++ units).length →
      s.req.v = some before.length → s.req.c = some c → s.req.cap = some cap → c + 3 * n ≤ cap →
      match expansion s.params.loneSurrogate units before.length with
      | .ok bs => bs.length ≤ 3 * n ∧ expandLoop fuel s = .ok (s.setReq { s.req with
          bb := s.req.bb.writeMany c bs, v := some (before ++ units).length, c := some (c + bs.length) })
      | .error k => ∃ u, SameOutside s u ∧ expandLoop fuel s = raise .invalidUnit (indexInfo k) u := by
  induction n using Nat.strong_induction_on with
  | _ n ih =>
    intro units before fuel s c cap hn hf htx hnt hv hc hcap hle
    cases units with
    | nil =>
      have hs : s.setReq { s.req with
          bb := s.req.bb.writeMany c [], v := some (before ++ []).length, c := some (c + ([] : List Byte).length) }
          = s := by
        simp only [Memory.writeMany, List.append_nil, List.length_nil, Nat.add_zero, ← hv, ← hc]
        rfl
      refine ⟨by simp, ?_⟩
      rw [hs]
      cases fuel with
      | zero => rfl
      | succ k => simp [expandLoop, hv, hnt, pure, Except.pure]
    | cons u rest =>
      simp only [List.length_cons] at hn
      cases fuel with
      | zero => omega
      | succ f =>
        have hu : (before ++ u :: rest)[before.length]? = some u := by simp
        have hnext : (before ++ u :: rest)[before.length + 1]? = rest.head? := by
          rw [List.getElem?_append_right (by omega)]
          cases rest <;> simp
        have hloop : expandLoop (f + 1) s = (expandUnit s >>= expandLoop f) := by
          simp [expandLoop, hv, hnt]
        rw [hloop, expansion_cons]
        cases hk : unitClass s.params.loneSurrogate u rest.head? with
        | none =>
          refine ⟨s, SameOutside.refl s, ?_⟩
          rw [expandUnit_raise hv hc htx hu (by rw [hnext]; exact hk)]
          rfl
        | some r =>
          obtain ⟨bs, k⟩ := r
          have hk13 : 1 ≤ k ∧ k ≤ rest.length + 1 ∧ bs.length ≤ 3 * k := by
            rcases unitClass_cases hk with ⟨rfl, h⟩ | ⟨rfl, h, lo, hlo⟩
            · omega
            · cases rest with
              | nil => cases hlo
              | cons a r => simp; omega
          obtain ⟨hk1, hk2, hk3⟩ := hk13
          rw [expandUnit_eq hv hc htx hu (by rw [hnext]; exact hk) hcap (by omega)]
          simp only [ok_bind]
          have hdrop : ((u :: rest).drop k).length = n - k := by simp; omega
          have hsplit : before ++ u :: rest = before ++ (u :: rest).take k ++ (u :: rest).drop k := by
            rw [List.append_assoc, List.take_append_drop]
          have htk : (before ++ (u :: rest).take k).length = before.length + k := by simp; omega
          have := ih (n - k) (by omega) ((u :: rest).drop k) (before ++ (u :: rest).take k) f
            (s.setReq { s.req with
              bb := s.req.bb.writeMany c bs, v := some (before.length + k), c := some (c + bs.length) })
            (c + bs.length) cap hdrop (by omega) (by rw [← hsplit]; exact htx) (by rw [← hsplit]; exact hnt)
            (by rw [htk]; rfl) rfl hcap (by omega)
          rw [htk, ← hsplit] at this
          simp only [setReq_params] at this
          cases hrest : expansion s.params.loneSurrogate ((u :: rest).drop k) (before.length + k) with
          | error e =>
            rw [hrest] at this
            obtain ⟨w, hw, he⟩ := this
            exact ⟨w, ((SameOutside.refl s).setReq _).trans hw, he⟩
          | ok bs' =>
            rw [hrest] at this
            obtain ⟨hlen, he⟩ := this
            refine ⟨by simp; omega, ?_⟩
            rw [he]
            simp [memory_writeMany_append, Nat.add_assoc]

/-- `expand TX into BB` on a text just written: the expansion, or `InvalidUnit` with the index of the first unit
without a class. -/
theorem expand_writeText (tx : List CodeUnit) (s : State) :
    match expansion s.params.loneSurrogate tx 0 with
    | .ok bs => bs.length ≤ 3 * tx.length ∧ expand (writeText tx s) = .ok ((writeText tx s).setReq
        { (writeText tx s).req with
          bb := Memory.writeMany [] 0 bs, v := some tx.length, c := some bs.length })
    | .error k => ∃ u, SameOutside s u ∧ expand (writeText tx s) = raise .invalidUnit (indexInfo k) u := by
  have h := expandLoop_eq tx.length tx [] tx.length
    ((writeText tx s).setReq { (writeText tx s).req with v := some 0, c := some 0 }) 0 (3 * tx.length) rfl
    (Nat.le_refl _) rfl rfl rfl rfl rfl (by omega)
  have he : expand (writeText tx s) = expandLoop tx.length
      ((writeText tx s).setReq { (writeText tx s).req with v := some 0, c := some 0 }) := rfl
  rw [he]
  have hp : ((writeText tx s).setReq { (writeText tx s).req with v := some 0, c := some 0 }).params = s.params := rfl
  rw [hp] at h
  simp only [List.length_nil] at h
  cases hx : expansion s.params.loneSurrogate tx 0 with
  | error k =>
    rw [hx] at h
    obtain ⟨u, hu, he'⟩ := h
    exact ⟨u, (((SameOutside.refl s).setReq _).setReq _).trans hu, he'⟩
  | ok bs =>
    rw [hx] at h
    refine ⟨h.1, ?_⟩
    rw [h.2]
    simp [writeText_eq]

/-- Cell `i` of the expanded text holds byte `i` of the expansion, and every later cell is unset (R119, R121). -/
theorem expanded_read (bs : List Byte) (i : Nat) : (Memory.writeMany [] 0 bs).read i = bs[i]? := by
  rw [memory_read_writeMany]
  by_cases h : i < bs.length
  · simp [h]
  · rw [if_neg (by omega)]
    simp at h
    simp [h]

end Sys2Proof.Machine
end

