-- ==== Sys2Proof/Laws/Checksum.lean ====
section
/-! SUPPORT. The checksum engine: what each part of `SIGN` does, that `SIGN` on an admitted text answers the checksum
as a fold over the expanded bytes, and where it raises its faults. -/

namespace Sys2Proof.Machine

theorem checkProgram_ok {x : Prog} {s : State} (h : programProblem (progNumber x) (progBytes x s) = none) :
    checkProgram x s = .ok () := by simp [checkProgram, h, pure, Except.pure]

theorem checkProgram_raise {x : Prog} {s : State} {f : FaultCode} {i : Word}
    (h : programProblem (progNumber x) (progBytes x s) = some (f, i)) : checkProgram x s = raise f i s := by
  simp [checkProgram, h]

theorem checkProgram_raisesFrom (x : Prog) (s : State) : RaisesFrom s (checkProgram x s) := by
  unfold checkProgram
  split
  · exact raisesFrom_raise (SameOutside.refl s) _ _
  · exact raisesFrom_pure s _

theorem programProblem_none_iff (j k : Nat) (bytes : List Byte) :
    programProblem j bytes = none ↔ programProblem k bytes = none := by
  unfold programProblem
  split
  · simp
  · split <;> simp

theorem checkCapacity_ok {s : State} {n : Nat} (hn : s.req.n = some n) (h : n ≤ s.params.maxUnits) :
    checkCapacity s = .ok () := by simp [checkCapacity, hn, Nat.not_lt.2 h, pure, Except.pure]

theorem checkCapacity_raise {s : State} {n : Nat} (hn : s.req.n = some n) (h : s.params.maxUnits < n) :
    checkCapacity s = raise .capacityExceeded (trunc32 (min n 4294967295)) s := by simp [checkCapacity, hn, h]

theorem beginText_same (cmd : Byte) (n : Nat) (units : List CodeUnit) (s : State) :
    SameOutside s (beginText cmd n units s) := (SameOutside.refl s).setReq _

theorem writeText_same (tx : List CodeUnit) (s : State) : SameOutside s (writeText tx s) :=
  (SameOutside.refl s).setReq _

theorem RaisesFrom.of_same {s t : State} {α : Type} {x : Exec α} (h : SameOutside s t) (hx : RaisesFrom t x) :
    RaisesFrom s x := by
  intro v hv
  obtain ⟨f, i, rfl⟩ := hx v hv
  exact ⟨f, i, h.enterFault f i⟩

theorem Contained.of_same {s t : State} {x : Exec State} (h : SameOutside s t) (hx : Contained t x) :
    Contained s x := ⟨hx.1.of_same h, fun v hv => h.trans (hx.2 v hv)⟩

theorem truncateInput_contained (s : State) : Contained s (truncateInput s) :=
  contained_bind (readInput_raisesFrom s s) fun _ _ => contained_pure ((SameOutside.refl s).setReq _)

/-- A fault of the first part of `SIGN` is taken in a state that differs from the start in request state alone. -/
theorem signStart_raisesFrom (n : Nat) (units : List CodeUnit) (s : State) : RaisesFrom s (signStart n units s) := by
  unfold signStart
  have hb := beginText_same 0x01 n units s
  refine raisesFrom_bind ((checkProgram_raisesFrom _ _).of_same hb) fun _ _ =>
    raisesFrom_bind ((checkProgram_raisesFrom _ _).of_same hb) fun _ _ =>
      raisesFrom_bind ((checkCapacity_raisesFrom _).of_same hb) fun _ _ =>
        raisesFrom_bind ((truncateInput_contained _).1.of_same hb) fun t ht => ?_
  have hst := hb.trans ((truncateInput_contained _).2 t ht)
  exact raisesFrom_bind ((expand_contained t).1.of_same hst) fun u _ => raisesFrom_pure s _

/-- The first part of `SIGN` leaves the configuration and the read-only stores, and starts the sequencer phase. -/
theorem signStart_inv {n : Nat} {units : List CodeUnit} {s t : State} (h : signStart n units s = .ok t) :
    ∃ u, SameOutside s u ∧ t = { seed u with phase := .sequencer } := by
  unfold signStart at h
  obtain ⟨_, _, h⟩ := bind_eq_ok.1 h
  obtain ⟨_, _, h⟩ := bind_eq_ok.1 h
  obtain ⟨_, _, h⟩ := bind_eq_ok.1 h
  obtain ⟨u, hu, h⟩ := bind_eq_ok.1 h
  obtain ⟨v, hv, h⟩ := bind_eq_ok.1 h
  cases h
  exact ⟨v, ((beginText_same _ _ _ _).trans ((truncateInput_contained _).2 u hu)).trans ((expand_contained u).2 v hv),
    rfl⟩

theorem nextByte_raisesFrom (s : State) : RaisesFrom s (nextByte s) :=
  raisesFrom_bind (raisesFrom_need s _ _) fun _ _ => raisesFrom_bind (raisesFrom_need s _ _) fun _ _ =>
    raisesFrom_pure s _

theorem addByte_raisesFrom (b : Byte) (s : State) : RaisesFrom s (addByte b s) :=
  raisesFrom_bind (raisesFrom_need s _ _) fun _ _ => raisesFrom_pure s _

theorem advanceByte_contained (s : State) : Contained s (advanceByte s) :=
  contained_bind (raisesFrom_need s _ _) fun _ _ => contained_pure ((SameOutside.refl s).setReq _)

theorem byteLoop_contained (fuel : Nat) (s : State) : Contained s (byteLoop fuel s) := by
  induction fuel generalizing s with
  | zero => exact contained_ok (SameOutside.refl s)
  | succ k ih =>
    unfold byteLoop
    refine contained_bind (nextByte_raisesFrom s) fun o _ => ?_
    cases o with
    | none => exact contained_pure (SameOutside.refl s)
    | some b =>
      exact contained_bind (addByte_raisesFrom b s) fun p _ =>
        (applyProgram_contained .a p s).bind fun t => (advanceByte_contained t).bind ih

/-- The accumulator after the bytes of step 4. -/
def bytesValue (progA : List Byte) (bytes : List Byte) (p : Word) : Word :=
  bytes.foldl (fun p b => programValue progA (wrappingAdd p (b.zeroExtend 32))) p

/-- The byte loop consumes exactly the bytes the expander wrote (R155, R156). -/
theorem byteLoop_eq (bytes : List Byte) (rest : List Byte) :
    ∀ (fuel i cap : Nat) (s : State) (p : Word), rest = bytes.drop i → i ≤ bytes.length → rest.length ≤ fuel →
      bytes.length ≤ cap → (∀ j, s.req.bb.read j = bytes[j]?) → s.req.bi = some i → s.req.cap = some cap →
      s.req.p = some p → programProblem 0 s.rom.progA = none →
      ∃ r, byteLoop fuel s = .ok (s.setReq r) ∧ r.p = some (bytesValue s.rom.progA rest p) ∧
        r.bi = some bytes.length ∧ r.cap = some cap ∧ r.bb = s.req.bb := by
  induction rest with
  | nil =>
    intro fuel i cap s p hr hi hf hcap hbb hbi hc hp _
    have hil : i = bytes.length := by
      have := congrArg List.length hr
      simp at this; omega
    refine ⟨s.req, ?_, hp, by rw [hbi, hil], hc, rfl⟩
    cases fuel with
    | zero => rfl
    | succ k =>
      have : nextByte s = .ok none := by
        simp [nextByte, hbi, hc, hbb, hil, pure, Except.pure]
      simp [byteLoop, this, pure, Except.pure]
  | cons b rest ih =>
    intro fuel i cap s p hr hi hf hcap hbb hbi hc hp hA
    cases fuel with
    | zero => simp at hf
    | succ k =>
      have hlen := congrArg List.length hr
      simp only [List.length_cons, List.length_drop] at hlen
      have hb : bytes[i]? = some b := by
        have := congrArg List.head? hr
        simpa [List.head?_drop] using this.symm
      have hnb : nextByte s = .ok (some b) := by
        simp [nextByte, hbi, hc, hbb, hb, show i < cap by omega, pure, Except.pure]
      have hadd : addByte b s = .ok (wrappingAdd p (b.zeroExtend 32)) := by
        simp [addByte, hp, pure, Except.pure]
      have happ := applyProgram_eq (x := .a) (s := s) (k := 0) hA (wrappingAdd p (b.zeroExtend 32))
      have hrest : rest = bytes.drop (i + 1) := by
        have := congrArg List.tail hr
        simpa [List.tail_drop] using this
      rw [byteLoop, hnb]
      simp only [ok_bind, hadd, happ]
      rw [show advanceByte _ = Except.ok (s.setReq { s.req with
          psel := some .a, upc := some (progBytes .a s).length,
          p := some (programValue (progBytes .a s) (wrappingAdd p (b.zeroExtend 32))),
          opnd := programOperand (progBytes .a s) (wrappingAdd p (b.zeroExtend 32)) s.req.opnd,
          bi := some (i + 1) }) by simp [advanceByte, hbi, pure, Except.pure]]
      simp only [ok_bind]
      obtain ⟨r, h1, h2, h3, h4, h5⟩ := ih k (i + 1) cap (s.setReq { s.req with
          psel := some .a, upc := some (progBytes .a s).length,
          p := some (programValue (progBytes .a s) (wrappingAdd p (b.zeroExtend 32))),
          opnd := programOperand (progBytes .a s) (wrappingAdd p (b.zeroExtend 32)) s.req.opnd,
          bi := some (i + 1) }) _ hrest (by omega) (by simpa using hf) hcap hbb rfl hc rfl hA
      exact ⟨r, by rw [h1]; rfl, h2, h3, h4, h5⟩

/-- The `P` that steps 3 to 6 leave, from the bytes. -/
def signValue (progA progB : List Byte) (m sec : Word) (bytes : List Byte) : Word :=
  xor32 (programValue progB (bytesValue progA bytes m)) sec

/-- The result a `SIGN` with these bytes carries. -/
def signResult (progA progB : List Byte) (m sec : Word) (bytes : List Byte) : Result :=
  let resP := signResidue (signValue progA progB m sec bytes)
  .sign resP (signSecond resP m) (signString resP (signSecond resP m))

theorem finalise_eq {s : State} {p : Word} (hp : s.req.p = some p) :
    finalise s =
      let resP := signResidue (xor32 p s.cfgS)
      let resQ := signSecond resP s.cfgM
      .ok (respond (.sign resP resQ (signString resP resQ)) s) := by
  simp [finalise, signResponse, hp, pure, Except.pure]

/-- Steps 4 to 9 on a ByteBuffer that holds `bytes`. -/
theorem signFinish_eq {s : State} {bytes : List Byte} {cap : Nat} (hbb : ∀ j, s.req.bb.read j = bytes[j]?)
    (hcap : bytes.length ≤ cap) (hc : s.req.cap = some cap) (hbi : s.req.bi = some 0) (hp : s.req.p = some s.cfgM)
    (hA : programProblem 0 s.rom.progA = none) (hB : programProblem 1 s.rom.progB = none) :
    signFinish s = .ok (respond (signResult s.rom.progA s.rom.progB s.cfgM s.cfgS bytes) s) := by
  obtain ⟨r, h1, h2, -⟩ := byteLoop_eq bytes bytes cap 0 cap s s.cfgM rfl (Nat.zero_le _) hcap hcap hbb hbi hc hp hA
  have happ := applyProgram_eq (x := .b) (s := s.setReq r) (k := 1) hB (bytesValue s.rom.progA bytes s.cfgM)
  unfold signFinish
  rw [hc]
  simp only [need_some, ok_bind, h1, setReq_req, h2, happ]
  rw [finalise_eq rfl]
  rfl

/-- The first part of `SIGN` on an admitted text. -/
theorem signStart_eq {s : State} {n : Nat} {units : List CodeUnit} {bytes : List Byte}
    (hA : programProblem 0 s.rom.progA = none) (hB : programProblem 1 s.rom.progB = none)
    (hn : n ≤ units.length) (hmax : n ≤ s.params.maxUnits)
    (hx : expansion s.params.loneSurrogate (truncateUnits s.params.truncCount (units.take n)) 0 = .ok bytes) :
    ∃ r, signStart n units s = .ok { s.setReq r with phase := .sequencer } ∧
      (∀ j, r.bb.read j = bytes[j]?) ∧ r.cap = some (3 * (truncateUnits s.params.truncCount (units.take n)).length) ∧
      bytes.length ≤ 3 * (truncateUnits s.params.truncCount (units.take n)).length ∧ r.bi = some 0 ∧ r.p = some s.cfgM ∧
      r.psel = none ∧ r.upc = none := by
  have hA' : checkProgram .a (beginText 0x01 n units s) = .ok () := checkProgram_ok hA
  have hB' : checkProgram .b (beginText 0x01 n units s) = .ok () := checkProgram_ok hB
  have hC : checkCapacity (beginText 0x01 n units s) = .ok () := checkCapacity_ok rfl hmax
  have hT : truncateInput (beginText 0x01 n units s) =
      .ok (writeText (truncateUnits s.params.truncCount (units.take n)) (beginText 0x01 n units s)) := by
    rw [truncateInput, readInput_ok rfl rfl hn]
    rfl
  have hE := expand_writeText (truncateUnits s.params.truncCount (units.take n)) (beginText 0x01 n units s)
  rw [show (beginText 0x01 n units s).params = s.params from rfl, hx] at hE
  obtain ⟨hlen, hE⟩ := hE
  unfold signStart
  simp only [hA', hB', hC, hT, hE, ok_bind]
  exact ⟨_, rfl, fun j => expanded_read bytes j, rfl, hlen, rfl, rfl, rfl, rfl⟩

/-- `SIGN` on a text whose truncated form expands to `bytes` completes with the checksum of the bytes (R150). -/
theorem execSign_eq {s : State} {n : Nat} {units : List CodeUnit} {bytes : List Byte}
    (hA : programProblem 0 s.rom.progA = none) (hB : programProblem 1 s.rom.progB = none)
    (hn : n ≤ units.length) (hmax : n ≤ s.params.maxUnits)
    (hx : expansion s.params.loneSurrogate (truncateUnits s.params.truncCount (units.take n)) 0 = .ok bytes) :
    execSign n units s =
      .next (respond (signResult s.rom.progA s.rom.progB s.cfgM s.cfgS bytes) s) := by
  obtain ⟨r, h1, hbb, hcap, hlen, hbi, hp, -⟩ := signStart_eq hA hB hn hmax hx
  have h2 := signFinish_eq (s := { s.setReq r with phase := .sequencer }) hbb hlen hcap hbi hp hA hB
  simp only [execSign, h1, ok_bind, h2, outcome_ok]
  rfl

/-- `SIGN` on a text with an unpaired surrogate in its truncated form (R116, R213). -/
theorem execSign_invalidUnit {s : State} {n : Nat} {units : List CodeUnit} {k : Nat}
    (hA : programProblem 0 s.rom.progA = none) (hB : programProblem 1 s.rom.progB = none)
    (hn : n ≤ units.length) (hmax : n ≤ s.params.maxUnits)
    (hx : expansion s.params.loneSurrogate (truncateUnits s.params.truncCount (units.take n)) 0 = .error k) :
    execSign n units s = .next (enterFault .invalidUnit (indexInfo k) s) := by
  have hA' : checkProgram .a (beginText 0x01 n units s) = .ok () := checkProgram_ok hA
  have hB' : checkProgram .b (beginText 0x01 n units s) = .ok () := checkProgram_ok hB
  have hC : checkCapacity (beginText 0x01 n units s) = .ok () := checkCapacity_ok rfl hmax
  have hT : truncateInput (beginText 0x01 n units s) =
      .ok (writeText (truncateUnits s.params.truncCount (units.take n)) (beginText 0x01 n units s)) := by
    rw [truncateInput, readInput_ok rfl rfl hn]
    rfl
  have hE := expand_writeText (truncateUnits s.params.truncCount (units.take n)) (beginText 0x01 n units s)
  rw [show (beginText 0x01 n units s).params = s.params from rfl, hx] at hE
  obtain ⟨u, hu, hE⟩ := hE
  rw [← ((beginText_same _ _ _ s).trans hu).enterFault]
  unfold execSign signStart
  simp only [hA', hB', hC, hT, hE, ok_bind]
  rfl

/-- `SIGN` refuses a program the check rejects, `PROGA` first (R211, R213). -/
theorem execSign_programA {s : State} {n : Nat} {units : List CodeUnit} {f : FaultCode} {i : Word}
    (h : programProblem 0 s.rom.progA = some (f, i)) :
    execSign n units s = .next (enterFault f i s) := by
  unfold execSign signStart
  simp only [checkProgram_raise (x := .a) (s := beginText 0x01 n units s) h]
  rfl

theorem execSign_programB {s : State} {n : Nat} {units : List CodeUnit} {f : FaultCode} {i : Word}
    (hA : programProblem 0 s.rom.progA = none) (h : programProblem 1 s.rom.progB = some (f, i)) :
    execSign n units s = .next (enterFault f i s) := by
  unfold execSign signStart
  simp only [checkProgram_ok (x := .a) (s := beginText 0x01 n units s) hA,
    checkProgram_raise (x := .b) (s := beginText 0x01 n units s) h]
  rfl

/-- `SIGN` refuses more units than `MAX_UNITS`, after the program check (R210, R213). -/
theorem execSign_capacity {s : State} {n : Nat} {units : List CodeUnit}
    (hA : programProblem 0 s.rom.progA = none) (hB : programProblem 1 s.rom.progB = none)
    (h : s.params.maxUnits < n) :
    execSign n units s =
      .next (enterFault .capacityExceeded (trunc32 (min n 4294967295)) s) := by
  unfold execSign signStart
  simp only [checkProgram_ok (x := .a) (s := beginText 0x01 n units s) hA,
    checkProgram_ok (x := .b) (s := beginText 0x01 n units s) hB,
    checkCapacity_raise (s := beginText 0x01 n units s) rfl h]
  rfl

theorem finalise_next {s t : State} (h : finalise s = .ok t) :
    ∃ p q, t = respond (.sign p q (signString p q)) s ∧ p.toNat ≤ 999999 ∧ q = signSecond p s.cfgM := by
  unfold finalise at h
  obtain ⟨p, hp, h⟩ := bind_eq_ok.1 h
  cases h
  refine ⟨_, _, rfl, ?_, rfl⟩
  have : remap (xor32 p s.cfgS) % signMod < 1000000 := Nat.mod_lt _ (by decide)
  simp only [signResidue, BitVec.toNat_ofNat]
  omega

theorem finalise_raisesFrom (s : State) : RaisesFrom s (finalise s) := by
  refine raisesFrom_bind (raisesFrom_need s _ _) fun p _ => ?_
  exact raisesFrom_ok s _

end Sys2Proof.Machine
end

