-- ==== Sys2Proof/Laws/Md5.lean ====
section
/-! SUPPORT. The MD5 engine: what each part of `MD5` does, and that `MD5` on an admitted text answers the digest as a
fold over the blocks of the padded message. -/

namespace Sys2Proof.Machine

theorem zeroFill_lt (l : Nat) : zeroFill l < 64 := by unfold zeroFill; omega

theorem padding_length (l : Nat) : (padding l).length = zeroFill l + 9 := by
  simp [padding, lengthTrailer]

/-- The padded length is a multiple of 64. -/
theorem padding_total (l : Nat) : (l + (padding l).length) % 64 = 0 := by
  rw [padding_length]
  unfold zeroFill
  omega

theorem normaliseInput_contained (s : State) : Contained s (normaliseInput s) :=
  contained_bind (readInput_raisesFrom s s) fun _ _ => contained_pure ((SameOutside.refl s).setReq _)

theorem padMessage_contained (s : State) : Contained s (padMessage s) := by
  unfold padMessage
  refine contained_bind (raisesFrom_need s _ _) fun l _ => ?_
  exact (bbWrite_contained l _ _).of_same ((SameOutside.refl s).setReq _)

theorem loadIv_contained (s : State) : Contained s (loadIv s) :=
  contained_bind (raisesFrom_memGet s _ _ _) fun _ _ => contained_bind (raisesFrom_memGet s _ _ _) fun _ _ =>
    contained_bind (raisesFrom_memGet s _ _ _) fun _ _ => contained_bind (raisesFrom_memGet s _ _ _) fun _ _ =>
      contained_pure ((SameOutside.refl s).setReq _)

/-- A fault of the first part of `MD5` is taken in a state that differs from the start in request state alone. -/
theorem md5Start_raisesFrom (n : Nat) (units : List CodeUnit) (s : State) : RaisesFrom s (md5Start n units s) := by
  unfold md5Start
  have hb := beginText_same 0x02 n units s
  refine raisesFrom_bind ((checkCapacity_raisesFrom _).of_same hb) fun _ _ =>
    raisesFrom_bind ((normaliseInput_contained _).1.of_same hb) fun t ht => ?_
  have hst := hb.trans ((normaliseInput_contained _).2 t ht)
  refine raisesFrom_bind ((expand_contained t).1.of_same hst) fun u hu => ?_
  have hsu := hst.trans ((expand_contained t).2 u hu)
  refine raisesFrom_bind ((padMessage_contained u).1.of_same hsu) fun v hv => ?_
  have hsv := hsu.trans ((padMessage_contained u).2 v hv)
  exact raisesFrom_bind ((loadIv_contained v).1.of_same hsv) fun _ _ => raisesFrom_pure s _

theorem md5Start_inv {n : Nat} {units : List CodeUnit} {s t : State} (h : md5Start n units s = .ok t) :
    ∃ u, SameOutside s u ∧ t = { u with phase := .compression } := by
  unfold md5Start at h
  obtain ⟨_, _, h⟩ := bind_eq_ok.1 h
  obtain ⟨a, ha, h⟩ := bind_eq_ok.1 h
  obtain ⟨b, hb, h⟩ := bind_eq_ok.1 h
  obtain ⟨c, hc, h⟩ := bind_eq_ok.1 h
  obtain ⟨d, hd, h⟩ := bind_eq_ok.1 h
  cases h
  exact ⟨d, ((((beginText_same _ _ _ _).trans ((normaliseInput_contained _).2 a ha)).trans
    ((expand_contained a).2 b hb)).trans ((padMessage_contained b).2 c hc)).trans ((loadIv_contained c).2 d hd), rfl⟩

theorem bbWord_raisesFrom (s u : State) (i : Nat) : RaisesFrom s (bbWord u i) :=
  raisesFrom_bind (bbGet_raisesFrom s u _) fun _ _ => raisesFrom_bind (bbGet_raisesFrom s u _) fun _ _ =>
    raisesFrom_bind (bbGet_raisesFrom s u _) fun _ _ => raisesFrom_bind (bbGet_raisesFrom s u _) fun _ _ =>
      raisesFrom_pure s _

theorem bbWords_raisesFrom (s u : State) (k i : Nat) : RaisesFrom s (bbWords u i k) := by
  induction k generalizing i with
  | zero => exact raisesFrom_pure s _
  | succ k ih =>
    exact raisesFrom_bind (bbWord_raisesFrom s u i) fun _ _ => raisesFrom_bind (ih _) fun _ _ => raisesFrom_pure s _

theorem loadBlock_contained (blk : Nat) (s : State) : Contained s (loadBlock blk s) :=
  contained_bind (bbWords_raisesFrom s s _ _) fun _ _ => contained_bind (raisesFrom_need s _ _) fun _ _ =>
    contained_pure ((SameOutside.refl s).setReq _)

theorem md5Step_contained (s : State) : Contained s (md5Step s) :=
  contained_bind (raisesFrom_need s _ _) fun _ _ => contained_bind (raisesFrom_need s _ _) fun _ _ =>
    contained_bind (raisesFrom_need s _ _) fun _ _ => contained_bind (raisesFrom_memGet s _ _ _) fun _ _ =>
      contained_bind (raisesFrom_memGet s _ _ _) fun _ _ => contained_bind (raisesFrom_memGet s _ _ _) fun _ _ =>
        contained_pure ((SameOutside.refl s).setReq _)

theorem md5Steps_contained (k : Nat) (s : State) : Contained s (md5Steps k s) := by
  induction k generalizing s with
  | zero => exact contained_ok (SameOutside.refl s)
  | succ k ih => exact (md5Step_contained s).bind ih

theorem feedForward_contained (s : State) : Contained s (feedForward s) :=
  contained_bind (raisesFrom_need s _ _) fun _ _ => contained_bind (raisesFrom_need s _ _) fun _ _ =>
    contained_pure ((SameOutside.refl s).setReq _)

theorem compress_contained (blk : Nat) (s : State) : Contained s (compress blk s) :=
  (loadBlock_contained blk s).bind fun t => (md5Steps_contained 64 t).bind feedForward_contained

theorem compressFrom_contained (blk k : Nat) (s : State) : Contained s (compressFrom blk k s) := by
  induction k generalizing blk s with
  | zero => exact contained_ok (SameOutside.refl s)
  | succ k ih => exact (compress_contained blk s).bind fun t => ih (blk + 1) t

theorem md5Output_raisesFrom (s : State) : RaisesFrom s (md5Output s) := by
  refine raisesFrom_bind (raisesFrom_need s _ _) fun h _ => ?_
  exact raisesFrom_ok s _

/-- The word at index `i` of a message. -/
def messageWord (message : List Byte) (i : Nat) : Word :=
  littleWord (message.getD i 0) (message.getD (i + 1) 0) (message.getD (i + 2) 0) (message.getD (i + 3) 0)

theorem bbGet_eq {s : State} {message : List Byte} (hbb : ∀ j, s.req.bb.read j = message[j]?)
    (hc : s.req.cap = some message.length) {i : Nat} (hi : i < message.length) :
    bbGet s i = .ok (message.getD i 0) := by
  rw [bbGet_ok hc hi (by rw [hbb, List.getElem?_eq_getElem hi])]
  simp [List.getD, List.getElem?_eq_getElem hi]

theorem bbWord_eq {s : State} {message : List Byte} (hbb : ∀ j, s.req.bb.read j = message[j]?)
    (hc : s.req.cap = some message.length) {i : Nat} (hi : i + 4 ≤ message.length) :
    bbWord s i = .ok (messageWord message i) := by
  simp [bbWord, bbGet_eq hbb hc (show i < _ by omega), bbGet_eq hbb hc (show i + 1 < _ by omega),
    bbGet_eq hbb hc (show i + 2 < _ by omega), bbGet_eq hbb hc (show i + 3 < _ by omega), messageWord, pure,
    Except.pure]

/-- `k` words of a message from index `i` on (R185). -/
def messageWords (message : List Byte) (i k : Nat) : List Word :=
  match k with
  | 0 => []
  | k + 1 => messageWord message i :: messageWords message (i + 4) k

theorem messageWords_length (message : List Byte) (i k : Nat) : (messageWords message i k).length = k := by
  induction k generalizing i with
  | zero => rfl
  | succ k ih => simp [messageWords, ih]

theorem messageWords_getElem? (message : List Byte) (i k t : Nat) (ht : t < k) :
    (messageWords message i k)[t]? = some (messageWord message (i + 4 * t)) := by
  induction k generalizing i t with
  | zero => omega
  | succ k ih =>
    cases t with
    | zero => simp [messageWords]
    | succ t =>
      simp only [messageWords, List.getElem?_cons_succ]
      rw [ih (i + 4) t (by omega)]
      congr 2
      omega

theorem bbWords_eq {s : State} {message : List Byte} (hbb : ∀ j, s.req.bb.read j = message[j]?)
    (hc : s.req.cap = some message.length) (k : Nat) :
    ∀ i, i + 4 * k ≤ message.length → bbWords s i k = .ok (messageWords message i k) := by
  induction k with
  | zero => intro i _; rfl
  | succ k ih =>
    intro i hi
    rw [bbWords, bbWord_eq hbb hc (by omega)]
    simp only [ok_bind]
    rw [ih (i + 4) (by omega)]
    rfl

theorem messageIndex_lt (j : Nat) : messageIndex j < 16 := by
  unfold messageIndex
  split
  · assumption
  · split
    · omega
    · split <;> omega

/-- The working words after step `j` with the tables of a store (R193). -/
def stepWith (rom : ReadOnlyStores) (x : List Word) (w : Quad) (j : Nat) : Quad :=
  stepWords j w (rom.kt.getD j 0) (rom.ks.getD j 0) (x.getD (messageIndex j) 0)

theorem memGet_getD {α : Type} (sp : Space) (l : List α) (d : α) {i : Nat} (h : i < l.length) :
    memGet sp l i = .ok (l.getD i d) := by
  rw [memGet_of_getElem (List.getElem?_eq_getElem h)]
  simp [List.getD, List.getElem?_eq_getElem h]

theorem md5Step_eq {s : State} {j : Nat} {w : Quad} {x : List Word} (hj : s.req.j = some (BitVec.ofNat 6 j))
    (hj64 : j < 64) (hw : s.req.w = some w) (hx : s.req.x = some x) (hx16 : x.length = 16)
    (hkt : s.rom.kt.length = 64) (hks : s.rom.ks.length = 64) :
    md5Step s = .ok (s.setReq { s.req with
      w := some (stepWith s.rom x w j), j := some (BitVec.ofNat 6 (j + 1)) }) := by
  have hjn : (BitVec.ofNat 6 j).toNat = j := by simp; omega
  have hj1 : (BitVec.ofNat 6 j) + 1 = BitVec.ofNat 6 (j + 1) := by
    apply BitVec.eq_of_toNat_eq
    simp
  simp only [md5Step, hj, hw, hx, need_some, ok_bind, hjn, hj1]
  rw [memGet_getD .kt s.rom.kt 0 (by omega), memGet_getD .ks s.rom.ks 0 (by omega),
    memGet_getD .x x 0 (by have := messageIndex_lt j; omega)]
  rfl

/-- `k` steps from step `j`. -/
theorem md5Steps_eq (k : Nat) :
    ∀ (s : State) (j : Nat) (w : Quad) (x : List Word), s.req.j = some (BitVec.ofNat 6 j) → j + k ≤ 64 →
      s.req.w = some w → s.req.x = some x → x.length = 16 → s.rom.kt.length = 64 → s.rom.ks.length = 64 →
      md5Steps k s = .ok (s.setReq { s.req with
        w := some ((List.range' j k).foldl (stepWith s.rom x) w), j := some (BitVec.ofNat 6 (j + k)) }) := by
  induction k with
  | zero =>
    intro s j w x hj _ hw hx _ _ _
    simp only [md5Steps, List.range'_zero, List.foldl_nil, Nat.add_zero, ← hj, ← hw]
    rfl
  | succ k ih =>
    intro s j w x hj hjk hw hx hx16 hkt hks
    rw [md5Steps, md5Step_eq hj (by omega) hw hx hx16 hkt hks]
    simp only [ok_bind]
    rw [ih (s.setReq { s.req with w := some (stepWith s.rom x w j), j := some (BitVec.ofNat 6 (j + 1)) }) (j + 1)
      (stepWith s.rom x w j) x rfl (by omega) rfl hx hx16 hkt hks]
    simp [List.range'_succ, Nat.add_assoc, Nat.add_comm 1 k]

/-- The chaining words after the block at index `base` of a message (R195). -/
def blockWith (rom : ReadOnlyStores) (message : List Byte) (h : Quad) (base : Nat) : Quad :=
  addQuad h ((List.range' 0 64).foldl (stepWith rom (messageWords message base 16)) h)

theorem loadBlock_eq {s : State} {message : List Byte} {h : Quad} (hbb : ∀ j, s.req.bb.read j = message[j]?)
    (hc : s.req.cap = some message.length) (hh : s.req.h = some h) {blk : Nat}
    (hi : 64 * blk + 64 ≤ message.length) :
    loadBlock blk s = .ok (s.setReq { s.req with
      blk := some blk, x := some (messageWords message (64 * blk) 16), w := some h, j := some 0 }) := by
  rw [loadBlock, show md5Block = 64 from rfl, bbWords_eq hbb hc 16 _ (by omega)]
  simp [hh, pure, Except.pure]

theorem compress_eq {s : State} {message : List Byte} {h : Quad} (hbb : ∀ j, s.req.bb.read j = message[j]?)
    (hc : s.req.cap = some message.length) (hh : s.req.h = some h) {blk : Nat}
    (hi : 64 * blk + 64 ≤ message.length) (hkt : s.rom.kt.length = 64) (hks : s.rom.ks.length = 64) :
    ∃ r, compress blk s = .ok (s.setReq r) ∧ r.h = some (blockWith s.rom message h (64 * blk)) ∧
      r.bb = s.req.bb ∧ r.cap = s.req.cap ∧ r.nb = s.req.nb := by
  rw [compress, loadBlock_eq hbb hc hh hi]
  simp only [ok_bind]
  have hsteps := md5Steps_eq 64 (s.setReq { s.req with
      blk := some blk, x := some (messageWords message (64 * blk) 16), w := some h, j := some 0 }) 0 h
    (messageWords message (64 * blk) 16) rfl (by omega) rfl rfl (messageWords_length _ _ _) hkt hks
  refine ⟨{ s.req with
      blk := some blk
      x := some (messageWords message (64 * blk) 16)
      w := some ((List.range' 0 64).foldl (stepWith s.rom (messageWords message (64 * blk) 16)) h)
      j := some (BitVec.ofNat 6 (0 + 64))
      h := some (blockWith s.rom message h (64 * blk)) }, ?_, rfl, rfl, rfl, rfl⟩
  rw [hsteps]
  simp only [ok_bind, feedForward, setReq_req, hh, need_some]
  rfl

/-- The blocks are compressed in order (R196). -/
theorem compressFrom_eq (k : Nat) :
    ∀ {s : State} {message : List Byte} {h0 : Quad} {blk : Nat}, (∀ j, s.req.bb.read j = message[j]?) →
      s.req.cap = some message.length → s.req.h = some h0 → 64 * (blk + k) ≤ message.length →
      s.rom.kt.length = 64 → s.rom.ks.length = 64 →
      ∃ r, compressFrom blk k s = .ok (s.setReq r) ∧
        r.h = some ((List.range' blk k).foldl (fun h b => blockWith s.rom message h (64 * b)) h0) := by
  induction k with
  | zero => intro s message h blk _ _ hh _ _ _; exact ⟨s.req, rfl, hh⟩
  | succ k ih =>
    intro s message h blk hbb hc hh hi hkt hks
    obtain ⟨r, h1, h2, h3, h4, -⟩ := compress_eq hbb hc hh (blk := blk) (by omega) hkt hks
    obtain ⟨r', h5, h6⟩ := ih (s := s.setReq r) (message := message) (blk := blk + 1)
      (by intro j; rw [setReq_req, h3]; exact hbb j) (by rw [setReq_req, h4]; exact hc) h2 (by omega) hkt hks
    refine ⟨r', ?_, ?_⟩
    · rw [compressFrom, h1]
      exact h5
    · rw [h6, List.range'_succ]
      rfl

/-- The padded message (R184). -/
def paddedMessage (bytes : List Byte) : List Byte := bytes ++ padding bytes.length

/-- The digest of a byte string with the tables of a store (R180-R199). -/
def digestWith (rom : ReadOnlyStores) (iv : Quad) (bytes : List Byte) : List Byte :=
  digestBytes ((List.range' 0 ((paddedMessage bytes).length / 64)).foldl
    (fun h b => blockWith rom (paddedMessage bytes) h (64 * b)) iv)

theorem loadIv_eq {s : State} {a b c d : Word} (h : s.rom.iv = [a, b, c, d]) :
    loadIv s = .ok (s.setReq { s.req with h := some { a := a, b := b, c := c, d := d } }) := by
  simp [loadIv, h, memGet, pure, Except.pure]

/-- The first part of `MD5` on an admitted text. -/
theorem md5Start_eq {s : State} {n : Nat} {units : List CodeUnit} {bytes : List Byte} {a b c d : Word}
    (hn : n ≤ units.length) (hmax : n ≤ s.params.maxUnits) (hiv : s.rom.iv = [a, b, c, d])
    (hx : expansion s.params.loneSurrogate (normaliseUnits (units.take n)) 0 = .ok bytes) :
    ∃ r, md5Start n units s = .ok { s.setReq r with phase := .compression } ∧
      (∀ j, r.bb.read j = (paddedMessage bytes)[j]?) ∧ r.cap = some (paddedMessage bytes).length ∧
      r.h = some { a := a, b := b, c := c, d := d } ∧ r.nb = some ((paddedMessage bytes).length / 64) ∧
      r.j = none ∧ r.bb = Memory.writeMany [] 0 (paddedMessage bytes) := by
  have hC : checkCapacity (beginText 0x02 n units s) = .ok () := checkCapacity_ok rfl hmax
  have hT : normaliseInput (beginText 0x02 n units s) =
      .ok (writeText (normaliseUnits (units.take n)) (beginText 0x02 n units s)) := by
    rw [normaliseInput, readInput_ok rfl rfl hn]
    rfl
  have hE := expand_writeText (normaliseUnits (units.take n)) (beginText 0x02 n units s)
  rw [show (beginText 0x02 n units s).params = s.params from rfl, hx] at hE
  obtain ⟨-, hE⟩ := hE
  have hlen : (paddedMessage bytes).length = bytes.length + (padding bytes.length).length := by
    simp [paddedMessage]
  have hw : Memory.writeMany (Memory.writeMany [] 0 bytes) bytes.length (padding bytes.length) =
      Memory.writeMany [] 0 (paddedMessage bytes) := by
    rw [paddedMessage, memory_writeMany_append, Nat.zero_add]
  unfold md5Start
  simp only [hC, hT, hE, ok_bind, padMessage, setReq_req, need_some]
  rw [bbWrite_of_le (cap := bytes.length + (padding bytes.length).length) rfl (Nat.le_refl _)]
  simp only [ok_bind]
  rw [loadIv_eq (a := a) (b := b) (c := c) (d := d) ?_]
  rotate_left
  · exact hiv
  refine ⟨_, rfl, fun j => ?_, ?_, rfl, ?_, rfl, ?_⟩
  · simp only [setReq_req]
    rw [hw]
    exact expanded_read _ j
  · simp [hlen]
  · simp [hlen, md5Block]
  · simp [hw]

theorem md5Output_eq {s : State} {h : Quad} (hh : s.req.h = some h) :
    md5Output s = .ok (respond (.md5 (digestBytes h) (hexString (digestBytes h))) s) := by
  simp [md5Output, md5Response, hh, pure, Except.pure]

/-- `MD5` on a text whose normalised form expands to `bytes` completes with the digest of the bytes (R180). -/
theorem execMd5_eq {s : State} {n : Nat} {units : List CodeUnit} {bytes : List Byte} {a b c d : Word}
    (hn : n ≤ units.length) (hmax : n ≤ s.params.maxUnits) (hiv : s.rom.iv = [a, b, c, d])
    (hkt : s.rom.kt.length = 64) (hks : s.rom.ks.length = 64)
    (hx : expansion s.params.loneSurrogate (normaliseUnits (units.take n)) 0 = .ok bytes) :
    execMd5 n units s =
      .next (respond (.md5 (digestWith s.rom { a := a, b := b, c := c, d := d } bytes)
        (hexString (digestWith s.rom { a := a, b := b, c := c, d := d } bytes))) s) := by
  obtain ⟨r, h1, hbb, hcap, hh, hnb, -⟩ := md5Start_eq hn hmax hiv hx
  have hmod : 64 * ((paddedMessage bytes).length / 64) ≤ (paddedMessage bytes).length := Nat.mul_div_le _ _
  obtain ⟨r', h2, h3⟩ := compressFrom_eq ((paddedMessage bytes).length / 64)
    (s := { s.setReq r with phase := .compression }) (message := paddedMessage bytes) (blk := 0) hbb hcap hh
    (by omega) hkt hks
  have h4 := md5Output_eq (s := State.setReq { s.setReq r with phase := .compression } r') h3
  have hfin : md5Finish { s.setReq r with phase := .compression } =
      md5Output (State.setReq { s.setReq r with phase := .compression } r') := by
    unfold md5Finish
    rw [show ({ s.setReq r with phase := Phase.compression } : State).req.nb =
      some ((paddedMessage bytes).length / 64) from hnb]
    simp only [need_some, ok_bind, h2]
  simp only [execMd5, h1, ok_bind, hfin, h4, outcome_ok]
  rfl

/-- `MD5` on a text with an unpaired surrogate in its normalised form (R116, R213). -/
theorem execMd5_invalidUnit {s : State} {n : Nat} {units : List CodeUnit} {k : Nat}
    (hn : n ≤ units.length) (hmax : n ≤ s.params.maxUnits)
    (hx : expansion s.params.loneSurrogate (normaliseUnits (units.take n)) 0 = .error k) :
    execMd5 n units s = .next (enterFault .invalidUnit (indexInfo k) s) := by
  have hC : checkCapacity (beginText 0x02 n units s) = .ok () := checkCapacity_ok rfl hmax
  have hT : normaliseInput (beginText 0x02 n units s) =
      .ok (writeText (normaliseUnits (units.take n)) (beginText 0x02 n units s)) := by
    rw [normaliseInput, readInput_ok rfl rfl hn]
    rfl
  have hE := expand_writeText (normaliseUnits (units.take n)) (beginText 0x02 n units s)
  rw [show (beginText 0x02 n units s).params = s.params from rfl, hx] at hE
  obtain ⟨u, hu, hE⟩ := hE
  rw [← ((beginText_same _ _ _ s).trans hu).enterFault]
  unfold execMd5 md5Start
  simp only [hC, hT, hE, ok_bind]
  rfl

/-- `MD5` refuses more units than `MAX_UNITS` before anything else (R210, R213). -/
theorem execMd5_capacity {s : State} {n : Nat} {units : List CodeUnit} (h : s.params.maxUnits < n) :
    execMd5 n units s =
      .next (enterFault .capacityExceeded (trunc32 (min n 4294967295)) s) := by
  unfold execMd5 md5Start
  simp only [checkCapacity_raise (s := beginText 0x02 n units s) rfl h]
  rfl

end Sys2Proof.Machine
end

