-- ==== Sys2Proof/Laws/PerInstr.lean ====
section
/-! SUPPORT. Facts about each instruction as syntax, one lemma per constructor: the encoding carries the width and the
fixed bits of the instruction's row of spec/opcode_table.json. -/

namespace Sys2Proof.Laws.RowBits

open Sys2Proof

/-- The width of an encoded instruction and its bits, numbered as the table numbers them. -/
def bits (e : Encoded) : Option (Nat × Nat) :=
  match e with
  | .program [c0, c1, c2] => some (24, (c0 ++ c1 ++ c2 : BitVec 24).toNat)
  | .program _ => none
  | .request r => some (8, r.cmd.toNat)
  | .select x => some (4, x.sel.toNat)

/-- The encoding has the width `n` and the masked value `fixed`. -/
def Carries (e : Encoded) (n mask fixed : Nat) : Prop := ∃ w, bits e = some (n, w) ∧ w &&& mask = fixed

/-- The fixed bits of the instruction's row. `xor.shl` has none in the table; its canonical bytes are those of
30_encoding.md R74. -/
def Statement (i : Instr) : Prop :=
  match i with
  | .addShr _ => Carries (encode i) 24 0xFFFF00 0x2B2B00
  | .addShl _ => Carries (encode i) 24 0xFFFF00 0x2B2D00
  | .xorShr _ => Carries (encode i) 24 0xFFFF00 0x5E2B00
  | .xorShl _ => Carries (encode i) 24 0xFFFF00 0x5E2D00
  | .sign _ _ => Carries (encode i) 8 0xFF 0x01
  | .md5 _ _ => Carries (encode i) 8 0xFF 0x02
  | .setSecrets _ _ => Carries (encode i) 8 0xFF 0x10
  | .loadSecret _ => Carries (encode i) 8 0xFF 0x11
  | .wadd _ _ => Carries (encode i) 4 0xF 0x0
  | .xor _ _ => Carries (encode i) 4 0xF 0x1
  | .shl _ _ => Carries (encode i) 4 0xF 0x2
  | .ushr _ _ => Carries (encode i) 4 0xF 0x3
  | .rotl _ _ => Carries (encode i) 4 0xF 0x4
  | .and _ _ => Carries (encode i) 4 0xF 0x5
  | .or _ _ => Carries (encode i) 4 0xF 0x6
  | .not _ => Carries (encode i) 4 0xF 0x7
  | .md5F _ _ _ => Carries (encode i) 4 0xF 0x8
  | .md5G _ _ _ => Carries (encode i) 4 0xF 0x9
  | .md5H _ _ _ => Carries (encode i) 4 0xF 0xA
  | .md5I _ _ _ => Carries (encode i) 4 0xF 0xB

/-- The fixed bits of three program bytes are the first two bytes. -/
theorem carries_program (c0 c1 amt : Byte) :
    Carries (.program [c0, c1, amt]) 24 0xFFFF00 ((c0 ++ c1 ++ (0 : Byte) : BitVec 24).toNat) := by
  refine ⟨_, rfl, ?_⟩
  have h : (c0 ++ c1 ++ amt : BitVec 24) &&& 0xFFFF00#24 = c0 ++ c1 ++ (0 : Byte) := by
    ext k hk
    simp only [BitVec.getElem_and, BitVec.getElem_append]
    by_cases h8 : k < 8
    · simp only [h8, dite_true]
      interval_cases k <;> simp
    · by_cases h16 : k < 16
      · simp only [h8, dite_false]
        interval_cases k <;> simp
      · simp only [h8, dite_false]
        interval_cases k <;> simp
  exact congrArg BitVec.toNat h

theorem addShr (amt : Byte) : Statement (.addShr amt) := carries_program 0x2B 0x2B amt
theorem addShl (amt : Byte) : Statement (.addShl amt) := carries_program 0x2B 0x2D amt
theorem xorShr (amt : Byte) : Statement (.xorShr amt) := carries_program 0x5E 0x2B amt
theorem xorShl (amt : Byte) : Statement (.xorShl amt) := carries_program 0x5E 0x2D amt
theorem sign (n : Nat) (units : List CodeUnit) : Statement (.sign n units) := ⟨_, rfl, by simp⟩
theorem md5 (n : Nat) (units : List CodeUnit) : Statement (.md5 n units) := ⟨_, rfl, by simp⟩
theorem setSecrets (m sec : Word) : Statement (.setSecrets m sec) := ⟨_, rfl, by simp⟩
theorem loadSecret (text : List Byte) : Statement (.loadSecret text) := ⟨_, rfl, by simp⟩
theorem wadd (a b : Word) : Statement (.wadd a b) := ⟨_, rfl, by simp⟩
theorem xor (a b : Word) : Statement (.xor a b) := ⟨_, rfl, by simp⟩
theorem shl (a : Word) (n : Int) : Statement (.shl a n) := ⟨_, rfl, by simp⟩
theorem ushr (a : Word) (n : Int) : Statement (.ushr a n) := ⟨_, rfl, by simp⟩
theorem rotl (a : Word) (n : Int) : Statement (.rotl a n) := ⟨_, rfl, by simp⟩
theorem and (a b : Word) : Statement (.and a b) := ⟨_, rfl, by simp⟩
theorem or (a b : Word) : Statement (.or a b) := ⟨_, rfl, by simp⟩
theorem not (a : Word) : Statement (.not a) := ⟨_, rfl, by simp⟩
theorem md5F (x y z : Word) : Statement (.md5F x y z) := ⟨_, rfl, by simp⟩
theorem md5G (x y z : Word) : Statement (.md5G x y z) := ⟨_, rfl, by simp⟩
theorem md5H (x y z : Word) : Statement (.md5H x y z) := ⟨_, rfl, by simp⟩
theorem md5I (x y z : Word) : Statement (.md5I x y z) := ⟨_, rfl, by simp⟩

end Sys2Proof.Laws.RowBits
end

