-- ==== Sys2Proof/Laws/Step.lean ====
section
/-! SUPPORT. What an instruction, a turn and a step can do, said once: if one answers a next state, that state is one of
the listed forms. With the laws of `run`. -/

namespace Sys2Proof.Machine

open Sys2Proof.Safety

/-- A fault taken inside a request is a fault taken from the state before. -/
theorem faultTaken_enterFault (f : FaultCode) (i : Word) (s : State) :
    FaultTaken (faultNumber f) i s (enterFault f i s) :=
  ⟨rfl, rfl, rfl, rfl, rfl, rfl, rfl, rfl, rfl, rfl, rfl, rfl, rfl, rfl⟩

theorem completed_respond (res : Result) (s : State) : Completed res s (respond res s) :=
  ⟨rfl, rfl, rfl, rfl, rfl, rfl, rfl, rfl⟩

theorem hexString_length (bs : List Byte) : (hexString bs).length = 2 * bs.length := by
  induction bs with
  | nil => rfl
  | cons b rest ih =>
    simp only [hexString, List.length_cons, ih]
    omega

theorem digestBytes_length (q : Quad) : (digestBytes q).length = 16 := by simp [digestBytes, wordBytes]

theorem resultForm_md5 (q : Quad) : ResultForm (.md5 (digestBytes q) (hexString (digestBytes q))) :=
  ⟨digestBytes_length q, by rw [hexString_length, digestBytes_length]⟩

/-- What the end of an `MD5` answers. -/
theorem md5Output_next {s t : State} (h : md5Output s = .ok t) :
    ∃ q, t = respond (.md5 (digestBytes q) (hexString (digestBytes q))) s := by
  unfold md5Output at h
  obtain ⟨q, -, h⟩ := bind_eq_ok.1 h
  cases h
  exact ⟨q, rfl⟩

/-- `MD5` answers a fault taken from the state before, or a response on it. -/
theorem execMd5_next {s t : State} {n : Nat} {units : List CodeUnit} (h : execMd5 n units s = .next t) :
    (∃ f i, t = enterFault f i s) ∨ ∃ res, t = respond res s ∧ ResultForm res := by
  unfold execMd5 at h
  rcases outcome_eq_next h with hx | hx
  · obtain ⟨u, hu, hx⟩ := bind_eq_ok.1 hx
    obtain ⟨v, hv, rfl⟩ := md5Start_inv hu
    obtain ⟨nb, -, hx⟩ := bind_eq_ok.1 hx
    obtain ⟨w, hw, hx⟩ := bind_eq_ok.1 hx
    obtain ⟨q, rfl⟩ := md5Output_next hx
    refine .inr ⟨_, ?_, resultForm_md5 q⟩
    rw [((compressFrom_contained _ _ _).2 _ hw).eq_setReq, respond_setReq, hv.eq_setReq]
    rfl
  · left
    cases hu : md5Start n units s with
    | error e =>
      rw [hu] at hx
      cases hx
      exact md5Start_raisesFrom n units s _ hu
    | ok u =>
      rw [hu] at hx
      obtain ⟨v, hv, rfl⟩ := md5Start_inv hu
      have hr : RaisesFrom { v with phase := .compression } (md5Finish { v with phase := .compression }) := by
        refine raisesFrom_bind (raisesFrom_need _ _ _) fun nb _ => ?_
        refine raisesFrom_bind (compressFrom_contained _ _ _).1 fun w hw => ?_
        exact (md5Output_raisesFrom w).of_same ((compressFrom_contained _ _ _).2 _ hw)
      obtain ⟨f, i, rfl⟩ := hr t hx
      exact ⟨f, i, by rw [hv.eq_setReq]; rfl⟩

/-- `SIGN` answers a fault taken from the state before, or a response on it. -/
theorem execSign_next {s t : State} {n : Nat} {units : List CodeUnit} (h : execSign n units s = .next t) :
    (∃ f i, t = enterFault f i s) ∨ ∃ res, t = respond res s ∧ ResultForm res := by
  unfold execSign at h
  rcases outcome_eq_next h with hx | hx
  · obtain ⟨u, hu, hx⟩ := bind_eq_ok.1 hx
    obtain ⟨v, hv, rfl⟩ := signStart_inv hu
    obtain ⟨cap, -, hx⟩ := bind_eq_ok.1 hx
    obtain ⟨w, hw, hx⟩ := bind_eq_ok.1 hx
    obtain ⟨p, -, hx⟩ := bind_eq_ok.1 hx
    obtain ⟨x, hx', hx⟩ := bind_eq_ok.1 hx
    obtain ⟨a, b, rfl, ha, -⟩ := finalise_next hx
    refine .inr ⟨.sign a b (signString a b), ?_, ha⟩
    rw [(((byteLoop_contained _ _).2 _ hw).trans ((applyProgram_contained _ _ _).2 _ hx')).eq_setReq, respond_setReq,
      hv.eq_setReq]
    rfl
  · left
    cases hu : signStart n units s with
    | error e =>
      rw [hu] at hx
      cases hx
      exact signStart_raisesFrom n units s _ hu
    | ok u =>
      rw [hu] at hx
      obtain ⟨v, hv, rfl⟩ := signStart_inv hu
      have hr : RaisesFrom { seed v with phase := .sequencer } (signFinish { seed v with phase := .sequencer }) := by
        refine raisesFrom_bind (raisesFrom_need _ _ _) fun cap _ => ?_
        refine raisesFrom_bind (byteLoop_contained _ _).1 fun w hw => ?_
        have h1 := (byteLoop_contained _ _).2 _ hw
        refine raisesFrom_bind (raisesFrom_need _ _ _) fun p _ => ?_
        refine raisesFrom_bind ((applyProgram_contained _ _ _).1.of_same h1) fun x hx' => ?_
        exact (finalise_raisesFrom x).of_same (h1.trans ((applyProgram_contained _ _ _).2 _ hx'))
      obtain ⟨f, i, rfl⟩ := hr t hx
      exact ⟨f, i, by rw [hv.eq_setReq]; rfl⟩

theorem faultNumber_range (f : FaultCode) : 1 ≤ (faultNumber f).toNat ∧ (faultNumber f).toNat ≤ 6 := by
  cases f <;> decide

/-- How an instruction that answers a next state ends: the one fault of a micro-op, of a shift, or a fault of a text
command taken; a micro-op completed, a result latched, a text command completed, or the configuration written. -/
inductive Ends (i : Instr) (s : State) : State → Prop
  | illegal (info : Word) (h : ∃ b, encode i = .program b) : Ends i s (enterFault .illegalMicroOp info s)
  | range (info : Word) (h : ∃ x, encode i = .select x) : Ends i s (enterFault .shiftRange info s)
  | fault (f : FaultCode) (info : Word) (h : (∃ n u, i = .sign n u) ∨ ∃ n u, i = .md5 n u) :
      Ends i s (enterFault f info s)
  | micro (o p : Word) (u : Nat) (h : ∃ b, encode i = .program b) (hu : s.req.upc = some u) :
      Ends i s (s.setReq { s.req with opnd := some o, p := some p, upc := some (u + 3) })
  | latch (w : Word) (h : ∃ x, encode i = .select x) : Ends i s (s.setResult w)
  | text (res : Result) (h : (∃ n u, i = .sign n u) ∨ ∃ n u, i = .md5 n u) (hr : ResultForm res) :
      Ends i s (respond res s)
  | config (m k : Word) (h : (∃ m k, i = .setSecrets m k) ∨ ∃ text, i = .loadSecret text) :
      Ends i s (respond .empty (writeSecrets m k s))

theorem ends_micro {i : Instr} {op : MicroOp} {dir : MicroDir} {amt : Byte} {s t : State}
    (hi : ∃ b, encode i = .program b) (h : outcome (runMicroOp op dir amt s) = .next t) : Ends i s t := by
  rcases outcome_eq_next h with hx | hx
  · obtain ⟨n, p, u, -, -, hu, rfl⟩ := runMicroOp_inv hx
    exact .micro _ _ u hi hu
  · obtain ⟨info, rfl⟩ := runMicroOp_raised hx
    exact .illegal info hi

theorem ends_shift {i : Instr} {r : Option Word} {n : Int} {s t : State} (hi : ∃ x, encode i = .select x)
    (h : deliverShift r n s = .next t) : Ends i s t := by
  cases r with
  | none => cases h; exact .range _ hi
  | some w => cases h; exact .latch w hi

theorem ends_text {i : Instr} {s t : State} (hi : (∃ n u, i = .sign n u) ∨ ∃ n u, i = .md5 n u)
    (h : (∃ f info, t = enterFault f info s) ∨ ∃ res, t = respond res s ∧ ResultForm res) : Ends i s t := by
  rcases h with ⟨f, info, rfl⟩ | ⟨res, rfl, hr⟩
  · exact .fault f info hi
  · exact .text res hi hr

/-- Every next state of an instruction is one of the listed forms. -/
theorem exec_ends {i : Instr} {s t : State} (h : exec i s = .next t) : Ends i s t := by
  cases i with
  | addShr amt => exact ends_micro ⟨_, rfl⟩ h
  | addShl amt => exact ends_micro ⟨_, rfl⟩ h
  | xorShr amt => exact ends_micro ⟨_, rfl⟩ h
  | xorShl amt => exact ends_micro ⟨_, rfl⟩ h
  | sign n units => exact ends_text (.inl ⟨_, _, rfl⟩) (execSign_next h)
  | md5 n units => exact ends_text (.inr ⟨_, _, rfl⟩) (execMd5_next h)
  | setSecrets m k => cases h; exact .config _ _ (.inl ⟨_, _, rfl⟩)
  | loadSecret text => cases h; exact .config _ _ (.inr ⟨_, rfl⟩)
  | shl a n => exact ends_shift ⟨_, rfl⟩ h
  | ushr a n => exact ends_shift ⟨_, rfl⟩ h
  | wadd a b => cases h; exact .latch _ ⟨_, rfl⟩
  | xor a b => cases h; exact .latch _ ⟨_, rfl⟩
  | rotl a n => cases h; exact .latch _ ⟨_, rfl⟩
  | and a b => cases h; exact .latch _ ⟨_, rfl⟩
  | or a b => cases h; exact .latch _ ⟨_, rfl⟩
  | not a => cases h; exact .latch _ ⟨_, rfl⟩
  | md5F x y z => cases h; exact .latch _ ⟨_, rfl⟩
  | md5G x y z => cases h; exact .latch _ ⟨_, rfl⟩
  | md5H x y z => cases h; exact .latch _ ⟨_, rfl⟩
  | md5I x y z => cases h; exact .latch _ ⟨_, rfl⟩

/-- How a turn of a request in flight ends: a fault taken, a response, or a change of request state that leaves the
ByteBuffer, loads sixteen words into `X` if any, and starts a program if it writes `UPC`. -/
def TurnEnds (s t : State) : Prop :=
  (∃ f i, t = enterFault f i s) ∨ (∃ res, t = respond res s ∧ ResultForm res) ∨
  ∃ r, t = s.setReq r ∧ r.bb = s.req.bb ∧ r.cap = s.req.cap ∧
    (∀ x, r.x = some x → x.length = 16 ∨ s.req.x = some x) ∧ (∀ u, r.upc = some u → u = 0 ∨ s.req.upc = some u)

theorem turnEnds_of {s t : State} {x : Exec State} (hr : RaisesFrom s x) (ho : ∀ t, x = .ok t → TurnEnds s t)
    (h : outcome x = .next t) : TurnEnds s t := by
  rcases outcome_eq_next h with h | h
  · exact ho t h
  · exact .inl (hr t h)

theorem byteTurn_next {s t : State} (h : byteTurn s = .ok t) : ∃ x p, t = startApply x p s := by
  unfold byteTurn at h
  obtain ⟨b, -, h⟩ := bind_eq_ok.1 h
  cases b with
  | some b => obtain ⟨p, -, h⟩ := bind_eq_ok.1 h; cases h; exact ⟨_, _, rfl⟩
  | none => obtain ⟨p, -, h⟩ := bind_eq_ok.1 h; cases h; exact ⟨_, _, rfl⟩

theorem byteTurn_raisesFrom (s : State) : RaisesFrom s (byteTurn s) := by
  refine raisesFrom_bind (nextByte_raisesFrom s) fun b _ => ?_
  cases b with
  | some b => exact raisesFrom_bind (addByte_raisesFrom b s) fun p _ => raisesFrom_pure s _
  | none => exact raisesFrom_bind (raisesFrom_need _ _ _) fun p _ => raisesFrom_pure s _

theorem advanceByte_next {s t : State} (h : advanceByte s = .ok t) : ∃ b, t = s.setReq { s.req with bi := b } := by
  unfold advanceByte at h
  obtain ⟨b, -, h⟩ := bind_eq_ok.1 h
  cases h
  exact ⟨_, rfl⟩

theorem signTurn_ends {s t : State} (h : outcome (signTurn s) = .next t) : TurnEnds s t := by
  unfold signTurn at h
  split at h
  · refine turnEnds_of (byteTurn_raisesFrom s) (fun t ht => ?_) h
    obtain ⟨x, p, rfl⟩ := byteTurn_next ht
    exact .inr (.inr ⟨_, rfl, rfl, rfl, fun _ hy => .inr hy, fun u hu => .inl (by cases hu; rfl)⟩)
  · refine turnEnds_of ?_ (fun t ht => ?_) h
    · refine raisesFrom_bind (advanceByte_contained s).1 fun u hu => ?_
      exact (byteTurn_raisesFrom u).of_same ((advanceByte_contained s).2 u hu)
    · obtain ⟨u, hu, ht⟩ := bind_eq_ok.1 ht
      obtain ⟨b, rfl⟩ := advanceByte_next hu
      obtain ⟨x, p, rfl⟩ := byteTurn_next ht
      exact .inr (.inr ⟨_, rfl, rfl, rfl, fun _ hy => .inr hy, fun u hu => .inl (by cases hu; rfl)⟩)
  · refine turnEnds_of (finalise_raisesFrom s) (fun t ht => ?_) h
    obtain ⟨p, q, rfl, hp, -⟩ := finalise_next ht
    exact .inr (.inl ⟨_, rfl, hp⟩)

theorem bbWords_length {s : State} (k : Nat) : ∀ {i : Nat} {x : List Word}, bbWords s i k = .ok x → x.length = k := by
  induction k with
  | zero => intro i x h; cases h; rfl
  | succ k ih =>
    intro i x h
    obtain ⟨w, -, h⟩ := bind_eq_ok.1 h
    obtain ⟨ws, hw, h⟩ := bind_eq_ok.1 h
    cases h
    simp [ih hw]

theorem loadBlock_next {s t : State} {blk : Nat} (h : loadBlock blk s = .ok t) : ∃ x q, x.length = 16 ∧
    t = s.setReq { s.req with blk := some blk, x := some x, w := some q, j := some 0 } := by
  obtain ⟨x, hx, h⟩ := bind_eq_ok.1 h
  obtain ⟨q, -, h⟩ := bind_eq_ok.1 h
  cases h
  exact ⟨x, q, bbWords_length 16 hx, rfl⟩

theorem md5Step_next {s t : State} (h : md5Step s = .ok t) :
    ∃ q j, t = s.setReq { s.req with w := some q, j := some j } := by
  obtain ⟨j, -, h⟩ := bind_eq_ok.1 h
  obtain ⟨w, -, h⟩ := bind_eq_ok.1 h
  obtain ⟨x, -, h⟩ := bind_eq_ok.1 h
  obtain ⟨kt, -, h⟩ := bind_eq_ok.1 h
  obtain ⟨ks, -, h⟩ := bind_eq_ok.1 h
  obtain ⟨xg, -, h⟩ := bind_eq_ok.1 h
  cases h
  exact ⟨_, _, rfl⟩

theorem feedForward_next {s t : State} (h : feedForward s = .ok t) : ∃ q, t = s.setReq { s.req with h := some q } := by
  obtain ⟨j, -, h⟩ := bind_eq_ok.1 h
  obtain ⟨w, -, h⟩ := bind_eq_ok.1 h
  cases h
  exact ⟨_, rfl⟩

theorem blockTurn_raisesFrom (s : State) : RaisesFrom s (blockTurn s) := by
  refine raisesFrom_bind (feedForward_contained s).1 fun u hu => ?_
  have hs := (feedForward_contained s).2 u hu
  refine raisesFrom_bind (raisesFrom_need _ _ _) fun blk _ => ?_
  refine raisesFrom_bind (raisesFrom_need _ _ _) fun nb _ => ?_
  split
  · exact (loadBlock_contained _ u).1.of_same hs
  · exact (md5Output_raisesFrom u).of_same hs

theorem md5Turn_ends {s t : State} (h : outcome (md5Turn s) = .next t) : TurnEnds s t := by
  unfold md5Turn at h
  split at h
  · refine turnEnds_of (loadBlock_contained _ s).1 (fun t ht => ?_) h
    obtain ⟨x, q, hx, rfl⟩ := loadBlock_next ht
    exact .inr (.inr ⟨_, rfl, rfl, rfl, fun y hy => .inl (by cases hy; exact hx), fun u hu => .inr hu⟩)
  · refine turnEnds_of ?_ (fun t ht => ?_) h
    · refine raisesFrom_bind (md5Step_contained s).1 fun u hu => ?_
      have hs := (md5Step_contained s).2 u hu
      split
      · exact (blockTurn_raisesFrom u).of_same hs
      · exact raisesFrom_pure s u
    · obtain ⟨u, hu, ht⟩ := bind_eq_ok.1 ht
      obtain ⟨q, j', rfl⟩ := md5Step_next hu
      split at ht
      · unfold blockTurn at ht
        obtain ⟨v, hv, ht⟩ := bind_eq_ok.1 ht
        obtain ⟨q', rfl⟩ := feedForward_next hv
        obtain ⟨blk, -, ht⟩ := bind_eq_ok.1 ht
        obtain ⟨nb, -, ht⟩ := bind_eq_ok.1 ht
        split at ht
        · obtain ⟨x, q'', hx, rfl⟩ := loadBlock_next ht
          exact .inr (.inr ⟨_, rfl, rfl, rfl, fun y hy => .inl (by cases hy; exact hx), fun u hu => .inr hu⟩)
        · obtain ⟨q'', rfl⟩ := md5Output_next ht
          exact .inr (.inl ⟨_, rfl, resultForm_md5 _⟩)
      · cases ht
        exact .inr (.inr ⟨_, rfl, rfl, rfl, fun _ hy => .inr hy, fun u hu => .inr hu⟩)

/-- What a step did that answered a next state. -/
inductive StepEnds (s t : State) : Prop
  | select (x : Select) (i : Instr) (hs : s.select = some x) (hd : decode (.select x) = .ok i)
      (he : exec i { s with select := none } = .next t)
  | wait (hs : s.select = none) (hp : s.phase = .idle) (hh : s.host = []) (ht : t = s)
  | reset (rest : List HostMove) (hs : s.select = none) (hp : s.phase = .idle) (hh : s.host = .reset :: rest)
      (ht : t = resetCore { s with host := rest })
  | request (r : Request) (rest : List HostMove) (i : Instr) (hs : s.select = none) (hp : s.phase = .idle)
      (hh : s.host = .submit r :: rest) (hd : decode (.request r) = .ok i) (he : exec i { s with host := rest } = .next t)
  | unknown (r : Request) (rest : List HostMove) (hs : s.select = none) (hp : s.phase = .idle)
      (hh : s.host = .submit r :: rest)
      (ht : t = enterFault .unknownCommand (r.cmd.zeroExtend 32) { s with host := rest })
  | program (i : Instr) (b : List Byte) (hs : s.select = none) (hp : s.phase = .sequencer)
      (hd : decode (.program b) = .ok i) (he : exec i s = .next t)
  | turn (hs : s.select = none) (hp : s.phase ≠ .idle) (h : TurnEnds s t)

/-- Every next state of a step is one of the listed forms. -/
theorem step_ends {s t : State} (h : step s = .next t) : StepEnds s t := by
  unfold step at h
  cases hf : fetch s with
  | instr i u =>
    rw [hf] at h
    simp only at h
    unfold fetch at hf
    split at hf
    · rename_i x hx
      unfold fetchSelect at hf
      split at hf
      · rename_i i hd; cases hf; exact .select x _ hx hd h
      · cases hf
    · rename_i hs
      split at hf
      · rename_i hp
        unfold fetchHost at hf
        split at hf
        · cases hf
        · cases hf
        · rename_i r rest hh
          unfold fetchRequest at hf
          split at hf
          · rename_i hd; cases hf; exact .request r rest _ hs hp hh hd h
          · cases hf
      · rename_i hp
        unfold fetchSequencer at hf
        split at hf
        · split at hf
          · unfold fetchProgram at hf
            split at hf
            · rename_i hd; cases hf; exact .program _ _ hs hp hd h
            · cases hf
          · cases hf
        · cases hf
        · cases hf
      · cases hf
  | done o =>
    rw [hf] at h
    simp only at h
    subst h
    unfold fetch at hf
    split at hf
    · unfold fetchSelect at hf
      split at hf <;> cases hf
    · rename_i hs
      split at hf
      · rename_i hp
        unfold fetchHost at hf
        split at hf
        · rename_i hh; cases hf; exact .wait hs hp hh rfl
        · rename_i rest hh; cases hf; exact .reset rest hs hp hh rfl
        · rename_i r rest hh
          unfold fetchRequest at hf
          split at hf
          · cases hf
          · cases hf; exact .unknown r rest hs hp hh rfl
      · rename_i hp
        unfold fetchSequencer at hf
        split at hf
        · split at hf
          · unfold fetchProgram at hf
            split at hf <;> cases hf
          · exact .turn hs (by rw [hp]; decide) (signTurn_ends (by injection hf))
        · cases hf
        · exact .turn hs (by rw [hp]; decide) (signTurn_ends (by injection hf))
      · rename_i hp
        exact .turn hs (by rw [hp]; decide) (md5Turn_ends (by injection hf))

/-- One step, then the others. -/
theorem core_run_succ (M : Host.Core) {k : Nat} {s t : M.State} (h : M.step s = .next t) :
    M.run (k + 1) s = M.run k t := by
  simp [Host.Core.run, h]

/-- Some steps, then some more. -/
theorem core_run_add (M : Host.Core) (a b : Nat) {s t : M.State} (h : M.run a s = .next t) :
    M.run (a + b) s = M.run b t := by
  induction a generalizing s with
  | zero =>
    simp only [Host.Core.run, Host.Outcome.next.injEq] at h
    subst h
    simp
  | succ a ih =>
    cases hs : M.step s with
    | next u =>
      rw [core_run_succ M hs] at h
      rw [show a + 1 + b = (a + b) + 1 by omega, core_run_succ M hs]
      exact ih h
    | fault r => simp [Host.Core.run, hs] at h
    | refused r => simp [Host.Core.run, hs] at h

end Sys2Proof.Machine
end

