-- ==== Sys2Proof/Tests/Slice0.lean ====
section
/-! SUPPORT. The model's own tests: the well-formedness smoke, words written out from the spec's encodings, one-step
tests on the vectors of 95_test_vectors.md (the section is named at each), and a witness of the hypotheses of every
statement that has some. -/

namespace Sys2Proof.Tests

open Sys2Proof Sys2Proof.Machine Sys2Proof.Safety

/-- A state at rest with room for 100 units. -/
def rest : State := { State.reset with params := { State.reset.params with maxUnits := 100 } }

/-- The same with other secrets. -/
def restWith (m k : Word) : State := { rest with cfgM := m, cfgS := k }

/-- The same with other programs. -/
def restProg (a b : List Byte) : State := { rest with rom := { rest.rom with progA := a, progB := b } }

/-- A state in the sequencer phase at the start of program A. -/
def atStart (p : Word) : State :=
  { rest with phase := .sequencer, req := { RequestState.empty with p := some p, psel := some .a, upc := some 0 } }

/-- The next state of an outcome. -/
def nextOf (o : Host.Outcome State Fault Refusal) : Option State :=
  match o with
  | .next s => some s
  | .fault _ => none
  | .refused _ => none

/-- The response an outcome leaves. -/
def responseOf (o : Host.Outcome State Fault Refusal) : Option Response := (nextOf o).bind State.response

/-- The word an outcome leaves in the result latch. -/
def resultOf (o : Host.Outcome State Fault Refusal) : Option Word := (nextOf o).bind State.result

/-- `OPND` and `P` after an outcome. -/
def accumulatorOf (o : Host.Outcome State Fault Refusal) : Option Word × Option Word :=
  ((nextOf o).bind fun s => s.req.opnd, (nextOf o).bind fun s => s.req.p)

/-- The response of a fault. -/
def faulted (code : Byte) (info : Word) : Response := { code := code, info := info, result := .empty }

theorem exists_next {o : Host.Outcome State Fault Refusal} {r : Response} (h : responseOf o = some r) :
    ∃ t, o = .next t ∧ t.response = some r := by
  match o, h with
  | .next t, h => exact ⟨t, rfl, h⟩

/-! ### Well-formedness: an ill-formed term for each check -/

theorem test_wf_addShr : (Instr.addShr 0x2F).wellFormed = false := by decide
theorem test_wf_addShl : (Instr.addShl 0x3A).wellFormed = false := by decide
theorem test_wf_xorShr : (Instr.xorShr 0x60).wellFormed = false := by decide
theorem test_wf_xorShl : (Instr.xorShl 0x71).wellFormed = false := by decide
theorem test_wf_sign : (Instr.sign 2 [0x61]).wellFormed = false := by decide
theorem test_wf_md5 : (Instr.md5 0 [0x61]).wellFormed = false := by decide
theorem test_wf_shl : (Instr.shl 1 32).wellFormed = false ∧ (Instr.shl 1 (-1)).wellFormed = false := by decide
theorem test_wf_ushr : (Instr.ushr 1 32).wellFormed = false ∧ (Instr.ushr 1 (-32)).wellFormed = false := by decide
theorem test_wf_rotl : (Instr.rotl 1 0).wellFormed = false ∧ (Instr.rotl 1 32).wellFormed = false := by decide

/-! ### Decoding: words from 30_encoding.md R70-R83 (the micro-ops from 95 section 2.2) -/

theorem test_decode_addShr : decodeTableWord 24 0x2B2B32 = some (.addShr 0x32) := by decide
theorem test_decode_addShl : decodeTableWord 24 0x2B2D61 = some (.addShl 0x61) := by decide
theorem test_decode_addShl_alias : decodeTableWord 24 0x2B5835 = some (.addShl 0x35) := by decide
theorem test_decode_xorShr : decodeTableWord 24 0x5E2B62 = some (.xorShr 0x62) := by decide
theorem test_decode_xorShr_alias : decodeTableWord 24 0x782B62 = some (.xorShr 0x62) := by decide
theorem test_decode_xorShl : decodeTableWord 24 0x5E2D33 = some (.xorShl 0x33) := by decide
theorem test_decode_xorShl_alias : decodeTableWord 24 0x000039 = some (.xorShl 0x39) := by decide
theorem test_decode_sign : decodeTableWord 8 0x01 = some (.sign 0 []) := by decide
theorem test_decode_md5 : decodeTableWord 8 0x02 = some (.md5 0 []) := by decide
theorem test_decode_setSecrets : decodeTableWord 8 0x10 = some (.setSecrets 0 0) := by decide
theorem test_decode_loadSecret : decodeTableWord 8 0x11 = some (.loadSecret []) := by decide
theorem test_decode_wadd : decodeTableWord 4 0x0 = some (.wadd 0 0) := by decide
theorem test_decode_xor : decodeTableWord 4 0x1 = some (.xor 0 0) := by decide
theorem test_decode_shl : decodeTableWord 4 0x2 = some (.shl 0 0) := by decide
theorem test_decode_ushr : decodeTableWord 4 0x3 = some (.ushr 0 0) := by decide
theorem test_decode_rotl : decodeTableWord 4 0x4 = some (.rotl 0 0) := by decide
theorem test_decode_and : decodeTableWord 4 0x5 = some (.and 0 0) := by decide
theorem test_decode_or : decodeTableWord 4 0x6 = some (.or 0 0) := by decide
theorem test_decode_not : decodeTableWord 4 0x7 = some (.not 0) := by decide
theorem test_decode_md5F : decodeTableWord 4 0x8 = some (.md5F 0 0 0) := by decide
theorem test_decode_md5G : decodeTableWord 4 0x9 = some (.md5G 0 0 0) := by decide
theorem test_decode_md5H : decodeTableWord 4 0xA = some (.md5H 0 0 0) := by decide
theorem test_decode_md5I : decodeTableWord 8 0xB = some (.md5I 0 0 0) := by decide
theorem test_decode_reserved : decodeTableWord 4 0xC = none ∧ decodeTableWord 8 0x12 = none := by decide

/-! ### A word placed for the next step runs as the first instruction after reset -/

/-- `P` = 320305 from the seed: 320305 * 1025 = 328312625. -/
theorem test_fetch_program :
    (accumulatorOf (step (State.reset.withFetchWord 24 0x2B2D61))).2 = some 328312625 := by decide +kernel

theorem test_fetch_request : responseOf (step (State.reset.withFetchWord 8 0x10)) =
    some { code := 0, info := 0, result := .empty } := by decide +kernel

theorem test_fetch_select : resultOf (step (State.reset.withFetchWord 4 0x7)) = some 0xFFFFFFFF := by decide +kernel

/-! ### The datapath operations, 95 sections 2.1 and 2.10 -/

theorem test_wadd_wraps : resultOf (exec (.wadd 0x7FFFFFFF 1) rest) = some 0x80000000 := by decide
theorem test_wadd_sign : resultOf (exec (.wadd 0xFFFFFFFF 1) rest) = some 0 := by decide
theorem test_xor : resultOf (exec (.xor 0xFFFFFFFF 0x7FFFFFFF) rest) = some 0x80000000 := by decide
theorem test_shl : resultOf (exec (.shl 3 31) rest) = some 0x80000000 := by decide
theorem test_shl_range : responseOf (exec (.shl 1 (-1)) rest) = some (faulted 4 0xFFFFFFFF) := by decide
theorem test_ushr_negative : resultOf (exec (.ushr 1 (-1)) rest) = some 0xFFFFFFFE := by decide
theorem test_ushr_range : responseOf (exec (.ushr 1 32) rest) = some (faulted 4 32) := by decide
theorem test_rotl : resultOf (exec (.rotl 0x12345678 4) rest) = some 0x23456781 := by decide
theorem test_rotl_high : resultOf (exec (.rotl 0xD76AA478 22) rest) = some 0x1E35DAA9 := by decide
theorem test_and : resultOf (exec (.and 0xF0F0F0F0 0x0FF00FF0) rest) = some 0x00F000F0 := by decide
theorem test_or : resultOf (exec (.or 0xF0F0F0F0 0x0FF00FF0) rest) = some 0xFFF0FFF0 := by decide
theorem test_not : resultOf (exec (.not 0x12345678) rest) = some 0xEDCBA987 := by decide
theorem test_md5F : resultOf (exec (.md5F 0xFFFF0000 0x00FFFF00 0x0F0F0F0F) rest) = some 0x00FF0F0F := by decide
theorem test_md5G : resultOf (exec (.md5G 0xFFFF0000 0x00FFFF00 0x0F0F0F0F) rest) = some 0x0FFFF000 := by decide
theorem test_md5H : resultOf (exec (.md5H 0xFFFF0000 0x00FFFF00 0x0F0F0F0F) rest) = some 0xF00FF00F := by decide
theorem test_md5I : resultOf (exec (.md5I 0xFFFF0000 0x00FFFF00 0x0F0F0F0F) rest) = some 0xFF000FF0 := by decide

/-! ### The micro-ops, 95 section 2.3 -/

theorem test_addShl :
    accumulatorOf (exec (.addShl 0x61) (atStart 0x12345678)) = (some 0xD159E000, some 0xE38E3678) := by decide
theorem test_addShl_25 :
    accumulatorOf (exec (.addShl 0x70) (atStart 0x12345678)) = (some 0xF0000000, some 0x02345678) := by decide
theorem test_addShr :
    accumulatorOf (exec (.addShr 0x61) (atStart 0x7FFFFFFF)) = (some 0x001FFFFF, some 0x801FFFFE) := by decide
theorem test_addShr_unsigned :
    accumulatorOf (exec (.addShr 0x31) (atStart 0xFFFFFFFF)) = (some 0x7FFFFFFF, some 0x7FFFFFFE) := by decide
theorem test_xorShl :
    accumulatorOf (exec (.xorShl 0x61) (atStart 0xFFFFFFFF)) = (some 0xFFFFFC00, some 0x000003FF) := by decide
theorem test_xorShr :
    accumulatorOf (exec (.xorShr 0x36) (atStart 0x13934799)) = (some 0x004E4D1E, some 0x13DD0A87) := by decide
theorem test_reserved_amount : responseOf (exec (.xorShr 0x71) (atStart 1)) = some (faulted 1 0) := by decide

/-! ### The commands, 95 sections 2.8, 2.9, 2.13 and 2.14 -/

/-- `SIGN hello` = `54706.276099`. -/
theorem test_sign_hello : responseOf (exec (.sign 5 [0x68, 0x65, 0x6C, 0x6C, 0x6F]) rest) = some
    { code := 0
      info := 0
      result := .sign 54706 276099 [0x35, 0x34, 0x37, 0x30, 0x36, 0x2E, 0x32, 0x37, 0x36, 0x30, 0x39, 0x39] } := by
  decide +kernel

/-- `SIGN DC00 D800`: `InvalidUnit`, lowest index. -/
theorem test_sign_fault : responseOf (exec (.sign 2 [0xDC00, 0xD800]) rest) = some (faulted 3 0) := by decide +kernel

/-- `MD5 abc` = `900150983cd24fb0d6963f7d28e17f72`. -/
theorem test_md5_abc : (responseOf (exec (.md5 3 [0x61, 0x62, 0x63]) rest)).map (fun r =>
    match r.result with
    | .md5 digest _ => digest
    | .sign _ _ _ => []
    | .empty => []) = some
    [0x90, 0x01, 0x50, 0x98, 0x3C, 0xD2, 0x4F, 0xB0, 0xD6, 0x96, 0x3F, 0x7D, 0x28, 0xE1, 0x7F, 0x72] := by
  decide +kernel

/-- `MD5 a CR LF D800`: `InvalidUnit` at index 2 of the normalised text. -/
theorem test_md5_fault :
    responseOf (exec (.md5 4 [0x61, 0x0D, 0x0A, 0xD800]) rest) = some (faulted 3 2) := by decide +kernel

theorem test_setSecrets : (nextOf (exec (.setSecrets 0xFFFFFFFF 0) rest)).map (fun s => (s.cfgM, s.cfgS)) =
    some (0xFFFFFFFF, 0) := by decide

/-- `"007.1"`. -/
theorem test_loadSecret : (nextOf (exec (.loadSecret [0x30, 0x30, 0x37, 0x2E, 0x31]) rest)).map (fun s =>
    (s.cfgM, s.cfgS)) = some (7, 1) := by decide

/-- `"1.2.3"`. -/
theorem test_loadSecret_bad : (nextOf (exec (.loadSecret [0x31, 0x2E, 0x32, 0x2E, 0x33]) rest)).map (fun s =>
    (s.cfgM, s.cfgS)) = some (0, 0) := by decide

/-- `SIGN hello` with `PROGB` = `+-3^+b+-q`. -/
theorem test_program_check : responseOf (exec (.sign 1 [0x68])
    (restProg progAReset [0x2B, 0x2D, 0x33, 0x5E, 0x2B, 0x62, 0x2B, 0x2D, 0x71])) = some (faulted 1 0x00010006) := by
  decide +kernel

/-- `CMD` = 0x03. -/
theorem test_unknown_command :
    responseOf (step { rest with host := [.submit { cmd := 0x03 }] }) = some (faulted 6 3) := by decide +kernel

/-! ### Witnesses: a state and operands that meet the hypotheses of each statement, at the boundaries of its clauses -/

theorem legal_low_digit : Reference.AmountIs 0x30 0 := by unfold Reference.AmountIs; decide
theorem legal_high_digit : Reference.AmountIs 0x39 9 := by unfold Reference.AmountIs; decide
theorem legal_low_letter : Reference.AmountIs 0x61 10 := by unfold Reference.AmountIs; decide
theorem legal_high_letter : Reference.AmountIs 0x70 25 := by unfold Reference.AmountIs; decide

/-- The bytes next to the legal ones. -/
theorem reserved_bytes : Reference.AmountReserved 0x2F ∧ Reference.AmountReserved 0x3A ∧
    Reference.AmountReserved 0x60 ∧ Reference.AmountReserved 0x71 := by
  refine ⟨?_, ?_, ?_, ?_⟩ <;> intro n h <;> simp [Reference.AmountIs] at h <;> omega

theorem wellFormed_literal : Reference.WellFormedProgram progAReset ∧ Reference.WellFormedProgram progBReset := by
  refine ⟨⟨by decide, by decide, ?_⟩, ⟨by decide, by decide, ?_⟩⟩
  · intro k c2 hk h
    have hk : k = 0 ∨ k = 1 := by simp [progAReset] at hk; omega
    rcases hk with rfl | rfl
    · cases h; exact ⟨10, legal_low_letter⟩
    · cases h; exact ⟨6, by unfold Reference.AmountIs; decide⟩
  · intro k c2 hk h
    have hk : k = 0 ∨ k = 1 ∨ k = 2 := by simp [progBReset] at hk; omega
    rcases hk with rfl | rfl | rfl
    · cases h; exact ⟨3, by unfold Reference.AmountIs; decide⟩
    · cases h; exact ⟨11, by unfold Reference.AmountIs; decide⟩
    · cases h; exact ⟨15, by unfold Reference.AmountIs; decide⟩

/-- A five-byte program, and one whose second amount byte is reserved (95 section 2.14). -/
theorem malformed_programs :
    Reference.ProgramFault 0 [0x2B, 0x2D, 0x61, 0x5E, 0x2B] 2 0x00000005 ∧ Reference.ProgramFault 0 [] 2 0x00000000 ∧
      Reference.ProgramFault 1 [0x2B, 0x2D, 0x61, 0x5E, 0x2B, 0x71] 1 0x00010003 := by
  refine ⟨.inl (by decide), .inl (by decide), .inr ⟨by decide, by decide, rfl, 1, 0x71, rfl, reserved_bytes.2.2.2, ?_, ?_⟩⟩
  · intro j c hj h
    have hj : j = 0 := by omega
    subst hj
    cases h
    exact ⟨10, legal_low_letter⟩
  · decide

theorem witness_ShlLegalAmounts : ∃ low high : DatapathOperands, (0 ≤ low.n ∧ low.n ≤ 31) ∧ 0 ≤ high.n ∧ high.n ≤ 31 :=
  ⟨{ a := 3, n := 0 }, { a := 3, n := 31 }, by decide⟩

theorem witness_UshrLegalAmounts : ∃ low mid high : DatapathOperands, (-31 ≤ low.n ∧ low.n ≤ 31 ∧ low.n < 0) ∧
    (-31 ≤ mid.n ∧ mid.n ≤ 31 ∧ 0 ≤ mid.n) ∧ -31 ≤ high.n ∧ high.n ≤ 31 ∧ 0 ≤ high.n :=
  ⟨{ a := 3, n := -31 }, { a := 3, n := 0 }, { a := 3, n := 31 }, by decide⟩

theorem witness_ShiftRangeFault : ∃ n k i j : Int, (n < 0 ∨ 31 < n) ∧ (k < 0 ∨ 31 < k) ∧ (i < -31 ∨ 31 < i) ∧
    (j < -31 ∨ 31 < j) := ⟨-1, 32, -32, 32, by decide⟩

/-- R210, code 4: "the amount `n`, as `s32`", at both ends of that range. -/
theorem test_amountInfo : amountInfo 2147483647 = 0x7FFFFFFF ∧ amountInfo (-2147483648) = 0x80000000 := by decide

/-- R210, code 3: `INFO` is the index, to the last one 32 bits hold. -/
theorem test_indexInfo : indexInfo 0 = 0 ∧ indexInfo 4294967295 = 0xFFFFFFFF := by decide

theorem witness_RotlLegalAmounts : ∃ low high : DatapathOperands, (1 ≤ low.n ∧ low.n ≤ 31) ∧ 1 ≤ high.n ∧ high.n ≤ 31 :=
  ⟨{ a := 3, n := 1 }, { a := 3, n := 31 }, by decide⟩

theorem witness_RotlOtherAmountsComplete : ∃ n k : Int, (n < 1 ∨ 31 < n) ∧ (k < 1 ∨ 31 < k) := ⟨0, 32, by decide⟩

theorem witness_ModularSumInAnyOrder : (2 :: [1, 3] : List Word).Perm [1, 2, 3] := by decide

theorem witness_AddShlRule : (0x2D : Byte) ≠ 0x2B ∧ Reference.AmountIs 0x61 10 ∧ (atStart 7).req.p = some 7 ∧
    (atStart 7).req.upc = some 0 := ⟨by decide, legal_low_letter, rfl, rfl⟩

theorem witness_AddShrRule : Reference.AmountIs 0x70 25 ∧ (atStart 7).req.p = some 7 ∧ (atStart 7).req.upc = some 0 :=
  ⟨legal_high_letter, rfl, rfl⟩

theorem witness_XorShlRule : (0x5E : Byte) ≠ 0x2B ∧ (0x2D : Byte) ≠ 0x2B ∧ Reference.AmountIs 0x30 0 ∧
    (atStart 7).req.p = some 7 ∧ (atStart 7).req.upc = some 0 := ⟨by decide, by decide, legal_low_digit, rfl, rfl⟩

theorem witness_XorShrRule : (0x5E : Byte) ≠ 0x2B ∧ Reference.AmountIs 0x39 9 ∧ (atStart 7).req.p = some 7 ∧
    (atStart 7).req.upc = some 0 := ⟨by decide, legal_high_digit, rfl, rfl⟩

theorem witness_ReservedAmountFault : Reference.AmountReserved 0x71 ∧ (atStart 7).req.psel = some .a ∧
    (atStart 7).req.upc = some 0 := ⟨reserved_bytes.2.2.2, rfl, rfl⟩

/-- Each clause: `P`, then `UPC`, then `PSEL`, then `UPC` again without a value. -/
theorem witness_UnwrittenReadStops : (∃ n, Reference.AmountIs 0x61 n) ∧ rest.req.p = none ∧
    (({ RequestState.empty with p := some 7 } : RequestState).p ≠ none ∧
      ({ RequestState.empty with p := some 7 } : RequestState).upc = none) ∧
    Reference.AmountReserved 0x71 ∧ rest.req.psel = none ∧
    ({ RequestState.empty with psel := some .b } : RequestState).psel ≠ none ∧
      ({ RequestState.empty with psel := some .b } : RequestState).upc = none :=
  ⟨⟨10, legal_low_letter⟩, rfl, ⟨by decide, rfl⟩, reserved_bytes.2.2.2, rfl, by decide, rfl⟩

theorem witness_SequencerRunsApply : (atStart 7).select = none ∧ (atStart 7).phase = .sequencer ∧
    Reference.WellFormedProgram (progBytes .a (atStart 7)) ∧ (atStart 7).req.psel = some .a ∧
    (atStart 7).req.p = some 7 ∧ (atStart 7).req.upc = some 0 := ⟨rfl, rfl, wellFormed_literal.1, rfl, rfl, rfl⟩

theorem witness_LiteralProgramsMix : (atStart 7).select = none ∧ (atStart 7).phase = .sequencer ∧
    (atStart 7).rom = ReadOnlyStores.fixed ∧ (startApply .b 7 (atStart 7)).rom = ReadOnlyStores.fixed ∧
    (startApply .b 7 (atStart 7)).req.psel = some .b ∧ (startApply .b 7 (atStart 7)).req.p = some 7 ∧
    (startApply .b 7 (atStart 7)).req.upc = some 0 := ⟨rfl, rfl, rfl, rfl, rfl, rfl, rfl⟩

/-- At the end of program A, with two valid cells and the capacity `cap`. -/
def atEnd (i cap : Nat) : State :=
  (atStart 7).setReq { (atStart 7).req with upc := some 6, bi := some i, cap := some cap, bb := [(0, 1), (1, 2)] }

/-- The next cell valid; the next cell at the end of the buffer; the next cell unset. -/
theorem witness_ByteLoopTurn : (∀ i cap, (atEnd i cap).select = none ∧ (atEnd i cap).phase = .sequencer ∧
      (atEnd i cap).req.psel = some .a ∧ (atEnd i cap).req.upc = some 6 ∧ (atEnd i cap).rom.progA.length ≤ 6 ∧
      (atEnd i cap).req.bi = some i ∧ (atEnd i cap).req.cap = some cap ∧ (atEnd i cap).req.p = some 7) ∧
    (0 + 1 < 2 ∧ (atEnd 0 2).req.bb.read (0 + 1) = some 2) ∧ 2 ≤ 1 + 1 ∧ (atEnd 1 9).req.bb.read (1 + 1) = none :=
  ⟨fun _ _ => ⟨rfl, rfl, rfl, rfl, Nat.le_refl 6, rfl, rfl,
    rfl⟩, ⟨by decide, rfl⟩, by decide, rfl⟩

theorem witness_DecodeEncode : (Instr.addShr 0x70).wellFormed = true ∧ (Instr.sign 1 [0x61]).wellFormed = true ∧
    (Instr.ushr 1 (-31)).wellFormed = true := by decide

theorem witness_ProgramDecodesInOrder :
    ∀ i ∈ [Instr.addShl 0x61, Instr.xorShr 0x36], ∃ bytes, encode i = .program bytes := by
  intro i hi
  simp only [List.mem_cons, List.not_mem_nil, or_false] at hi
  rcases hi with rfl | rfl <;> exact ⟨_, rfl⟩

theorem witness_CommandAndSelectCodes :
    (({ cmd := 0x03 } : Request).cmd ≠ 0x01 ∧ ({ cmd := 0x03 } : Request).cmd ≠ 0x02 ∧
      ({ cmd := 0x03 } : Request).cmd ≠ 0x10 ∧ ({ cmd := 0x03 } : Request).cmd ≠ 0x11) ∧
    12 ≤ ({ sel := 0xC } : Select).sel.toNat ∧ 12 ≤ ({ sel := 0xF } : Select).sel.toNat := by decide

/-- Each clause: a selection, a request of an idle core, a micro-op of the sequencer. -/
theorem witness_StepRunsDecoded :
    (∃ s x, (s : State).select = some x ∧ decode (.select x) = .ok (.not 0)) ∧
    (∃ s r, (s : State).select = none ∧ s.phase = .idle ∧ s.host = .submit r :: [] ∧
      decode (.request r) = .ok (.sign 0 [])) ∧
    ((atStart 7).select = none ∧ (atStart 7).phase = .sequencer ∧ (atStart 7).req.psel = some .a ∧
      (atStart 7).req.upc = some 0 ∧ 0 < (progBytes .a (atStart 7)).length ∧
      decode (.program ((progBytes .a (atStart 7)).drop 0)) = .ok (.addShl 0x61)) :=
  ⟨⟨{ rest with select := some { sel := 0x7 } }, { sel := 0x7 }, rfl, rfl⟩,
    ⟨{ rest with host := [.submit { cmd := 0x01 }] }, { cmd := 0x01 }, rfl, rfl, rfl, rfl⟩,
    rfl, rfl, rfl, rfl, by decide, rfl⟩

theorem witness_UnknownCommandFault : ∃ s : State, s.select = none ∧ s.phase = .idle ∧
    s.host = .submit { cmd := 0x03 } :: [] ∧ (0x03 : Byte) ≠ 0x01 ∧ (0x03 : Byte) ≠ 0x02 ∧ (0x03 : Byte) ≠ 0x10 ∧
    (0x03 : Byte) ≠ 0x11 := ⟨{ rest with host := [.submit { cmd := 0x03 }] }, rfl, rfl, rfl, by decide⟩

theorem witness_ReservedSelectRefused : ∃ s : State, s.select = some { sel := 0xC } ∧ 12 ≤ (0xC : BitVec 4).toNat :=
  ⟨{ rest with select := some { sel := 0xC } }, rfl, by decide⟩

theorem witness_ResetAndIdle : (∃ s : State, s.select = none ∧ s.phase = .idle ∧ s.host = .reset :: []) ∧
    rest.select = none ∧ rest.phase = .idle ∧ rest.host = [] := ⟨⟨{ rest with host := [.reset] }, rfl, rfl, rfl⟩, rfl, rfl, rfl⟩

/-- A state before the first class application on a text. -/
def expanding (tx : List CodeUnit) : State :=
  let s := writeText tx rest
  s.setReq { s.req with v := some 0, c := some 0 }

/-- The first and last unit of each class: one byte, two bytes, three bytes on both sides of the surrogates, a pair, and
the unpaired forms. The bytes of a text of one unit fit its three cells, and those of a pair its six. -/
theorem witness_ExpanderClasses :
    (∀ tx, (expanding tx).req.tx = some tx ∧ (expanding tx).req.v = some 0 ∧ (expanding tx).req.c = some 0 ∧
      (expanding tx).req.cap = some (3 * tx.length)) ∧
    (0 + 1 ≤ 3 * [(0x7F : CodeUnit)].length ∧ 0 + 2 ≤ 3 * [(0x7FF : CodeUnit)].length ∧
      0 + 3 ≤ 3 * [(0xD7FF : CodeUnit)].length ∧ 0 + 4 ≤ 3 * [(0xDBFF : CodeUnit), 0xDFFF].length) ∧
    (0x7F < 0x80 ∧ 0x80 ≤ 0x80 ∧ 0x7FF < 0x800 ∧ 0x800 ≤ 0x800 ∧ 0xD7FF < 0xD800 ∧ 0xDFFF < 0xE000) ∧
    ((expanding [0xDBFF, 0xDFFF]).req.tx = some [0xDBFF, 0xDFFF] ∧ (0xDFFF : CodeUnit).toNat ≤ 0xDFFF) ∧
    ¬ ∃ lo, ([0xD800] : List CodeUnit)[0 + 1]? = some lo ∧ 0xDC00 ≤ lo.toNat ∧ lo.toNat ≤ 0xDFFF :=
  ⟨fun _ => ⟨rfl, rfl, rfl, rfl⟩, by decide, by decide, ⟨rfl, by decide⟩, fun ⟨_, h, _⟩ => by cases h⟩

/-- A record with a spare unit; each check failing alone; a text that expands and one that does not. -/
theorem witness_SignRule : 1 ≤ [(0x61 : CodeUnit), 0x62].length ∧
    Reference.ProgramFault 0 (restProg [] progBReset).rom.progA 2 0 ∧
    (Reference.WellFormedProgram (restProg progAReset [0x2B, 0x2D, 0x61, 0x5E, 0x2B, 0x71]).rom.progA ∧
      Reference.ProgramFault 1 (restProg progAReset [0x2B, 0x2D, 0x61, 0x5E, 0x2B, 0x71]).rom.progB 1 0x00010003) ∧
    (Reference.WellFormedProgram rest.rom.progA ∧ Reference.WellFormedProgram rest.rom.progB) ∧
    rest.params.maxUnits < 101 ∧ 100 ≤ rest.params.maxUnits ∧
    Reference.utf8 .fault [0x61] 0 = .ok [0x61] ∧ Reference.utf8 .fault [0xD800] 0 = .error 0 :=
  ⟨by decide, malformed_programs.2.1, ⟨wellFormed_literal.1, malformed_programs.2.2⟩, wellFormed_literal, by decide,
    by decide, rfl, rfl⟩

theorem witness_ProgramCheckRule :
    Reference.ProgramFault (progNumber .a) (progBytes .a (restProg [] progBReset)) 2 0 := malformed_programs.2.1

theorem witness_ShortRecordStops : ([] : List CodeUnit).length < 1 ∧ 1 ≤ rest.params.maxUnits ∧
    Reference.WellFormedProgram rest.rom.progA ∧ Reference.WellFormedProgram rest.rom.progB :=
  ⟨by decide, by decide, wellFormed_literal⟩

theorem witness_TruncationKeepsThreeSegments :
    30 < (countedUnits .codeUnits (List.replicate 31 0x61)).length ∧
      30 < (countedUnits .characters (List.replicate 31 0x61)).length := by decide

theorem witness_TruncationLaw : (List.replicate 31 (0x61 : CodeUnit)).length ≤ rest.params.maxUnits := by decide

/-- The response of a completed `SIGN`. -/
def signed (p : BitVec 20) (q : Word) (str : List Byte) : Response :=
  { code := 0, info := 0, result := .sign p q str }

/-- `SIGN` of the empty text: `800951.580486` (95 section 2.8). -/
theorem sign_empty : ∃ t, exec (.sign 0 []) rest = .next t ∧ t.response = some (signed 800951 580486
    [0x38, 0x30, 0x30, 0x39, 0x35, 0x31, 0x2E, 0x35, 0x38, 0x30, 0x34, 0x38, 0x36]) :=
  exists_next (by decide +kernel)

/-- `hello` with `m` = -1 and `s` = 0: `106460.-106461` (95 section 2.8). -/
theorem sign_negative : ∃ t, exec (.sign 5 [0x68, 0x65, 0x6C, 0x6C, 0x6F]) (restWith 0xFFFFFFFF 0) = .next t ∧
    t.response = some (signed 106460 (BitVec.ofInt 32 (-106461))
      [0x31, 0x30, 0x36, 0x34, 0x36, 0x30, 0x2E, 0x2D, 0x31, 0x30, 0x36, 0x34, 0x36, 0x31]) :=
  exists_next (by decide +kernel)

/-- A non-negative and a negative `m`. -/
theorem witness_SignNumbers :
    (∃ t info res, exec (.sign 0 []) rest = .next t ∧
      t.response = some { code := 0, info := info, result := res } ∧ 0 ≤ s32 rest.cfgM) ∧
    ∃ t info res, exec (.sign 5 [0x68, 0x65, 0x6C, 0x6C, 0x6F]) (restWith 0xFFFFFFFF 0) = .next t ∧
      t.response = some { code := 0, info := info, result := res } ∧ s32 (restWith 0xFFFFFFFF 0).cfgM < 0 := by
  obtain ⟨t, h1, h2⟩ := sign_empty
  obtain ⟨u, h3, h4⟩ := sign_negative
  exact ⟨⟨t, _, _, h1, h2, by decide⟩, ⟨u, _, _, h3, h4, by decide⟩⟩

theorem witness_SignOutputPattern : ∃ t info res, exec (.sign 0 []) rest = .next t ∧
    t.response = some { code := 0, info := info, result := res } := by
  obtain ⟨t, h1, h2⟩ := sign_empty
  exact ⟨t, _, _, h1, h2⟩

/-- Two states that differ in `STATUS` and in a kept result. -/
theorem witness_SignHasNoHiddenState : ∃ s' t : State, s' ≠ rest ∧ s'.cfgM = rest.cfgM ∧ s'.cfgS = rest.cfgS ∧
    s'.rom.progA = rest.rom.progA ∧ s'.rom.progB = rest.rom.progB ∧ s'.params = rest.params ∧
    exec (.sign 0 []) rest = .next t := by
  obtain ⟨t, h, -⟩ := sign_empty
  refine ⟨{ rest with status := 3, result := some 1 }, t, fun e => ?_, rfl, rfl, rfl, rfl, rfl, h⟩
  have h : some (1 : Word) = rest.result := congrArg State.result e
  exact absurd h (by decide)

/-- The state a computation inside an instruction gives. -/
def stateOf (x : Exec State) : Option State :=
  match x with
  | .ok s => some s
  | .error _ => none

theorem exists_ok {x : Exec State} (h : (stateOf x).isSome = true) : ∃ t, x = .ok t := by
  cases x with
  | ok t => exact ⟨t, rfl⟩
  | error e => simp [stateOf] at h

theorem witness_SignSmallStepsAgree : rest.select = none ∧ ∃ t, signStart 1 [0x61] rest = .ok t :=
  ⟨rfl, exists_ok (by decide +kernel)⟩

/-- A pair at the upper bound, and a text without a point. -/
theorem witness_LoadSecretRule :
    Reference.IsSecretPair [0x32, 0x31, 0x34, 0x37, 0x34, 0x38, 0x33, 0x36, 0x34, 0x37, 0x2E, 0x30] 2147483647 0 ∧
      ∀ m k, ¬ Reference.IsSecretPair [0x31, 0x32] m k := by
  refine ⟨⟨[0x32, 0x31, 0x34, 0x37, 0x34, 0x38, 0x33, 0x36, 0x34, 0x37], [0x30], rfl, ?_, ?_, ?_, ?_, by decide,
    by decide⟩, ?_⟩
  · exact ⟨by decide, by decide⟩
  · exact ⟨by decide, by decide⟩
  · simp [Reference.numberValue, Nat.ofDigits]
  · simp [Reference.numberValue]
  · rintro m k ⟨x, y, h, -⟩
    have : (0x2E : Byte) ∈ ([0x31, 0x32] : List Byte) := by rw [h]; simp
    exact absurd this (by decide)

/-- The capacity at its bound, a text that expands and one that does not. -/
theorem witness_Md5Rule : 1 ≤ [(0x61 : CodeUnit), 0x62].length ∧ rest.rom.kt = ktTable ∧ rest.rom.ks = ksTable ∧
    rest.rom.iv = ivTable ∧ rest.params.maxUnits < 101 ∧ 100 ≤ rest.params.maxUnits ∧
    Reference.utf8 .fault (Reference.normalise [0x61]) 0 = .ok [0x61] ∧
    Reference.utf8 .fault (Reference.normalise [0x0D, 0x0A, 0xD800]) 0 = .error 1 :=
  ⟨by decide, rfl, rfl, rfl, by decide, by decide, rfl, rfl⟩

theorem md5_empty : ∃ t, exec (.md5 0 []) rest = .next t := by
  have h : (nextOf (exec (.md5 0 []) rest)).isSome = true := by decide +kernel
  match exec (.md5 0 []) rest, h with
  | .next t, _ => exact ⟨t, rfl⟩

theorem witness_Md5ReadsTheTextAlone : ∃ s' t : State, s' ≠ rest ∧ rest.rom.kt = ktTable ∧ rest.rom.ks = ksTable ∧
    rest.rom.iv = ivTable ∧ s'.rom.kt = ktTable ∧ s'.rom.ks = ksTable ∧ s'.rom.iv = ivTable ∧
    s'.params = rest.params ∧ exec (.md5 0 []) rest = .next t := by
  obtain ⟨t, h⟩ := md5_empty
  refine ⟨restWith 1 2, t, fun e => ?_, rfl, rfl, rfl, rfl, rfl, rfl, rfl, h⟩
  have hm : (1 : Word) = rest.cfgM := congrArg State.cfgM e
  exact absurd hm (by decide)

theorem witness_NormalisationRule : (beginText 0x02 1 [0x0D, 0x0A] rest).req.n = some 1 ∧
    (beginText 0x02 1 [0x0D, 0x0A] rest).req.inp = some [0x0D, 0x0A] ∧ 1 ≤ [(0x0D : CodeUnit), 0x0A].length :=
  ⟨rfl, rfl, by decide⟩

theorem witness_PaddingRule : ∃ s t : State, s.req.c = some 55 ∧ t.req.c = some 56 :=
  ⟨rest.setReq { rest.req with c := some 55 }, rest.setReq { rest.req with c := some 56 }, rfl, rfl⟩

/-- A block of 64 valid cells, the number of each cell as its byte. -/
def oneBlock : State :=
  rest.setReq { rest.req with
    cap := some 64
    h := some { a := 1, b := 2, c := 3, d := 4 }
    bb := (List.range 64).map fun i => (i, BitVec.ofNat 8 i) }

theorem witness_BlockLoadRule : oneBlock.req.cap = some 64 ∧ 64 * 0 + 64 ≤ 64 ∧
    oneBlock.req.h = some { a := 1, b := 2, c := 3, d := 4 } ∧
    ∀ i, i < 64 → oneBlock.req.bb.read (64 * 0 + i) = some (BitVec.ofNat 8 i) := ⟨rfl, by decide, rfl, by decide⟩

/-- A state before step `j`. -/
def atMd5Step (j : Nat) : State :=
  rest.setReq { rest.req with
    j := some (BitVec.ofNat 6 j)
    w := some { a := 1, b := 2, c := 3, d := 4 }
    x := some (List.replicate 16 0) }

theorem witness_Md5StepRule : ∀ j, j = 0 ∨ j = 63 → j < 64 ∧ (atMd5Step j).req.j = some (BitVec.ofNat 6 j) ∧
    (atMd5Step j).req.w = some { a := 1, b := 2, c := 3, d := 4 } ∧
    (atMd5Step j).req.x = some (List.replicate 16 0) ∧ (List.replicate 16 (0 : Word)).length = 16 ∧
    (atMd5Step j).rom.kt = ktTable ∧ (atMd5Step j).rom.ks = ksTable := by
  rintro j (rfl | rfl) <;> exact ⟨by decide, rfl, rfl, rfl, rfl, rfl, rfl⟩

theorem witness_DigestRule : oneBlock.req.h = some { a := 1, b := 2, c := 3, d := 4 } := rfl

theorem witness_Md5SmallStepsAgree : rest.select = none ∧ rest.rom.kt = ktTable ∧ rest.rom.ks = ksTable ∧
    rest.rom.iv = ivTable ∧ ∃ t, md5Start 1 [0x61] rest = .ok t := ⟨rfl, rfl, rfl, rfl, exists_ok (by decide +kernel)⟩

/-- A datapath operation, a micro-op and a command. -/
theorem witness_ExecFrame : (∃ t, exec (.not 0) rest = .next t) ∧ (∃ t, exec (.addShl 0x61) (atStart 7) = .next t) ∧
    ∃ t, exec (.sign 0 []) rest = .next t := by
  obtain ⟨t, h, -⟩ := sign_empty
  exact ⟨⟨_, rfl⟩, ⟨_, rfl⟩, t, h⟩

theorem witness_StepKeepsInv : Inv State.reset ∧ ∃ t, step State.reset = .next t := by
  refine ⟨⟨by decide, ?_, ?_, rfl, ?_, ?_⟩, ⟨_, rfl⟩⟩
  · intro r h; cases h
  · intro u h; cases h
  · intro i b h; cases h
  · intro x h; cases h

theorem witness_StoresAreNeverWritten : ∃ t, Host.Core.run Sys2Proof.core 1 State.reset = .next t := ⟨_, rfl⟩

/-- Reset and a configuration command. -/
theorem witness_OnlyThreeMovesConfigure :
    (∃ s t : State, step s = .next t ∧ s.host = [.reset] ∧ (t.cfgM ≠ s.cfgM ∨ t.cfgS ≠ s.cfgS)) ∧
    ∃ s t : State, step s = .next t ∧ s.host = [.submit { cmd := 0x10, m := 1, sec := 2 }] ∧
      (t.cfgM ≠ s.cfgM ∨ t.cfgS ≠ s.cfgS) :=
  ⟨⟨{ restWith 1 2 with host := [.reset] }, _, rfl, rfl, .inl (by decide)⟩,
    ⟨{ rest with host := [.submit { cmd := 0x10, m := 1, sec := 2 }] }, _, rfl, rfl, .inl (by decide)⟩⟩

theorem witness_DutifulCoreNeverStops : AtRest { rest with host := [.submit { cmd := 0x01, n := 1, units := [0x61] }] } ∧
    ∀ r, HostMove.submit r ∈ [HostMove.submit { cmd := 0x01, n := 1, units := [0x61] }] → dutiful r := by
  refine ⟨⟨rfl, rfl, rfl, rfl, rfl⟩, fun r h => ?_⟩
  simp only [List.mem_cons, List.not_mem_nil, or_false, HostMove.submit.injEq] at h
  subst h
  rfl

/-- After reset, and after a faulted request; a move that configures nothing. -/
theorem witness_LaunchIsKept : Launch State.reset ∧
    Launch { State.reset with status := 3, response := some { code := 3, info := 0, result := .empty } } ∧
    ¬ configures (.submit { cmd := 0x01, n := 1, units := [0x61] }) := by
  refine ⟨⟨⟨rfl, rfl, rfl, rfl, rfl⟩, rfl, rfl, rfl, fun _ => rfl, fun r h => by cases h⟩,
    ⟨⟨rfl, rfl, rfl, rfl, rfl⟩, rfl, rfl, rfl, (fun h => by cases h), fun r h => by cases h; rfl⟩, ?_⟩
  rintro (h | ⟨r, h, hc⟩)
  · cases h
  · cases h
    exact absurd hc (by decide)

end Sys2Proof.Tests
end

section
/-! PROOFS. The family 10_state: what an instruction leaves unchanged (O54), what changes the configuration (O58), and
the reads that stop a micro-op (O17). -/

namespace Sys2Proof.Machine

open Sys2Proof.Safety

/-! ### Which language an instruction is encoded in -/

theorem encode_request_of_text {i : Instr} (h : (∃ n u, i = .sign n u) ∨ ∃ n u, i = .md5 n u) :
    ∃ r, encode i = .request r := by
  rcases h with ⟨n, u, rfl⟩ | ⟨n, u, rfl⟩
  · exact ⟨_, rfl⟩
  · exact ⟨_, rfl⟩

theorem encode_request_of_config {i : Instr} (h : (∃ m k, i = .setSecrets m k) ∨ ∃ text, i = .loadSecret text) :
    ∃ r, encode i = .request r := by
  rcases h with ⟨m, k, rfl⟩ | ⟨text, rfl⟩
  · exact ⟨_, rfl⟩
  · exact ⟨_, rfl⟩

/-- A decoded selection is a datapath operation (R83). -/
theorem encode_select_of_decode {x : Select} {i : Instr} (h : decode (.select x) = .ok i) :
    ∃ y, encode i = .select y := by
  simp only [decode, decodeSelect] at h
  split at h <;> cases h <;> exact ⟨_, rfl⟩

/-- Decoded program bytes are a micro-op (R75). -/
theorem encode_program_of_decode {bytes : List Byte} {i : Instr} (h : decode (.program bytes) = .ok i) :
    ∃ c, encode i = .program c := by
  have key : ∀ op dir amt, ∃ c, encode (microInstr op dir amt) = .program c := by
    intro op dir amt
    cases op <;> cases dir <;> exact ⟨_, rfl⟩
  simp only [decode, decodeProgram] at h
  split at h
  · cases h; exact key _ _ _
  · cases h

/-- A request decoded as a configuration command has its code (R80). -/
theorem cmd_of_decode_config {r : Request} {i : Instr} (h : decode (.request r) = .ok i)
    (hi : (∃ m k, i = .setSecrets m k) ∨ ∃ text, i = .loadSecret text) : r.cmd = 0x10 ∨ r.cmd = 0x11 := by
  by_contra hc
  obtain ⟨h10, h11⟩ := not_or.1 hc
  simp only [decode, decodeRequest, h10, h11, if_false] at h
  rcases hi with ⟨m, k, rfl⟩ | ⟨text, rfl⟩ <;> split_ifs at h <;> cases h

/-! ### The frame of an instruction, read off its ends -/

theorem completed_respond_writeSecrets (m k : Word) (s : State) :
    Completed .empty s (respond .empty (writeSecrets m k s)) := ⟨rfl, rfl, rfl, rfl, rfl, rfl, rfl, rfl⟩

theorem Ends.outside {i : Instr} {s t : State} (h : Ends i s t) :
    t.rom = s.rom ∧ t.params = s.params ∧ t.host = s.host ∧ t.select = s.select := by
  cases h <;> exact ⟨rfl, rfl, rfl, rfl⟩

/-- Only the two configuration commands change the configuration (R220). -/
theorem Ends.config_eq_or {i : Instr} {s t : State} (h : Ends i s t) :
    (t.cfgM = s.cfgM ∧ t.cfgS = s.cfgS) ∨ (∃ m k, i = .setSecrets m k) ∨ ∃ text, i = .loadSecret text := by
  cases h with
  | config m k hi => exact .inr hi
  | illegal | range | fault | micro | latch | text => exact .inl ⟨rfl, rfl⟩

/-- The end of a micro-op: `OPND`, `P` and `UPC` are written, or `IllegalMicroOp` is taken. -/
theorem Ends.micro_or_fault {i : Instr} {s t : State} (h : Ends i s t) {b : List Byte} (hi : encode i = .program b) :
    (∃ o p u, t = s.setReq { s.req with opnd := some o, p := some p, upc := some u }) ∨
      ∃ info, t = enterFault .illegalMicroOp info s := by
  cases h with
  | illegal info => exact .inr ⟨info, rfl⟩
  | micro o p u => exact .inl ⟨o, p, u + 3, rfl⟩
  | range _ hx | latch _ hx => obtain ⟨x, hx⟩ := hx; cases hi.symm.trans hx
  | fault _ _ hc | text _ hc => obtain ⟨r, hr⟩ := encode_request_of_text hc; cases hi.symm.trans hr
  | config _ _ hc => obtain ⟨r, hr⟩ := encode_request_of_config hc; cases hi.symm.trans hr

/-- The end of a datapath operation: a result latched, or `ShiftRange` taken. -/
theorem Ends.latch_or_fault {i : Instr} {s t : State} (h : Ends i s t) {x : Select} (hi : encode i = .select x) :
    (∃ w, t = s.setResult w) ∨ ∃ info, t = enterFault .shiftRange info s := by
  cases h with
  | range info => exact .inr ⟨info, rfl⟩
  | latch w => exact .inl ⟨w, rfl⟩
  | illegal _ hb | micro _ _ _ hb => obtain ⟨b, hb⟩ := hb; cases hi.symm.trans hb
  | fault _ _ hc | text _ hc => obtain ⟨r, hr⟩ := encode_request_of_text hc; cases hi.symm.trans hr
  | config _ _ hc => obtain ⟨r, hr⟩ := encode_request_of_config hc; cases hi.symm.trans hr

/-- The end of a command: completed, or a fault taken. -/
theorem Ends.completed_or_fault {i : Instr} {s t : State} (h : Ends i s t) {r : Request}
    (hi : encode i = .request r) : (∃ res, Completed res s t) ∨ ∃ f info, t = enterFault f info s := by
  cases h with
  | fault f info => exact .inr ⟨f, info, rfl⟩
  | text res => exact .inl ⟨res, completed_respond res s⟩
  | config m k => exact .inl ⟨.empty, completed_respond_writeSecrets m k s⟩
  | illegal _ hb | micro _ _ _ hb => obtain ⟨b, hb⟩ := hb; cases hi.symm.trans hb
  | range _ hx | latch _ hx => obtain ⟨x, hx⟩ := hx; cases hi.symm.trans hx

/-- Settles O54: every clause is read off the listed ends of an instruction. -/
theorem execFrame : Obligations.ExecFrame := by
  intro i s t h
  have he := exec_ends h
  obtain ⟨hrom, hparams, hhost, hselect⟩ := he.outside
  refine ⟨hrom, hparams, hhost, hselect, ?config, ?program, ?select, ?request⟩
  case config =>
    intro hset hload
    rcases he.config_eq_or with hc | ⟨m, k, hi⟩ | ⟨text, hi⟩
    · exact hc
    · exact absurd hi (hset m k)
    · exact absurd hi (hload text)
  case program =>
    rintro ⟨b, hi⟩
    rcases he.micro_or_fault hi with ⟨o, p, u, rfl⟩ | ⟨info, rfl⟩
    · exact .inl ⟨o, p, u, rfl, fun _ => rfl⟩
    · exact .inr ⟨info, faultTaken_enterFault .illegalMicroOp info s⟩
  case select =>
    rintro ⟨x, hi⟩
    rcases he.latch_or_fault hi with ⟨w, rfl⟩ | ⟨info, rfl⟩
    · exact .inl ⟨w, rfl⟩
    · exact .inr ⟨info, faultTaken_enterFault .shiftRange info s⟩
  case request =>
    rintro ⟨r, hi⟩
    rcases he.completed_or_fault hi with ⟨res, hc⟩ | ⟨f, info, rfl⟩
    · exact ⟨hc.result, hc.idle, .inl ⟨res, hc⟩⟩
    · exact ⟨rfl, rfl, .inr ⟨faultNumber f, info, faultTaken_enterFault f info s, faultNumber_range f⟩⟩

/-! ### What changes the configuration -/

theorem config_of_exec {i : Instr} {s t : State} (h : exec i s = .next t) (hc : t.cfgM ≠ s.cfgM ∨ t.cfgS ≠ s.cfgS) :
    (∃ m k, i = .setSecrets m k) ∨ ∃ text, i = .loadSecret text := by
  rcases (exec_ends h).config_eq_or with ⟨hm, hs⟩ | hi
  · exact (hc.elim (· hm) (· hs)).elim
  · exact hi

/-- A turn of a request in flight keeps the configuration (R21). -/
theorem TurnEnds.config_eq {s t : State} (h : TurnEnds s t) : t.cfgM = s.cfgM ∧ t.cfgS = s.cfgS := by
  rcases h with ⟨f, info, rfl⟩ | ⟨res, rfl, -⟩ | ⟨r, rfl, -⟩ <;> exact ⟨rfl, rfl⟩

/-- Settles O58, by cases on what the step did: a selection, a micro-op or a turn runs no configuration command, and a
request that does has its code. -/
theorem onlyThreeMovesConfigure : Obligations.OnlyThreeMovesConfigure := by
  intro s t h hc
  cases step_ends h with
  | select x i hs hd he =>
    obtain ⟨y, hy⟩ := encode_select_of_decode hd
    obtain ⟨r, hr⟩ := encode_request_of_config (config_of_exec he hc)
    cases hy.symm.trans hr
  | program i b hs hp hd he =>
    obtain ⟨c, hb⟩ := encode_program_of_decode hd
    obtain ⟨r, hr⟩ := encode_request_of_config (config_of_exec he hc)
    cases hb.symm.trans hr
  | turn hs hp ht =>
    obtain ⟨hm, hk⟩ := ht.config_eq
    exact (hc.elim (· hm) (· hk)).elim
  | wait hs hp hh ht => subst ht; exact (hc.elim (· rfl) (· rfl)).elim
  | unknown r rest hs hp hh ht => subst ht; exact (hc.elim (· rfl) (· rfl)).elim
  | reset rest hs hp hh ht => exact ⟨hs, hp, .inl ⟨rest, hh⟩⟩
  | request r rest i hs hp hh hd he =>
    exact ⟨hs, hp, .inr ⟨r, rest, hh, cmd_of_decode_config hd (config_of_exec he hc)⟩⟩

/-! ### The reads that stop a micro-op -/

theorem amount_eq_some_iff (c : Byte) (n : Nat) : amount c = some n ↔ Reference.AmountIs c n := by
  unfold amount Reference.AmountIs
  split_ifs <;> simp only [Option.some.injEq, false_iff] <;> omega

theorem amount_eq_none_iff (c : Byte) : amount c = none ↔ Reference.AmountReserved c := by
  simp only [Option.eq_none_iff_forall_ne_some, ne_eq, amount_eq_some_iff, Reference.AmountReserved]

/-- The four micro-ops are `runMicroOp` at their operation and direction. -/
theorem exec_eq_runMicroOp {amt : Byte} {i : Instr}
    (hi : i = .addShr amt ∨ i = .addShl amt ∨ i = .xorShr amt ∨ i = .xorShl amt) (s : State) :
    ∃ op dir, exec i s = outcome (runMicroOp op dir amt s) := by
  rcases hi with rfl | rfl | rfl | rfl
  · exact ⟨.add, .shr, rfl⟩
  · exact ⟨.add, .shl, rfl⟩
  · exact ⟨.xor, .shr, rfl⟩
  · exact ⟨.xor, .shl, rfl⟩

section
variable {amt : Byte} {s : State} (op : MicroOp) (dir : MicroDir)

/-- With a legal amount, `P` is read first. -/
theorem runMicroOp_unwritten_p {n : Nat} (hn : amount amt = some n) (hp : s.req.p = none) :
    runMicroOp op dir amt s = .error (.fault (.unwrittenRead .p)) := by
  simp [runMicroOp, amountOperand, hn, hp]

theorem runMicroOp_unwritten_upc {n : Nat} (hn : amount amt = some n) {p : Word} (hp : s.req.p = some p)
    (hu : s.req.upc = none) : runMicroOp op dir amt s = .error (.fault (.unwrittenRead .upc)) := by
  simp [runMicroOp, amountOperand, hn, hp, hu]

/-- With a reserved amount, the `INFO` word of the fault reads `PSEL` first. -/
theorem runMicroOp_reserved_unwritten_psel (hn : amount amt = none) (hx : s.req.psel = none) :
    runMicroOp op dir amt s = .error (.fault (.unwrittenRead .psel)) := by
  simp [runMicroOp, amountOperand, microInfo, hn, hx]

theorem runMicroOp_reserved_unwritten_upc (hn : amount amt = none) {x : Prog} (hx : s.req.psel = some x)
    (hu : s.req.upc = none) : runMicroOp op dir amt s = .error (.fault (.unwrittenRead .upc)) := by
  simp [runMicroOp, amountOperand, microInfo, hn, hx, hu]

end

/-- Settles O17: one clause for each order in which the amount and the elements are read. -/
theorem unwrittenReadStops : Obligations.UnwrittenReadStops := by
  intro amt i s hi
  obtain ⟨op, dir, he⟩ := exec_eq_runMicroOp hi s
  simp only [he, ← amount_eq_some_iff, ← amount_eq_none_iff]
  refine ⟨?_, ?_, fun hn hx => ?_, fun hn hx hu => ?_⟩
  · rintro ⟨n, hn⟩ hp
    rw [runMicroOp_unwritten_p op dir hn hp, outcome_fault]
  · rintro ⟨n, hn⟩ hp hu
    obtain ⟨p, hp⟩ := Option.ne_none_iff_exists'.1 hp
    rw [runMicroOp_unwritten_upc op dir hn hp hu, outcome_fault]
  · rw [runMicroOp_reserved_unwritten_psel op dir hn hx, outcome_fault]
  · obtain ⟨x, hx⟩ := Option.ne_none_iff_exists'.1 hx
    rw [runMicroOp_reserved_unwritten_upc op dir hn hx hu, outcome_fault]

end Sys2Proof.Machine
end

section
/-! PROOFS. The family 20_memory: the read outside `IN` of a record shorter than `N` (O35), and the stores and
parameters that no step writes (O57). -/

namespace Sys2Proof.Machine

/-! ### The programs the check admits -/

/-- Every micro-op of the bytes, at offsets 0, 3, 6, ..., has a legal amount byte (R76). -/
def AmountsLegal (bytes : List Byte) : Prop :=
  ∀ k c2, bytes[3 * k + 2]? = some c2 → ∃ n, Reference.AmountIs c2 n

theorem amount_isSome_iff (c : Byte) : (amount c).isSome = true ↔ ∃ n, Reference.AmountIs c n := by
  simp only [Option.isSome_iff_exists, amount_eq_some_iff]

theorem amountsLegal_of_length_lt {bytes : List Byte} (h : bytes.length < 3) : AmountsLegal bytes := by
  intro k c2 hk
  rw [List.getElem?_eq_none (by omega)] at hk
  cases hk

theorem amountsLegal_cons_iff (c0 c1 c2 : Byte) (rest : List Byte) :
    AmountsLegal (c0 :: c1 :: c2 :: rest) ↔ (∃ n, Reference.AmountIs c2 n) ∧ AmountsLegal rest := by
  constructor
  · exact fun h => ⟨h 0 c2 rfl, fun k c hk => h (k + 1) c hk⟩
  · rintro ⟨h2, hrest⟩ k c hk
    cases k with
    | zero => cases hk; exact h2
    | succ k => exact hrest k c hk

theorem firstReserved_eq_none_iff (bytes : List Byte) (t : Nat) :
    firstReserved bytes t = none ↔ AmountsLegal bytes := by
  induction bytes, t using firstReserved.induct with
  | case1 t c0 c1 c2 rest hc ih =>
    rw [firstReserved, if_pos hc, ih, amountsLegal_cons_iff]
    exact (and_iff_right ((amount_isSome_iff c2).1 hc)).symm
  | case2 t c0 c1 c2 rest hc =>
    rw [firstReserved, if_neg hc, amountsLegal_cons_iff, ← amount_isSome_iff]
    simp [hc]
  | case3 bytes t hshort =>
    have hlen : bytes.length < 3 := by
      match bytes, hshort with
      | [], _ => decide
      | [_], _ => simp
      | [_, _], _ => simp
      | c0 :: c1 :: c2 :: rest, hshort => exact (hshort c0 c1 c2 rest rfl).elim
    simp [firstReserved, amountsLegal_of_length_lt hlen]

theorem wellFormedProgram_iff (bytes : List Byte) : Reference.WellFormedProgram bytes ↔
    ¬ (bytes.length = 0 ∨ bytes.length % 3 ≠ 0) ∧ AmountsLegal bytes := by
  constructor
  · rintro ⟨hlen, hmod, hlegal⟩
    exact ⟨by omega, fun k c2 hk => hlegal k c2 (List.getElem?_eq_some_iff.1 hk).1 hk⟩
  · rintro ⟨hlen, hlegal⟩
    exact ⟨by omega, by omega, fun k c2 _ hk => hlegal k c2 hk⟩

/-- The program check passes exactly the programs R76 calls well-formed (R211). -/
theorem programProblem_eq_none_iff (prog : Nat) (bytes : List Byte) :
    programProblem prog bytes = none ↔ Reference.WellFormedProgram bytes := by
  rw [wellFormedProgram_iff, ← firstReserved_eq_none_iff bytes 0]
  unfold programProblem
  split
  case isTrue h => exact iff_of_false (Option.some_ne_none _) fun hw => hw.1 h
  case isFalse h =>
    rw [and_iff_right h]
    cases firstReserved bytes 0 <;> simp

/-! ### A record shorter than `N` -/

/-- `IN[0..N-1]` of a record with fewer units has an element outside `IN` (R51). -/
theorem readInput_short {s : State} {n : Nat} {units : List CodeUnit} (hn : s.req.n = some n)
    (hi : s.req.inp = some units) (h : units.length < n) :
    readInput s = .error (.fault (.outsideSpace .inp 0)) := by
  simp [readInput, hn, hi, memRead, Nat.not_le.2 h]

section
variable {s : State} {n : Nat} {units : List CodeUnit}

theorem execSign_short (hA : programProblem 0 s.rom.progA = none) (hB : programProblem 1 s.rom.progB = none)
    (hmax : n ≤ s.params.maxUnits) (h : units.length < n) :
    execSign n units s = .fault (.outsideSpace .inp 0) := by
  simp only [execSign, signStart, checkProgram_ok (x := .a) (s := beginText 0x01 n units s) hA,
    checkProgram_ok (x := .b) (s := beginText 0x01 n units s) hB,
    checkCapacity_ok (s := beginText 0x01 n units s) rfl hmax, truncateInput,
    readInput_short (s := beginText 0x01 n units s) rfl rfl h, ok_bind, error_bind, outcome_fault]

theorem execMd5_short (hmax : n ≤ s.params.maxUnits) (h : units.length < n) :
    execMd5 n units s = .fault (.outsideSpace .inp 0) := by
  simp only [execMd5, md5Start, checkCapacity_ok (s := beginText 0x02 n units s) rfl hmax, normaliseInput,
    readInput_short (s := beginText 0x02 n units s) rfl rfl h, ok_bind, error_bind, outcome_fault]

end

/-- Settles O35: the checks before the read pass, and the read of `IN` stops. -/
theorem shortRecordStops : Obligations.ShortRecordStops := by
  intro s n units hshort hmax
  constructor
  · intro hA hB
    exact execSign_short ((programProblem_eq_none_iff 0 _).2 hA) ((programProblem_eq_none_iff 1 _).2 hB) hmax hshort
  · exact execMd5_short hmax hshort

/-! ### What no step writes -/

theorem exec_keeps_stores {i : Instr} {s t : State} (h : exec i s = .next t) :
    t.rom = s.rom ∧ t.params = s.params := by
  obtain ⟨hrom, hparams, -⟩ := (exec_ends h).outside
  exact ⟨hrom, hparams⟩

theorem TurnEnds.keeps_stores {s t : State} (h : TurnEnds s t) : t.rom = s.rom ∧ t.params = s.params := by
  rcases h with ⟨f, info, rfl⟩ | ⟨res, rfl, -⟩ | ⟨r, rfl, -⟩ <;> exact ⟨rfl, rfl⟩

/-- The stores are read-only to every step, reset among them (R22, R64, R240). -/
theorem step_keeps_stores {s t : State} (h : step s = .next t) : t.rom = s.rom ∧ t.params = s.params := by
  cases step_ends h with
  | select x i _ _ he => exact (exec_keeps_stores he :)
  | request r rest i _ _ _ _ he => exact (exec_keeps_stores he :)
  | program i b _ _ _ he => exact exec_keeps_stores he
  | turn _ _ ht => exact ht.keeps_stores
  | wait _ _ _ ht => subst ht; exact ⟨rfl, rfl⟩
  | reset rest _ _ _ ht => subst ht; exact ⟨rfl, rfl⟩
  | unknown r rest _ _ _ ht => subst ht; exact ⟨rfl, rfl⟩

/-- A run that answers a state begins with a step that answers one. -/
theorem core_run_succ_eq_next {M : Host.Core} {k : Nat} {s t : M.State} (h : M.run (k + 1) s = .next t) :
    ∃ u, M.step s = .next u ∧ M.run k u = .next t := by
  cases hs : M.step s with
  | next u => exact ⟨u, rfl, core_run_succ M hs ▸ h⟩
  | fault r => simp [Host.Core.run, hs] at h
  | refused r => simp [Host.Core.run, hs] at h

/-- Settles O57, by induction on the number of steps. -/
theorem storesAreNeverWritten : Obligations.StoresAreNeverWritten := by
  intro k
  induction k with
  | zero =>
    intro s t h
    cases h
    exact ⟨rfl, rfl⟩
  | succ k ih =>
    intro s t h
    obtain ⟨u, hstep, hrun⟩ := core_run_succ_eq_next h
    obtain ⟨hrom, hparams⟩ := step_keeps_stores hstep
    obtain ⟨hrom', hparams'⟩ := ih u t hrun
    exact ⟨hrom'.trans hrom, hparams'.trans hparams⟩

end Sys2Proof.Machine
end

section
/-! PROOFS. The family 30_encoding: the decoder row by row (O16, O21, O24, O25), decoding after encoding (O22, O23), and
the steps that a code or an amount byte without a meaning ends (O15, O27, O28), with `SET_SECRETS` (O43). -/

namespace Sys2Proof.Machine

open Sys2Proof.Safety

/-! ### Amount bytes -/

/-- Settles O16, by the two readings of an amount byte proved for the micro-ops. -/
theorem amountBytes : Obligations.AmountBytes :=
  fun c2 => ⟨amount_eq_some_iff c2, amount_eq_none_iff c2⟩

/-- The `INFO` word of a program and an offset as a number (R210). -/
theorem pair16_eq_ofNat (hi lo : Nat) : pair16 hi lo = BitVec.ofNat 32 (65536 * hi + lo % 65536) := by
  apply BitVec.eq_of_toNat_eq
  have hlo : lo % 2 ^ 16 < 2 ^ 16 := Nat.mod_lt _ (by decide)
  simp only [pair16, BitVec.toNat_append, BitVec.toNat_ofNat]
  rw [← Nat.shiftLeft_add_eq_or_of_lt hlo, Nat.shiftLeft_eq]
  omega

theorem progNumber_mul (x : Prog) : 65536 * progNumber x = if x = .a then 0 else 65536 := by
  cases x <;> rfl

/-- Settles O15: the amount is read first, and a reserved one raises the fault from the state before. -/
theorem reservedAmountFault : Obligations.ReservedAmountFault := by
  intro amt i s x u hi hreserved hx hu
  obtain ⟨op, dir, he⟩ := exec_eq_runMicroOp hi s
  refine ⟨enterFault .illegalMicroOp (pair16 (progNumber x) u) s, ?_, ?_⟩
  · rw [he, runMicroOp_reserved ((amount_eq_none_iff amt).2 hreserved) hx hu]
    rfl
  · rw [← progNumber_mul, ← pair16_eq_ofNat]
    exact faultTaken_enterFault .illegalMicroOp _ s

/-! ### The rows of the opcode table -/

/-- Equal concatenations at one width are equal part by part. -/
theorem bitVec_append_eq_append_iff {m n : Nat} {a c : BitVec m} {b d : BitVec n} :
    a ++ b = c ++ d ↔ a = c ∧ b = d := by
  constructor
  · intro h
    have hb : b = d := by
      simpa only [BitVec.setWidth_append_eq_right] using congrArg (BitVec.setWidth n) h
    subst hb
    exact ⟨(BitVec.append_left_inj b).1 h, rfl⟩
  · rintro ⟨rfl, rfl⟩
    rfl

/-- A masked micro-op word is compared byte by byte (R70). -/
theorem maskedWord_eq_iff (c0 c1 c2 m0 m1 m2 v0 v1 v2 : Byte) :
    (c0 ++ c1 ++ c2 : BitVec 24) &&& (m0 ++ m1 ++ m2) = v0 ++ v1 ++ v2 ↔
      c0 &&& m0 = v0 ∧ c1 &&& m1 = v1 ∧ c2 &&& m2 = v2 := by
  simp only [BitVec.and_append, bitVec_append_eq_append_iff, and_assoc]

theorem byte_and_full (c : Byte) : c &&& 0xFF = c := BitVec.and_allOnes

section
variable (c0 c1 c2 : Byte)

theorem addShr_row :
    ((c0 ++ c1 ++ c2 : BitVec 24) &&& 0xFFFF00 == 0x2B2B00) = decide (c0 = charPlus ∧ c1 = charPlus) := by
  have h := maskedWord_eq_iff c0 c1 c2 0xFF 0xFF 0 0x2B 0x2B 0
  rw [byte_and_full, byte_and_full] at h
  exact decide_eq_decide.2 (h.trans (by simp [charPlus]))

theorem addShl_row : ((c0 ++ c1 ++ c2 : BitVec 24) &&& 0xFF0000 == 0x2B0000) = decide (c0 = charPlus) := by
  have h := maskedWord_eq_iff c0 c1 c2 0xFF 0 0 0x2B 0 0
  rw [byte_and_full] at h
  exact decide_eq_decide.2 (h.trans (by simp [charPlus]))

theorem xorShr_row : ((c0 ++ c1 ++ c2 : BitVec 24) &&& 0x00FF00 == 0x002B00) = decide (c1 = charPlus) := by
  have h := maskedWord_eq_iff c0 c1 c2 0 0xFF 0 0 0x2B 0
  rw [byte_and_full] at h
  exact decide_eq_decide.2 (h.trans (by simp [charPlus]))

theorem xorShl_row : ((c0 ++ c1 ++ c2 : BitVec 24) &&& 0x000000 == 0x000000) = true :=
  beq_iff_eq.2 BitVec.and_zero

theorem decode_program_cons (rest : List Byte) :
    decode (.program (c0 :: c1 :: c2 :: rest)) = .ok (microInstr (microOpOf c0) (microDirOf c1) c2) := rfl

end

/-- Settles O21: the row and the decoder's instruction are both chosen by whether each of the first two bytes is
`'+'`. -/
theorem microOpPriorityDecode : Obligations.MicroOpPriorityDecode := by
  intro c0 c1 c2 rest w rows
  refine ⟨?_, rfl, rfl, rfl⟩
  have hfind : rows.find? (fun row => w &&& row.1 == row.2.1) =
      if c0 = charPlus then if c1 = charPlus then rows[0] else rows[1]
      else if c1 = charPlus then rows[2] else rows[3] := by
    simp only [rows, w, List.find?, addShr_row, addShl_row, xorShr_row, xorShl_row]
    by_cases h0 : c0 = charPlus <;> by_cases h1 : c1 = charPlus <;> simp [h0, h1]
  rw [hfind, decode_program_cons, microOpOf, microDirOf]
  split_ifs <;> exact ⟨_, rfl, rfl⟩

/-! ### Decoding after encoding -/

/-- A micro-op has three program bytes, and they decode to it whatever follows (R70, R75). -/
theorem microOp_bytes {i : Instr} {bytes : List Byte} (h : encode i = .program bytes) :
    bytes.length = 3 ∧ ∀ rest, decode (.program (bytes ++ rest)) = .ok i := by
  cases i with
  | addShr | addShl | xorShr | xorShl => cases h; exact ⟨rfl, fun _ => rfl⟩
  | _ => cases h

theorem encodeMicroOps_cons {i : Instr} {bytes : List Byte} (h : encode i = .program bytes) (is : List Instr) :
    encodeMicroOps (i :: is) = bytes ++ encodeMicroOps is := by
  rw [encodeMicroOps, h]

/-- Each canonical code is the code of its own row and of no other, and no operand is looked at on the way, so every
instruction decodes from its encoding, well-formed or not (R74, R80, R83). -/
theorem decode_encode (i : Instr) : decode (encode i) = .ok i := by
  cases i <;> rfl

/-- Settles O22, from the same fact about every instruction. -/
theorem decodeEncode : Obligations.DecodeEncode := fun i _ => decode_encode i

/-- Settles O23, by induction on the micro-ops: the first takes three bytes, and the rest stand after it. -/
theorem programDecodesInOrder : Obligations.ProgramDecodesInOrder := by
  intro is hall
  induction is with
  | nil => exact ⟨rfl, fun k i hk => by simp at hk⟩
  | cons j is ih =>
    obtain ⟨⟨bytes, hj⟩, hrest⟩ := List.forall_mem_cons.1 hall
    obtain ⟨hlen, hdecode⟩ := ih hrest
    obtain ⟨h3, hhead⟩ := microOp_bytes hj
    rw [encodeMicroOps_cons hj]
    refine ⟨by simp only [List.length_append, List.length_cons, h3, hlen]; omega, fun k i hk => ?_⟩
    cases k with
    | zero => cases hk; exact hhead _
    | succ k =>
      have hdrop : (bytes ++ encodeMicroOps is).drop (3 * (k + 1)) = (encodeMicroOps is).drop (3 * k) := by
        rw [show 3 * (k + 1) = bytes.length + 3 * k by omega, List.drop_length_add_append]
      rw [hdrop]
      exact hdecode k i hk

/-! ### Command codes and select codes -/

theorem decode_request_unknown {r : Request} (h1 : r.cmd ≠ 0x01) (h2 : r.cmd ≠ 0x02) (h3 : r.cmd ≠ 0x10)
    (h4 : r.cmd ≠ 0x11) : decode (.request r) = .error (.unknownCommand r.cmd) := by
  simp only [decode, decodeRequest, h1, h2, h3, h4, if_false]

theorem decode_select_reserved {x : Select} (h : 12 ≤ x.sel.toNat) :
    decode (.select x) = .error (.reservedSelect x.sel) := by
  simp only [decode, decodeSelect]
  split
  case h_13 => rfl
  all_goals omega

/-- Settles O24, one clause for each code. -/
theorem commandAndSelectCodes : Obligations.CommandAndSelectCodes := by
  refine ⟨fun r => ⟨fun h => ?_, fun h => ?_, fun h => ?_, fun h => ?_, decode_request_unknown⟩,
    fun x => decode_select_reserved⟩
  all_goals simp [decode, decodeRequest, h]

/-- Settles O25: closed instances of the decoder. -/
theorem literalWordsDecode : Obligations.LiteralWordsDecode :=
  ⟨rfl, rfl, rfl, rfl, rfl, rfl, rfl, rfl, rfl, rfl, rfl, rfl, rfl, rfl⟩

/-! ### Steps whose code has no operation -/

theorem step_select_refused {s : State} {x : Select} (hs : s.select = some x) {e : DecodeRefusal}
    (hd : decode (.select x) = .error e) : step s = .refused (.reservedSelect x.sel) := by
  simp only [step, fetch, hs, fetchSelect, hd]

theorem step_submit_unknown {s : State} {r : Request} {rest : List HostMove} (hs : s.select = none)
    (hp : s.phase = .idle) (hh : s.host = .submit r :: rest) {e : DecodeRefusal}
    (hd : decode (.request r) = .error e) :
    step s = .next (enterFault .unknownCommand (r.cmd.zeroExtend 32) { s with host := rest }) := by
  simp only [step, fetch, hs, hp, fetchHost, hh, fetchRequest, hd]

/-- Settles O27: the code does not decode, so the fetch takes the fault with the move consumed. -/
theorem unknownCommandFault : Obligations.UnknownCommandFault := by
  intro s r rest hs hp hh h1 h2 h3 h4
  refine ⟨_, step_submit_unknown hs hp hh (decode_request_unknown h1 h2 h3 h4), ?_, rfl⟩
  rw [BitVec.ofNat_toNat]
  exact faultTaken_enterFault .unknownCommand _ _

/-- Settles O28: the select code does not decode. -/
theorem reservedSelectRefused : Obligations.ReservedSelectRefused :=
  fun _ _ hs h => step_select_refused hs (decode_select_reserved h)

/-! ### The secrets -/

/-- `SET_SECRETS` responds on the state with both secrets written: what the request wrote is discarded (R81, R249). -/
theorem exec_setSecrets (m k : Word) (s : State) :
    exec (.setSecrets m k) s = .next (respond .empty (writeSecrets m k s)) := rfl

/-- Settles O43: the response is a completed one, on the state with the secrets written. -/
theorem setSecretsRule : Obligations.SetSecretsRule :=
  fun m k s => ⟨_, exec_setSecrets m k s, completed_respond_writeSecrets m k s, rfl, rfl⟩

end Sys2Proof.Machine
end

section
/-! PROOFS. The family 40_int32_alu: each word function is the 32-bit machine operation (O9), the modular sum (O10), and
the datapath operations from WADD to NOT (O1 to O7). -/

namespace Sys2Proof.Machine

open Sys2Proof.Safety

/-! ### The two wraps of R10 -/

theorem wrap32_natCast (x : Nat) : wrap32 x = trunc32 x := BitVec.ofInt_natCast 32 x

theorem trunc32_u32 (a : Word) : trunc32 (u32 a) = a := by rw [trunc32, BitVec.ofNat_toNat, BitVec.setWidth_eq]

theorem u32_trunc32 (x : Nat) : u32 (trunc32 x) = x % 4294967296 := BitVec.toNat_ofNat x 32

/-- `wrap32` keeps the signed reading modulo 2^32. -/
theorem dvd_s32_wrap32_sub (x : Int) : (4294967296 : Int) ∣ s32 (wrap32 x) - x := by
  rw [wrap32, s32, BitVec.toInt_ofInt]
  exact Int.dvd_bmod_sub_self

theorem s32_wrap32 {x : Int} (h0 : -2147483648 ≤ x) (h1 : x ≤ 2147483647) : s32 (wrap32 x) = x :=
  BitVec.toInt_ofInt_eq_self (by decide) h0 (Int.lt_add_one_of_le h1)

/-! ### The word functions as machine operations -/

section
variable (a b : Word)

theorem wrappingAdd_eq : wrappingAdd a b = a + b := by
  rw [wrappingAdd, wrap32, BitVec.ofInt_add, BitVec.ofInt_toInt, BitVec.ofInt_toInt]

theorem xor32_eq : xor32 a b = a ^^^ b := by rw [xor32, ← BitVec.toNat_xor, trunc32_u32]

theorem and32_eq : and32 a b = a &&& b := by rw [and32, ← BitVec.toNat_and, trunc32_u32]

theorem or32_eq : or32 a b = a ||| b := by rw [or32, ← BitVec.toNat_or, trunc32_u32]

theorem not32_eq : not32 a = ~~~a := by
  rw [← BitVec.xor_allOnes, ← xor32_eq]
  rfl

theorem trunc32_shiftLeft (n : Nat) : trunc32 (u32 a <<< n) = a <<< n :=
  BitVec.eq_of_toNat_eq (by rw [BitVec.toNat_shiftLeft]; exact u32_trunc32 _)

theorem trunc32_shiftRight (n : Nat) : trunc32 (u32 a >>> n) = a >>> n := by
  rw [← BitVec.toNat_ushiftRight, trunc32_u32]

theorem shiftLeft_natCast {n : Nat} (h : n ≤ 31) : shiftLeft a n = some (a <<< n) := by
  rw [shiftLeft, if_pos (by omega), Int.toNat_natCast, trunc32_shiftLeft]

theorem unsignedShiftRight_natCast {n : Nat} (h : n ≤ 31) : unsignedShiftRight a n = some (a >>> n) := by
  rw [unsignedShiftRight, if_pos (by omega), if_pos (by omega), Int.toNat_natCast, wrap32_natCast, trunc32_shiftRight]

/-- The branch of R93 for a negative amount. -/
theorem unsignedShiftRight_of_neg {n : Int} (h0 : -31 ≤ n) (h1 : n < 0) :
    unsignedShiftRight a n = some (wrap32 (-((u32 a <<< (-n).toNat : Nat) : Int))) := by
  rw [unsignedShiftRight, if_pos (by omega), if_neg (by omega)]

theorem unsignedShiftRight_neg_natCast {n : Nat} (h0 : 1 ≤ n) (h1 : n ≤ 31) :
    unsignedShiftRight a (-n) = some (-(a <<< n)) := by
  rw [unsignedShiftRight_of_neg a (by omega) (by omega), Int.neg_neg, Int.toNat_natCast, wrap32, BitVec.ofInt_neg,
    BitVec.ofInt_natCast, ← trunc32_shiftLeft, trunc32]

theorem shiftLeft_eq_none {n : Int} (h : n < 0 ∨ 31 < n) : shiftLeft a n = none := by
  rw [shiftLeft, if_neg (by omega)]

theorem unsignedShiftRight_eq_none {n : Int} (h : n < -31 ∨ 31 < n) : unsignedShiftRight a n = none := by
  rw [unsignedShiftRight, if_neg (by omega)]

theorem rotl_natCast {n : Nat} (h0 : 1 ≤ n) (h1 : n ≤ 31) : rotl a n = a.rotateLeft n := by
  have hright : (32 - (n : Int)).toNat = 32 - n := by omega
  rw [rotl, if_pos (by omega), Int.toNat_natCast, hright, trunc32, BitVec.ofNat_or, BitVec.rotateLeft_def,
    Nat.mod_eq_of_lt (by omega), ← trunc32_shiftLeft, ← trunc32_shiftRight, trunc32, trunc32]

/-- Bit `i` goes to bit `(i + n) mod 32` (R96). -/
theorem getLsbD_rotateLeft_add_mod {n i : Nat} (hn : n < 32) (hi : i < 32) :
    (a.rotateLeft n).getLsbD ((i + n) % 32) = a.getLsbD i := by
  rw [BitVec.getLsbD_rotateLeft, Nat.mod_eq_of_lt hn]
  by_cases hwrap : i + n < 32
  · rw [Nat.mod_eq_of_lt hwrap]
    simp [hwrap]
  · have hmod : (i + n) % 32 = i + n - 32 := by omega
    have hbelow : i + n - 32 < n := by omega
    have hback : 32 - n + (i + n - 32) = i := by omega
    simp [hmod, hbelow, hback]

/-- The complement is `-a - 1` (R99). -/
theorem not_eq_wrap32 : ~~~a = wrap32 (-s32 a - 1) := by
  rw [wrap32, Int.sub_eq_add_neg, BitVec.ofInt_add, BitVec.ofInt_neg, BitVec.ofInt_toInt, BitVec.not_eq_neg_add,
    BitVec.sub_eq_add_neg]
  rfl

end

/-- Settles O9, one word function after the other. -/
theorem primitivesAreMachineOperations : Obligations.PrimitivesAreMachineOperations :=
  fun a b => ⟨wrappingAdd_eq a b, xor32_eq a b, fun _ h => shiftLeft_natCast a h,
    fun _ h => unsignedShiftRight_natCast a h, fun _ h0 h1 => unsignedShiftRight_neg_natCast a h0 h1⟩

/-! ### The modular sum -/

theorem u32_modularSum (ws : List Word) : u32 (modularSum ws) = (ws.map u32).sum % 4294967296 := u32_trunc32 _

theorem modularSum_cons (w : Word) (ws : List Word) : modularSum (w :: ws) = w + modularSum ws := by
  have hadd : trunc32 (u32 w + (ws.map u32).sum) = trunc32 (u32 w) + modularSum ws := BitVec.ofNat_add _ _
  rw [modularSum, List.map_cons, List.sum_cons, hadd, trunc32_u32]

theorem modularSum_singleton (w : Word) : modularSum [w] = w := trunc32_u32 w

theorem foldl_wrappingAdd (vs : List Word) (w : Word) : vs.foldl wrappingAdd w = modularSum (w :: vs) := by
  induction vs generalizing w with
  | nil => exact (modularSum_singleton w).symm
  | cons v vs ih =>
    rw [List.foldl_cons, ih, wrappingAdd_eq]
    simp only [modularSum_cons, BitVec.add_assoc]

theorem modularSum_perm {vs ws : List Word} (h : vs.Perm ws) : modularSum vs = modularSum ws := by
  rw [modularSum, modularSum, (h.map u32).sum_nat]

/-- Settles O10: the fold is the modular sum of its words, which their order does not change. -/
theorem modularSumInAnyOrder : Obligations.ModularSumInAnyOrder :=
  fun ws => ⟨u32_modularSum ws, fun w vs h => (foldl_wrappingAdd vs w).trans (modularSum_perm h)⟩

/-! ### The datapath operations -/

/-- A shift with a result latches it. -/
theorem deliverShift_of_some {r : Option Word} {w : Word} (h : r = some w) (n : Int) (s : State) :
    deliverShift r n s = .next (s.setResult w) := by
  rw [h]
  rfl

/-- A shift without a result takes `ShiftRange`. -/
theorem deliverShift_none (n : Int) (s : State) :
    deliverShift none n s = .next (enterFault .shiftRange (amountInfo n) s) := rfl

theorem exec_wadd (a b : Word) (s : State) : exec (.wadd a b) s = .next (s.setResult (wrappingAdd a b)) := rfl

theorem exec_xor (a b : Word) (s : State) : exec (.xor a b) s = .next (s.setResult (xor32 a b)) := rfl

theorem exec_and (a b : Word) (s : State) : exec (.and a b) s = .next (s.setResult (and32 a b)) := rfl

theorem exec_or (a b : Word) (s : State) : exec (.or a b) s = .next (s.setResult (or32 a b)) := rfl

theorem exec_not (a : Word) (s : State) : exec (.not a) s = .next (s.setResult (not32 a)) := rfl

theorem exec_rotl (a : Word) (n : Int) (s : State) : exec (.rotl a n) s = .next (s.setResult (rotl a n)) := rfl

theorem exec_shl (a : Word) (n : Int) (s : State) : exec (.shl a n) s = deliverShift (shiftLeft a n) n s := rfl

theorem exec_ushr (a : Word) (n : Int) (s : State) : exec (.ushr a n) s = deliverShift (unsignedShiftRight a n) n s :=
  rfl

/-- Settles O1: the sum of the signed readings wraps to the machine's sum. -/
theorem waddWrapsTheSum : Obligations.WaddWrapsTheSum := by
  intro ops s
  refine ⟨rfl, wrappingAdd ops.a ops.b, exec_wadd _ _ s, dvd_s32_wrap32_sub _, ?_⟩
  rw [wrappingAdd_eq]
  exact BitVec.toNat_add _ _

/-- Settles O2: each operation is the machine's, which is bit by bit. -/
theorem bitwiseOperations : Obligations.BitwiseOperations := by
  intro ops s
  refine ⟨⟨rfl, _, exec_xor _ _ s, fun i hi => ?xor⟩, ⟨rfl, _, exec_and _ _ s, fun i hi => ?and⟩,
    ⟨rfl, _, exec_or _ _ s, fun i hi => ?or⟩, rfl, _, exec_not _ s, fun i hi => ?not, ?complement⟩
  case xor => rw [xor32_eq, BitVec.getLsbD_xor, Bool.bne_eq_xor]
  case and => rw [and32_eq, BitVec.getLsbD_and]
  case or => rw [or32_eq, BitVec.getLsbD_or]
  case not => simp [not32_eq, hi]
  case complement =>
    rw [not32_eq, not_eq_wrap32]
    exact dvd_s32_wrap32_sub _

/-- Settles O3: a legal amount is a natural number, and the machine's shift multiplies by a power of two. -/
theorem shlLegalAmounts : Obligations.ShlLegalAmounts := by
  intro ops s h0 h31
  obtain ⟨k, hk⟩ := Int.eq_ofNat_of_zero_le h0
  have hshift : shiftLeft ops.a ops.n = some (ops.a <<< k) := by
    rw [hk]
    exact shiftLeft_natCast _ (by omega)
  refine ⟨rfl, _, (exec_shl _ _ s).trans (deliverShift_of_some hshift _ s), ?_⟩
  rw [hk, Int.toNat_natCast, ← Nat.shiftLeft_eq]
  exact BitVec.toNat_shiftLeft

/-- Settles O4, by the sign of the amount. -/
theorem ushrLegalAmounts : Obligations.UshrLegalAmounts := by
  intro ops s hlow hhigh
  refine ⟨rfl, ?_⟩
  rcases lt_or_ge ops.n 0 with hneg | hpos
  · have hshift := unsignedShiftRight_of_neg ops.a hlow hneg
    refine ⟨_, (exec_ushr _ _ s).trans (deliverShift_of_some hshift _ s), fun h => by omega, fun _ => ?_⟩
    have hshifted : ((u32 ops.a <<< (-ops.n).toNat : Nat) : Int) = u32 ops.a * 2 ^ (-ops.n).toNat := by
      simp [Nat.shiftLeft_eq]
    rw [hshifted, ← Int.sub_neg]
    exact dvd_s32_wrap32_sub _
  · obtain ⟨k, hk⟩ := Int.eq_ofNat_of_zero_le hpos
    have hshift : unsignedShiftRight ops.a ops.n = some (ops.a >>> k) := by
      rw [hk]
      exact unsignedShiftRight_natCast _ (by omega)
    refine ⟨_, (exec_ushr _ _ s).trans (deliverShift_of_some hshift _ s), fun _ => ?_, fun h => by omega⟩
    rw [hk, Int.toNat_natCast, ← Nat.shiftRight_eq_div_pow]
    exact BitVec.toNat_ushiftRight _ _

/-- The word of a `ShiftRange` fault is the amount (R210). -/
theorem amountInfo_correct (n : Int) : AmountInfo n (amountInfo n) :=
  fun h0 h1 => by rw [amountInfo_of_s32 h0 h1, s32_wrap32 h0 h1]

/-- A shift without a result, with the report of its fault. -/
theorem deliverShift_none_faultTaken (n : Int) (s : State) :
    ∃ t info, deliverShift none n s = .next t ∧ FaultTaken 4 info s t ∧ AmountInfo n info :=
  ⟨_, _, deliverShift_none n s, faultTaken_enterFault .shiftRange _ s, amountInfo_correct n⟩

/-- Settles O5: neither shift has a result outside its range. -/
theorem shiftRangeFault : Obligations.ShiftRangeFault := by
  intro a n s
  constructor
  · intro h
    rw [exec_shl, shiftLeft_eq_none a h]
    exact deliverShift_none_faultTaken n s
  · intro h
    rw [exec_ushr, unsignedShiftRight_eq_none a h]
    exact deliverShift_none_faultTaken n s

/-- Settles O6: a legal amount is a natural number, and the result is the machine's rotation. -/
theorem rotlLegalAmounts : Obligations.RotlLegalAmounts := by
  intro ops s h1 h31
  obtain ⟨k, hk⟩ := Int.eq_ofNat_of_zero_le (Int.le_trans Int.one_nonneg h1)
  refine ⟨rfl, _, exec_rotl _ _ s, fun i hi => ?_⟩
  rw [hk, rotl_natCast _ (by omega) (by omega), Int.toNat_natCast]
  exact getLsbD_rotateLeft_add_mod _ (by omega) hi

/-- Settles O7: ROTL completes for every amount. -/
theorem rotlOtherAmountsComplete : Obligations.RotlOtherAmountsComplete := fun a n s _ => ⟨_, exec_rotl a n s⟩

end Sys2Proof.Machine
end

section
/-! PROOFS. The family 41_utf8_expander: one class application (O30), the expansion of a text (O31), its agreement with
standard UTF-8 (O32), and line-end normalisation (O47). -/

namespace Sys2Proof.Machine

open Sys2Proof.Safety

/-! ### The classes' bytes as numbers -/

/-- A marker whose low bits are clear is added to the field below it. -/
theorem marker_or_field (a n hi lo : Nat) :
    a <<< (hi - lo + 1) ||| field n hi lo = a <<< (hi - lo + 1) + field n hi lo :=
  (Nat.shiftLeft_add_eq_or_of_lt (Nat.mod_lt _ (Nat.two_pow_pos _)) a).symm

/-- A continuation byte carries six bits (R113, R114, R115). -/
theorem continuation_eq (n lo : Nat) :
    byteOf (0x80 ||| field n (lo + 5) lo) = BitVec.ofNat 8 (128 + n / 2 ^ lo % 64) := by
  have h := marker_or_field 2 n (lo + 5) lo
  have hwidth : lo + 5 - lo + 1 = 6 := by omega
  rw [hwidth] at h
  rw [byteOf, show (0x80 : Nat) = 2 <<< 6 from rfl, h, field, hwidth]
  rfl

theorem utf8Two_eq {u : CodeUnit} (h : u.toNat < 0x800) :
    utf8Two u = [BitVec.ofNat 8 (192 + u.toNat / 64), BitVec.ofNat 8 (128 + u.toNat % 64)] := by
  have hlead : 0xC0 ||| field u.toNat 10 6 = 192 + u.toNat / 64 := by
    have hor : 0xC0 ||| field u.toNat 10 6 = 192 + field u.toNat 10 6 := marker_or_field 6 _ 10 6
    rw [hor, field]
    omega
  rw [utf8Two, hlead, continuation_eq _ 0, pow_zero, Nat.div_one]
  rfl

theorem utf8Three_eq (u : CodeUnit) :
    utf8Three u = [BitVec.ofNat 8 (224 + u.toNat / 4096), BitVec.ofNat 8 (128 + u.toNat / 64 % 64),
      BitVec.ofNat 8 (128 + u.toNat % 64)] := by
  have hlead : 0xE0 ||| field u.toNat 15 12 = 224 + u.toNat / 4096 := by
    have hor : 0xE0 ||| field u.toNat 15 12 = 224 + field u.toNat 15 12 := marker_or_field 14 _ 15 12
    rw [hor, field]
    omega
  rw [utf8Three, hlead, continuation_eq _ 6, continuation_eq _ 0, pow_zero, Nat.div_one]
  rfl

/-- A unit and the unit after it are a surrogate pair (R114). -/
def Pairs (u : CodeUnit) (next : Option CodeUnit) : Prop :=
  0xD800 ≤ u.toNat ∧ u.toNat ≤ 0xDBFF ∧ ∃ lo, next = some lo ∧ 0xDC00 ≤ lo.toNat ∧ lo.toNat ≤ 0xDFFF

theorem pairs_iff (u : CodeUnit) (next : Option CodeUnit) :
    (isHighSurrogate u && nextIsLow next) = true ↔ Pairs u next := by
  cases next <;> simp [Pairs, isHighSurrogate, isLowSurrogate, nextIsLow, and_assoc]

theorem pairs_some_iff (u lo : CodeUnit) : Pairs u (some lo) ↔
    55296 ≤ u.toNat ∧ u.toNat ≤ 56319 ∧ 56320 ≤ lo.toNat ∧ lo.toNat ≤ 57343 := by
  simp [Pairs]

theorem pairScalar_eq {hi lo : CodeUnit} (h : Pairs hi (some lo)) :
    pairScalar hi lo = 65536 + (hi.toNat - 55296) * 1024 + (lo.toNat - 56320) := by
  obtain ⟨hhi, hhi', hlo, hlo'⟩ := (pairs_some_iff hi lo).1 h
  simp only [pairScalar, field, Nat.shiftLeft_eq]
  omega

theorem utf8Four_eq {hi lo : CodeUnit} (h : Pairs hi (some lo)) : utf8Four hi lo = Reference.pairBytes hi lo := by
  obtain ⟨hhi, hhi', hlo, hlo'⟩ := (pairs_some_iff hi lo).1 h
  have hlead : 0xF0 ||| field (pairScalar hi lo) 20 18 = 240 + pairScalar hi lo / 262144 := by
    have hor : 0xF0 ||| field (pairScalar hi lo) 20 18 = 240 + field (pairScalar hi lo) 20 18 :=
      marker_or_field 30 _ 20 18
    rw [hor, field, pairScalar_eq h]
    omega
  rw [utf8Four, hlead, continuation_eq _ 12, continuation_eq _ 6, continuation_eq _ 0, pow_zero, Nat.div_one,
    pairScalar_eq h]
  rfl

/-! ### The bytes of a unit alone -/

section
variable {lone : LoneSurrogate} {u : CodeUnit} {v : Nat}

theorem unitBytes_one (h : u.toNat < 0x80) : Reference.unitBytes lone u v = .ok [BitVec.ofNat 8 u.toNat] := if_pos h

theorem unitBytes_two (h1 : 0x80 ≤ u.toNat) (h2 : u.toNat < 0x800) : Reference.unitBytes lone u v =
    .ok [BitVec.ofNat 8 (192 + u.toNat / 64), BitVec.ofNat 8 (128 + u.toNat % 64)] :=
  (if_neg (Nat.not_lt.2 h1)).trans (if_pos h2)

theorem unitBytes_three (h : 0x800 ≤ u.toNat) (hlone : ¬ (0xD800 ≤ u.toNat ∧ u.toNat ≤ 0xDFFF ∧ lone = .fault)) :
    Reference.unitBytes lone u v = .ok [BitVec.ofNat 8 (224 + u.toNat / 4096),
      BitVec.ofNat 8 (128 + u.toNat / 64 % 64), BitVec.ofNat 8 (128 + u.toNat % 64)] :=
  (if_neg (by omega)).trans ((if_neg (by omega)).trans (if_neg hlone))

theorem unitBytes_fault (h1 : 0xD800 ≤ u.toNat) (h2 : u.toNat ≤ 0xDFFF) :
    Reference.unitBytes .fault u v = .error v :=
  (if_neg (by omega)).trans ((if_neg (by omega)).trans (if_pos ⟨h1, h2, rfl⟩))

end

/-! ### The one class of a unit -/

section
variable {lone : LoneSurrogate} {u : CodeUnit} {next : Option CodeUnit}

theorem unitClass_of_pairs {lo : CodeUnit} (h : Pairs u (some lo)) :
    unitClass lone u (some lo) = some (Reference.pairBytes u lo, 2) := by
  have hhi := h.1
  unfold unitClass
  rw [if_neg (by omega), if_neg (by omega), if_pos ((pairs_iff u _).2 h), ← utf8Four_eq h]
  rfl

/-- The classes of R112, R113, R115 and R116, which look at one unit. -/
theorem unitClass_of_not_pairs (h : ¬ Pairs u next) (v : Nat) :
    (∃ bs, Reference.unitBytes lone u v = .ok bs ∧ unitClass lone u next = some (bs, 1)) ∨
      Reference.unitBytes lone u v = .error v ∧ unitClass lone u next = none := by
  have hsurrogate : (isHighSurrogate u || isLowSurrogate u) = decide (55296 ≤ u.toNat ∧ u.toNat ≤ 57343) := by
    rw [Bool.eq_iff_iff]
    simp only [isHighSurrogate, isLowSurrogate, Bool.or_eq_true, Bool.and_eq_true, decide_eq_true_eq]
    omega
  rw [← pairs_iff] at h
  simp only [unitClass, if_neg h, hsurrogate, utf8Three_eq]
  by_cases h1 : u.toNat < 128
  · exact .inl ⟨_, unitBytes_one h1, if_pos h1⟩
  rw [if_neg h1]
  by_cases h2 : u.toNat < 2048
  · rw [if_pos h2, utf8Two_eq h2]
    exact .inl ⟨_, unitBytes_two (Nat.not_lt.1 h1) h2, rfl⟩
  rw [if_neg h2]
  by_cases hs : 55296 ≤ u.toNat ∧ u.toNat ≤ 57343
  · cases lone with
    | fault => exact .inr ⟨unitBytes_fault hs.1 hs.2, by simp [hs]⟩
    | encode3 => exact .inl ⟨_, unitBytes_three (Nat.not_lt.1 h2) (by simp), by simp [hs]⟩
  · exact .inl ⟨_, unitBytes_three (Nat.not_lt.1 h2) (fun h => hs ⟨h.1, h.2.1⟩), by simp [hs]⟩

end

/-! ### One class application -/

section
variable {s : State} {tx : List CodeUnit} {u : CodeUnit} {v c cap : Nat}
  (htx : s.req.tx = some tx) (hv : s.req.v = some v) (hc : s.req.c = some c) (hu : tx[v]? = some u)
include htx hv hc hu

theorem expandUnit_single (hcap : s.req.cap = some cap) (hp : ¬ Pairs u tx[v + 1]?) {bs : List Byte}
    (hbs : Reference.unitBytes s.params.loneSurrogate u v = .ok bs) (hle : c + bs.length ≤ cap) :
    expandUnit s = .ok (s.setReq { s.req with
      bb := s.req.bb.writeMany c bs, v := some (v + 1), c := some (c + bs.length) }) := by
  rcases unitClass_of_not_pairs hp v with ⟨bs', hbs', hclass⟩ | ⟨herror, -⟩
  · cases hbs.symm.trans hbs'
    exact expandUnit_eq hv hc htx hu hclass hcap hle
  · cases hbs.symm.trans herror

theorem expandUnit_unpaired (hp : ¬ Pairs u tx[v + 1]?)
    (herror : Reference.unitBytes s.params.loneSurrogate u v = .error v) :
    expandUnit s = raise .invalidUnit (indexInfo v) s := by
  rcases unitClass_of_not_pairs hp v with ⟨bs, hbs, -⟩ | ⟨-, hclass⟩
  · cases hbs.symm.trans herror
  · exact expandUnit_raise hv hc htx hu hclass

end

/-- The word of an `InvalidUnit` fault is the index (R210). -/
theorem indexInfo_correct (v : Nat) : IndexInfo v (indexInfo v) := by
  intro h
  rw [indexInfo_of_le h, u32_trunc32, Nat.mod_eq_of_lt (by omega)]

/-- `InvalidUnit` raised inside a request, with the report of the fault. -/
theorem raise_invalidUnit_faultTaken {s u : State} (h : SameOutside s u) (v : Nat) :
    ∃ t info, outcome (raise .invalidUnit (indexInfo v) u) = .next t ∧ FaultTaken 3 info s t ∧ IndexInfo v info :=
  ⟨enterFault .invalidUnit (indexInfo v) s, _, congrArg _ (h.enterFault _ _),
    faultTaken_enterFault .invalidUnit _ s, indexInfo_correct v⟩

/-- Settles O30: a pair has its class, and every other unit the bytes or the fault of the unit alone. -/
theorem expanderClasses : Obligations.ExpanderClasses := by
  intro s tx u v c cap htx hv hc hcap hu x writes three paired
  have hsingle : ∀ {bs}, ¬ Pairs u tx[v + 1]? → Reference.unitBytes s.params.loneSurrogate u v = .ok bs →
      writes bs 1 := fun hp hbs hle => expandUnit_single htx hv hc hu hcap hp hbs hle
  have hhigh : Pairs u tx[v + 1]? → 0xD800 ≤ x ∧ x ≤ 0xDBFF := fun hp => ⟨hp.1, hp.2.1⟩
  refine ⟨fun h1 => ?one, fun h1 h2 => ?two, fun h1 h2 lo hnext hlo hlo' => ?four, fun h1 h2 => ?three,
    fun h1 h2 hunpaired => ?lone⟩
  case one => exact hsingle (fun hp => by have := hhigh hp; omega) (unitBytes_one h1)
  case two => exact hsingle (fun hp => by have := hhigh hp; omega) (unitBytes_two h1 h2)
  case four =>
    have hp : Pairs u (some lo) := ⟨h1, h2, lo, rfl, hlo, hlo'⟩
    intro k hle
    exact expandUnit_eq hv hc htx hu (hnext ▸ unitClass_of_pairs hp) hcap hle
  case three => exact hsingle (fun hp => by have := hhigh hp; omega) (unitBytes_three h1 (by omega))
  case lone =>
    have hp : ¬ Pairs u tx[v + 1]? := fun ⟨_, h, hlo⟩ => hunpaired ⟨h, hlo⟩
    constructor
    · intro hl
      exact hsingle hp (unitBytes_three (Nat.le_trans (by decide) h1) (by simp [hl]))
    · intro hl
      rw [expandUnit_unpaired htx hv hc hu hp (hl ▸ unitBytes_fault h1 h2)]
      exact raise_invalidUnit_faultTaken (SameOutside.refl s) v

/-! ### The expansion of a text -/

section
variable {lone : LoneSurrogate} {u : CodeUnit}

theorem utf8_of_pairs {lo : CodeUnit} (h : Pairs u (some lo)) (rest : List CodeUnit) (v : Nat) :
    Reference.utf8 lone (u :: lo :: rest) v =
      (Reference.utf8 lone rest (v + 2)).map (Reference.pairBytes u lo ++ ·) := by
  rw [Reference.utf8, if_pos ((pairs_some_iff u lo).1 h)]
  cases Reference.utf8 lone rest (v + 2) <;> rfl

theorem utf8_of_not_pairs {rest : List CodeUnit} (h : ¬ Pairs u rest.head?) (v : Nat) :
    Reference.utf8 lone (u :: rest) v =
      Reference.unitBytes lone u v >>= fun bs => (Reference.utf8 lone rest (v + 1)).map (bs ++ ·) := by
  cases rest with
  | nil =>
    simp only [Reference.utf8, Except.map, List.append_nil]
    cases Reference.unitBytes lone u v <;> rfl
  | cons lo rest =>
    rw [Reference.utf8, if_neg (mt (pairs_some_iff u lo).2 h)]
    cases Reference.unitBytes lone u v with
    | error k => rfl
    | ok bs => cases Reference.utf8 lone (lo :: rest) (v + 1) <;> rfl

end

/-- The classes applied along a text give the reference's bytes, and its fault (R119). -/
theorem expansion_eq_utf8 (lone : LoneSurrogate) :
    ∀ (units : List CodeUnit) (v : Nat), expansion lone units v = Reference.utf8 lone units v
  | [], _ => rfl
  | u :: rest, v => by
    rw [expansion_cons]
    by_cases hp : Pairs u rest.head?
    · obtain ⟨lo, hlo, -⟩ := hp.2.2
      obtain ⟨rest, rfl⟩ := List.head?_eq_some_iff.1 hlo
      rw [utf8_of_pairs hp, List.head?_cons, unitClass_of_pairs hp, ← expansion_eq_utf8 lone rest]
      rfl
    · rw [utf8_of_not_pairs hp, ← expansion_eq_utf8 lone rest]
      rcases unitClass_of_not_pairs hp v with ⟨bs, hbs, hclass⟩ | ⟨herror, hclass⟩
      · rw [hbs, hclass]
        rfl
      · rw [herror, hclass]
        rfl
termination_by units => units.length

/-- Settles O31: the loop writes the expansion of the text, which is the reference's. -/
theorem expanderWritesTheBytes : Obligations.ExpanderWritesTheBytes := by
  intro s tx
  have h := expand_writeText tx s
  rw [expansion_eq_utf8] at h
  cases hx : Reference.utf8 s.params.loneSurrogate tx 0 with
  | ok bytes =>
    rw [hx] at h
    obtain ⟨hlen, hexpand⟩ := h
    exact ⟨_, hexpand, expanded_read bytes, rfl, rfl, hlen, rfl, rfl, rfl⟩
  | error v =>
    rw [hx] at h
    obtain ⟨u, hu, hexpand⟩ := h
    rw [hexpand]
    exact raise_invalidUnit_faultTaken hu v

/-! ### Standard UTF-8 -/

/-- The standard's bytes of a character, as bytes of the machine. -/
def standardBytes (ch : Char) : List Byte := (String.utf8EncodeChar ch).map UInt8.toBitVec

/-- A character is a Unicode scalar value: no surrogate, and at most 0x10FFFF. -/
theorem char_toNat_scalar (ch : Char) : ch.toNat < 55296 ∨ 57343 < ch.toNat ∧ ch.toNat < 1114112 := ch.valid

theorem unitBytes_ofNat_char {ch : Char} (h : ch.toNat < 65536) (lone : LoneSurrogate) (v : Nat) :
    Reference.unitBytes lone (BitVec.ofNat 16 ch.toNat) v = .ok (standardBytes ch) := by
  have hx : (BitVec.ofNat 16 ch.toNat).toNat = ch.toNat := Nat.mod_eq_of_lt h
  have hscalar := char_toNat_scalar ch
  have hval : ch.val.toNat = ch.toNat := rfl
  rw [standardBytes, String.utf8EncodeChar, hval]
  by_cases h1 : ch.toNat < 0x80
  · rw [unitBytes_one (by omega), if_pos (by omega), hx]
    rfl
  by_cases h2 : ch.toNat < 0x800
  · have hlead : ch.toNat / 64 % 32 + 192 = 192 + ch.toNat / 64 := by omega
    rw [unitBytes_two (by omega) (by omega), if_neg (by omega), if_pos (by omega), hx, hlead, Nat.add_comm _ 128]
    rfl
  · have hlead : ch.toNat / 4096 % 16 + 224 = 224 + ch.toNat / 4096 := by omega
    rw [unitBytes_three (by omega) (by omega), if_neg (by omega), if_neg (by omega), if_pos (by omega), hx, hlead,
      Nat.add_comm _ 128, Nat.add_comm _ 128]
    rfl

/-- A character above 0xFFFF is a surrogate pair, whose scalar value is the character (R114). -/
theorem pairBytes_ofNat_char {ch : Char} (h : 65536 ≤ ch.toNat) {hi lo : CodeUnit}
    (hhi : hi = BitVec.ofNat 16 (55296 + (ch.toNat - 65536) / 1024))
    (hlo : lo = BitVec.ofNat 16 (56320 + (ch.toNat - 65536) % 1024)) :
    Pairs hi (some lo) ∧ Reference.pairBytes hi lo = standardBytes ch := by
  have hscalar := char_toNat_scalar ch
  have hx : hi.toNat = 55296 + (ch.toNat - 65536) / 1024 := by
    rw [hhi, BitVec.toNat_ofNat]
    omega
  have hy : lo.toNat = 56320 + (ch.toNat - 65536) % 1024 := by
    rw [hlo, BitVec.toNat_ofNat]
    omega
  refine ⟨(pairs_some_iff hi lo).2 (by omega), ?_⟩
  have hval : ch.val.toNat = ch.toNat := rfl
  have hcode : 65536 + (hi.toNat - 55296) * 1024 + (lo.toNat - 56320) = ch.toNat := by omega
  have hlead : ch.toNat / 262144 % 8 + 240 = 240 + ch.toNat / 262144 := by omega
  simp only [Reference.pairBytes]
  rw [hcode, standardBytes, String.utf8EncodeChar, hval, if_neg (by omega), if_neg (by omega), if_neg (by omega),
    hlead, Nat.add_comm _ 128, Nat.add_comm _ 128, Nat.add_comm _ 128]
  rfl

/-- The expansion of a character's units is its standard form (R122). -/
theorem utf8_utf16_append (lone : LoneSurrogate) (ch : Char) (rest : List CodeUnit) (v : Nat) :
    Reference.utf8 lone (Reference.utf16 ch ++ rest) v =
      (Reference.utf8 lone rest (v + (Reference.utf16 ch).length)).map (standardBytes ch ++ ·) := by
  unfold Reference.utf16
  split
  case isTrue h =>
    have hx : (BitVec.ofNat 16 ch.toNat).toNat = ch.toNat := Nat.mod_eq_of_lt h
    have hscalar := char_toNat_scalar ch
    have hp : ¬ Pairs (BitVec.ofNat 16 ch.toNat) rest.head? := by
      rintro ⟨h1, h2, -⟩
      omega
    rw [List.singleton_append, utf8_of_not_pairs hp, unitBytes_ofNat_char h]
    rfl
  case isFalse h =>
    obtain ⟨hp, hbytes⟩ := pairBytes_ofNat_char (Nat.not_lt.1 h) rfl rfl
    rw [List.cons_append, List.singleton_append, utf8_of_pairs hp, hbytes]
    rfl

theorem utf8_utf16 (lone : LoneSurrogate) (text : List Char) (v : Nat) :
    Reference.utf8 lone (text.flatMap Reference.utf16) v = .ok (text.flatMap standardBytes) := by
  induction text generalizing v with
  | nil => rfl
  | cons ch text ih =>
    rw [List.flatMap_cons, utf8_utf16_append, ih]
    rfl

/-- Settles O32: the expander writes the reference's bytes, which on characters are the standard's. -/
theorem expanderIsStandardUtf8 : Obligations.ExpanderIsStandardUtf8 := by
  intro s text
  have h := expanderWritesTheBytes s (text.flatMap Reference.utf16)
  rw [utf8_utf16] at h
  obtain ⟨t, hexpand, hread, -⟩ := h
  refine ⟨t, hexpand, fun i => ?_⟩
  rw [List.map_flatMap]
  exact hread i

/-! ### Line-end normalisation -/

@[simp] theorem normaliseUnits_nil : normaliseUnits [] = [] := rfl

/-- One turn of the scan (R118). -/
theorem normaliseUnits_cons (u : CodeUnit) (rest : List CodeUnit) : normaliseUnits (u :: rest) =
    if u = 13 ∧ rest.head? = some 10 then 10 :: normaliseUnits (rest.drop 1) else u :: normaliseUnits rest := by
  cases rest <;> simp [normaliseUnits]

/-- The scan from index `i` on appends the normalisation of the units from `i` on. -/
theorem normaliseFrom_eq (units : List CodeUnit) (fuel i : Nat) (tx : List CodeUnit) (hf : units.length ≤ i + fuel) :
    Reference.normaliseFrom fuel units i tx = tx ++ normaliseUnits (units.drop i) := by
  induction fuel generalizing i tx with
  | zero =>
    have hend : units.length ≤ i := hf
    simp [Reference.normaliseFrom, List.drop_eq_nil_of_le hend]
  | succ k ih =>
    rw [Reference.normaliseFrom]
    by_cases hi : i < units.length
    · have hnext : units[i + 1]? = (units.drop (i + 1)).head? := List.head?_drop.symm
      rw [List.getElem?_eq_getElem hi, List.drop_eq_getElem_cons hi, normaliseUnits_cons, hnext, List.drop_drop]
      simp only [ih _ _ (show units.length ≤ i + 1 + k by omega), ih _ _ (show units.length ≤ i + 2 + k by omega)]
      split_ifs <;> simp
    · have hend : units.length ≤ i := Nat.not_lt.1 hi
      simp [List.getElem?_eq_none hend, List.drop_eq_nil_of_le hend]

theorem normaliseUnits_eq (units : List CodeUnit) : normaliseUnits units = Reference.normalise units := by
  rw [Reference.normalise, normaliseFrom_eq units _ 0 [] (by omega)]
  rfl

/-- Settles O47: the units read are the first `N`, and the text written is the reference's. -/
theorem normalisationRule : Obligations.NormalisationRule := by
  intro s n inp hn hinp hle
  rw [← normaliseUnits_eq, normaliseInput, readInput_ok hn hinp hle]
  rfl

end Sys2Proof.Machine
end

section
/-! PROOFS. The family 42_checksum_microops: what each micro-op writes (O11 to O14), what a step runs (O26), the
sequencer on a whole program (O18, O19), and the small steps of a `SIGN` (O42). -/

namespace Sys2Proof.Machine

open Sys2Proof.Safety

/-! ### The values of a micro-op -/

theorem microOpOf_of_ne {c0 : Byte} (h : c0 ≠ 0x2B) : microOpOf c0 = .xor := if_neg h

theorem microDirOf_of_ne {c1 : Byte} (h : c1 ≠ 0x2B) : microDirOf c1 = .shl := if_neg h

theorem combine_add (p o : Word) : combine .add p o = p + o := wrappingAdd_eq p o

theorem combine_xor (p o : Word) : combine .xor p o = p ^^^ o := xor32_eq p o

theorem shiftedValue_shl (p : Word) (n : Nat) : shiftedValue .shl p n = p <<< n := trunc32_shiftLeft p n

theorem shiftedValue_shr (p : Word) (n : Nat) : shiftedValue .shr p n = p >>> n :=
  (wrap32_natCast _).trans (trunc32_shiftRight p n)

section
variable (p o : Word) (n : Nat)

theorem u32_combine_add : u32 (combine .add p o) = (u32 p + u32 o) % 4294967296 := by
  rw [combine_add]
  exact BitVec.toNat_add p o

theorem getLsbD_combine_xor (i : Nat) : (combine .xor p o).getLsbD i = (p.getLsbD i != o.getLsbD i) := by
  rw [combine_xor, BitVec.getLsbD_xor, Bool.bne_eq_xor]

theorem u32_shiftedValue_shl : u32 (shiftedValue .shl p n) = u32 p * 2 ^ n % 4294967296 := by
  rw [shiftedValue_shl, ← Nat.shiftLeft_eq]
  exact BitVec.toNat_shiftLeft

theorem u32_shiftedValue_shr : u32 (shiftedValue .shr p n) = u32 p / 2 ^ n := by
  rw [shiftedValue_shr, ← Nat.shiftRight_eq_div_pow]
  exact BitVec.toNat_ushiftRight p n

/-- By 0 neither direction moves a bit. -/
theorem shiftedValue_zero (dir : MicroDir) : shiftedValue dir p 0 = p := by
  cases dir with
  | shl => rw [shiftedValue_shl, BitVec.shiftLeft_zero]
  | shr => rw [shiftedValue_shr, BitVec.ushiftRight_zero]

/-- The XOR of a word with itself shifted by 0 clears it (R135, R136). -/
theorem combine_xor_shiftedValue_zero (dir : MicroDir) : combine .xor p (shiftedValue dir p 0) = 0 := by
  rw [shiftedValue_zero, combine_xor, BitVec.xor_self]
  rfl

/-- A right shift by one place or more clears the sign (R134). -/
theorem s32_shiftedValue_shr_nonneg (h : 1 ≤ n) : 0 ≤ s32 (shiftedValue .shr p n) := by
  apply BitVec.toInt_nonneg_of_msb_false
  rw [shiftedValue_shr, BitVec.msb_ushiftRight, decide_eq_true (by omega)]
  rfl

/-- Zeros enter a left shift below bit `n`. -/
theorem getLsbD_shiftedValue_shl_of_lt {i : Nat} (h : i < n) : (shiftedValue .shl p n).getLsbD i = false := by
  simp [shiftedValue_shl, h]

/-- Zeros enter a right shift from bit `32 - n` on. -/
theorem getLsbD_shiftedValue_shr_of_le {i : Nat} (h : 32 - n ≤ i) : (shiftedValue .shr p n).getLsbD i = false := by
  rw [shiftedValue_shr, BitVec.getLsbD_ushiftRight]
  exact BitVec.getLsbD_of_ge p _ (by omega)

end

/-! ### The four micro-ops -/

theorem exec_microInstr (op : MicroOp) (dir : MicroDir) (amt : Byte) (s : State) :
    exec (microInstr op dir amt) s = outcome (runMicroOp op dir amt s) := by
  cases op <;> cases dir <;> rfl

/-- A micro-op with a legal amount writes `OPND`, `P` and `UPC` (R30, R132). -/
theorem exec_microInstr_legal {amt : Byte} {n : Nat} (hn : Reference.AmountIs amt n) {s : State} {p : Word} {u : Nat}
    (hp : s.req.p = some p) (hu : s.req.upc = some u) (op : MicroOp) (dir : MicroDir) :
    exec (microInstr op dir amt) s = .next (s.setReq { s.req with
      opnd := some (shiftedValue dir p n), p := some (combine op p (shiftedValue dir p n)), upc := some (u + 3) }) := by
  rw [exec_microInstr, runMicroOp_ok ((amount_eq_some_iff amt n).2 hn) hp hu, outcome_ok]

/-- Settles O11: the product is the sum of `P` and its left shift. -/
theorem addShlRule : Obligations.AddShlRule := by
  intro c1 amt rest n s p u hc1 hn hp hu
  refine ⟨?_, _, _, exec_microInstr_legal hn hp hu .add .shl, u32_shiftedValue_shl p n, u32_combine_add p _, ?_⟩
  · rw [decode_program_cons, microDirOf_of_ne hc1]
    rfl
  · rw [u32_combine_add, u32_shiftedValue_shl, Nat.add_mod_mod, Nat.mul_add, Nat.mul_one]

/-- Settles O12, from the values of the right shift and of the sum. -/
theorem addShrRule : Obligations.AddShrRule :=
  fun _ _ n _ p _ hn hp hu => ⟨rfl, _, _, exec_microInstr_legal hn hp hu .add .shr, u32_shiftedValue_shr p n,
    u32_combine_add p _, s32_shiftedValue_shr_nonneg p n⟩

/-- Settles O13: the XOR with a bit that the shift filled with 0 leaves a bit unchanged. -/
theorem xorShlRule : Obligations.XorShlRule := by
  intro c0 c1 amt rest n s p u hc0 hc1 hn hp hu
  refine ⟨?_, _, _, exec_microInstr_legal hn hp hu .xor .shl, u32_shiftedValue_shl p n,
    fun i _ => getLsbD_combine_xor p _ i, ?_, fun i hi => ?_⟩
  · rw [decode_program_cons, microOpOf_of_ne hc0, microDirOf_of_ne hc1]
    rfl
  · rintro rfl
    exact combine_xor_shiftedValue_zero p .shl
  · rw [getLsbD_combine_xor, getLsbD_shiftedValue_shl_of_lt p n hi, Bool.bne_false]

/-- Settles O14, as for the left shift, with the zeros at the other end. -/
theorem xorShrRule : Obligations.XorShrRule := by
  intro c0 amt rest n s p u hc0 hn hp hu
  refine ⟨?_, _, _, exec_microInstr_legal hn hp hu .xor .shr, u32_shiftedValue_shr p n,
    fun i _ => getLsbD_combine_xor p _ i, ?_, fun i _ hi => ?_⟩
  · rw [decode_program_cons, microOpOf_of_ne hc0]
    rfl
  · rintro rfl
    exact combine_xor_shiftedValue_zero p .shr
  · rw [getLsbD_combine_xor, getLsbD_shiftedValue_shr_of_le p n hi, Bool.bne_false]

/-! ### What a step runs -/

theorem step_select {s : State} {x : Select} {i : Instr} (hs : s.select = some x) (hd : decode (.select x) = .ok i) :
    step s = exec i { s with select := none } := by
  simp only [step, fetch, hs, fetchSelect, hd]

theorem step_submit {s : State} {r : Request} {rest : List HostMove} {i : Instr} (hs : s.select = none)
    (hp : s.phase = .idle) (hh : s.host = .submit r :: rest) (hd : decode (.request r) = .ok i) :
    step s = exec i { s with host := rest } := by
  simp only [step, fetch, hs, hp, fetchHost, hh, fetchRequest, hd]

/-- The sequencer phase with no selection: a step is a micro-op of a `SIGN` in flight, or its turn. -/
structure InSequencer (s : State) : Prop where
  noSelection : s.select = none
  sequencer : s.phase = .sequencer

theorem InSequencer.of_same {s t : State} (hs : InSequencer s) (h : SameOutside s t) : InSequencer t :=
  ⟨h.select.trans hs.noSelection, h.phase.trans hs.sequencer⟩

theorem InSequencer.setReq {s : State} (hs : InSequencer s) (r : RequestState) : InSequencer (s.setReq r) :=
  ⟨hs.noSelection, hs.sequencer⟩

section
variable {s : State} (hs : InSequencer s)
include hs

theorem step_microOp {x : Prog} {u : Nat} {i : Instr} (hx : s.req.psel = some x) (hu : s.req.upc = some u)
    (hlt : u < (progBytes x s).length) (hd : decode (.program ((progBytes x s).drop u)) = .ok i) :
    step s = exec i s := by
  simp only [step, fetch, hs.noSelection, hs.sequencer, fetchSequencer, hx, hu, if_pos hlt, fetchProgram, hd]

/-- Before the first program the turn is the turn on a byte (R155). -/
theorem step_turn_before_program (hx : s.req.psel = none) : step s = outcome (byteTurn s) := by
  simp only [step, fetch, hs.noSelection, hs.sequencer, fetchSequencer, hx, signTurn]

theorem step_turn_at_end {x : Prog} (hx : s.req.psel = some x) (hu : s.req.upc = some (progBytes x s).length) :
    step s = outcome (signTurn s) := by
  simp only [step, fetch, hs.noSelection, hs.sequencer, fetchSequencer, hx, hu, Nat.lt_irrefl, if_false]

end

/-- Settles O26, one path of the fetch for each clause. -/
theorem stepRunsDecoded : Obligations.StepRunsDecoded :=
  fun _ _ => ⟨fun _ => step_select, fun _ _ => step_submit, fun _ _ hs hp => step_microOp ⟨hs, hp⟩⟩

/-! ### The sequencer on a whole program -/

/-- The sequencer on the rest of a program: one step a micro-op, in order (R131). -/
theorem run_program_from (bytes : List Byte) {x : Prog} (hl : legalBytes bytes = true) :
    ∀ {s : State} {before : List Byte} {p : Word}, InSequencer s → s.req.psel = some x →
      s.req.upc = some before.length → s.req.p = some p → progBytes x s = before ++ bytes →
      Host.Core.run Sys2Proof.core (bytes.length / 3) s = .next (s.setReq { s.req with
        opnd := programOperand bytes p s.req.opnd, p := some (programValue bytes p),
        upc := some (before.length + bytes.length) }) := by
  induction bytes using legalBytes.induct with
  | case1 =>
    intro s before p _ _ hu hp _
    simp only [programOperand, programValue, List.length_nil, Nat.add_zero, ← hu, ← hp]
    rfl
  | case2 => cases hl
  | case3 => cases hl
  | case4 c0 c1 c2 rest ih =>
    intro s before p hs hx hu hp hb
    simp only [legalBytes, Bool.and_eq_true, Option.isSome_iff_exists] at hl
    obtain ⟨⟨n, hn⟩, hl⟩ := hl
    have hd : decode (.program ((progBytes x s).drop before.length)) =
        .ok (microInstr (microOpOf c0) (microDirOf c1) c2) := by
      rw [hb, List.drop_left, decode_program_cons]
    have hstep := (step_microOp hs hx hu (by simp [hb]) hd).trans
      (exec_microInstr_legal ((amount_eq_some_iff c2 n).1 hn) hp hu _ _)
    have hcount : (c0 :: c1 :: c2 :: rest).length / 3 = rest.length / 3 + 1 := by
      simp only [List.length_cons]
      omega
    have hend : (before ++ [c0, c1, c2]).length + rest.length = before.length + (c0 :: c1 :: c2 :: rest).length := by
      simp only [List.length_append, List.length_cons, List.length_nil]
      omega
    rw [hcount, core_run_succ Sys2Proof.core hstep]
    refine Eq.trans (ih hl (before := before ++ [c0, c1, c2]) (hs.setReq _) hx (by simp) rfl (by simp [hb])) ?_
    simp only [hend, programValue, programOperand, hn, Option.getD_some]
    rfl

/-- The state in which `apply(x, r)` ends (R131). -/
def afterProgram (x : Prog) (r : Word) (s : State) : State :=
  s.setReq { s.req with
    psel := some x, upc := some (progBytes x s).length, p := some (programValue (progBytes x s) r),
    opnd := programOperand (progBytes x s) r s.req.opnd }

theorem applyProgram_eq_afterProgram {x : Prog} {s : State} {k : Nat} (h : programProblem k (progBytes x s) = none)
    (r : Word) : applyProgram x r s = .ok (afterProgram x r s) := applyProgram_eq h r

theorem afterProgram_same (x : Prog) (r : Word) (s : State) : SameOutside s (afterProgram x r s) :=
  (SameOutside.refl s).setReq _

/-- From the start of `apply(x, r)` the sequencer reaches its end. -/
theorem run_startApply {x : Prog} {s : State} {k : Nat} (hs : InSequencer s)
    (h : programProblem k (progBytes x s) = none) (r : Word) :
    Host.Core.run Sys2Proof.core ((progBytes x s).length / 3) (startApply x r s) = .next (afterProgram x r s) := by
  have hrun := run_program_from (progBytes x s) (legalBytes_of_programProblem h) (x := x) (s := startApply x r s)
    (before := []) (p := r) (hs.setReq _) rfl rfl rfl (progBytes_setReq x s _)
  simpa [startApply_eq, afterProgram] using hrun

theorem step_turn_afterProgram {x : Prog} {r : Word} {s : State} (hs : InSequencer s) :
    step (afterProgram x r s) = outcome (signTurn (afterProgram x r s)) :=
  step_turn_at_end (hs.of_same (afterProgram_same x r s)) rfl
    (congrArg (fun bytes : List Byte => some bytes.length) (progBytes_setReq x s _).symm)

/-! ### The value of a program -/

theorem amountOf_eq {c : Byte} {n : Nat} (h : Reference.AmountIs c n) : Reference.amountOf c = n := by
  unfold Reference.AmountIs at h
  unfold Reference.amountOf
  split <;> omega

/-- One micro-op is the reference's. -/
theorem combine_shiftedValue_eq_micro (c0 c1 : Byte) (n : Nat) (p : Word) :
    combine (microOpOf c0) p (shiftedValue (microDirOf c1) p n) = Reference.micro c0 c1 n p := by
  have hshift : shiftedValue (microDirOf c1) p n = if c1 = 0x2B then p >>> n else p <<< n := by
    unfold microDirOf charPlus
    split
    · exact shiftedValue_shr p n
    · exact shiftedValue_shl p n
  rw [hshift, microOpOf, charPlus, Reference.micro]
  split
  · exact combine_add p _
  · exact combine_xor p _

/-- The accumulator a program leaves is the reference's `apply` (R131). -/
theorem programValue_eq_apply (bytes : List Byte) (hl : legalBytes bytes = true) (p : Word) :
    programValue bytes p = Reference.apply bytes p := by
  induction bytes using legalBytes.induct generalizing p with
  | case1 => rfl
  | case2 => cases hl
  | case3 => cases hl
  | case4 c0 c1 c2 rest ih =>
    simp only [legalBytes, Bool.and_eq_true, Option.isSome_iff_exists] at hl
    obtain ⟨⟨n, hn⟩, hl⟩ := hl
    rw [programValue, Reference.apply, hn, Option.getD_some, combine_shiftedValue_eq_micro,
      amountOf_eq ((amount_eq_some_iff c2 n).1 hn)]
    exact ih hl _

/-- `OPND` keeps a value once it holds one. -/
theorem programOperand_some (bytes : List Byte) (p o : Word) : ∃ o', programOperand bytes p (some o) = some o' := by
  induction bytes using legalBytes.induct generalizing p o with
  | case1 => exact ⟨o, rfl⟩
  | case2 => exact ⟨o, rfl⟩
  | case3 => exact ⟨o, rfl⟩
  | case4 c0 c1 c2 rest ih => exact ih _ _

/-- The first micro-op of a program writes `OPND`. -/
theorem programOperand_of_three_le {bytes : List Byte} (h : 3 ≤ bytes.length) (p : Word) (o : Option Word) :
    ∃ o', programOperand bytes p o = some o' := by
  match bytes, h with
  | c0 :: c1 :: c2 :: rest, _ => exact programOperand_some rest _ _

/-- Settles O18: the sequencer stands at the start of the program, and its end is the reference's. -/
theorem sequencerRunsApply : Obligations.SequencerRunsApply := by
  intro s x r hs hp hwf hx hr hu
  have hl := legalBytes_of_programProblem ((programProblem_eq_none_iff 0 _).2 hwf)
  have hrun := run_program_from (progBytes x s) hl (before := []) ⟨hs, hp⟩ hx hu hr rfl
  obtain ⟨o, ho⟩ := programOperand_of_three_le hwf.1 r s.req.opnd
  rw [ho, programValue_eq_apply _ hl, List.length_nil, Nat.zero_add] at hrun
  exact ⟨o, hrun⟩

/-- Settles O19: the reference's `apply` on the six and the nine literal bytes. -/
theorem literalProgramsMix : Obligations.LiteralProgramsMix := by
  intro s r hs hp hrom hr hu
  constructor
  · intro hx
    have hprog : progBytes .a s = progAReset := congrArg (·.progA) hrom
    obtain ⟨o, hrun⟩ := sequencerRunsApply s .a r hs hp
      (hprog ▸ (programProblem_eq_none_iff 0 progAReset).1 (by decide)) hx hr hu
    rw [hprog] at hrun
    exact ⟨_, hrun, rfl⟩
  · intro hx
    have hprog : progBytes .b s = progBReset := congrArg (·.progB) hrom
    obtain ⟨o, hrun⟩ := sequencerRunsApply s .b r hs hp
      (hprog ▸ (programProblem_eq_none_iff 0 progBReset).1 (by decide)) hx hr hu
    rw [hprog] at hrun
    exact ⟨_, hrun, rfl⟩

/-! ### The small steps of a `SIGN` -/

/-- Steps 5 to 9 of `SIGN` on the `P` that the byte loop left (R158-R163). -/
def signTail (s : State) : Exec State := do
  let p ← need .p s.req.p
  let s ← applyProgram .b p s
  finalise s

theorem signFinish_eq_byteLoop {s : State} {cap : Nat} (hc : s.req.cap = some cap) :
    signFinish s = byteLoop cap s >>= signTail := by
  simp only [signFinish, hc, need_some, ok_bind]
  rfl

/-- Both programs pass the check, in the sequencer phase (R130). -/
structure SignRuns (s : State) : Prop extends InSequencer s where
  progA : programProblem 0 s.rom.progA = none
  progB : programProblem 1 s.rom.progB = none

theorem SignRuns.of_same {s t : State} (hs : SignRuns s) (h : SameOutside s t) : SignRuns t :=
  ⟨hs.toInSequencer.of_same h, h.rom ▸ hs.progA, h.rom ▸ hs.progB⟩

/-- The state after the turn of the byte loop on byte `i`, `b`, with `P` = `p` before it (R155). -/
def afterByte (p : Word) (b : Byte) (i : Nat) (s : State) : State :=
  let t := afterProgram .a (wrappingAdd p (b.zeroExtend 32)) s
  t.setReq { t.req with bi := some (i + 1) }

theorem afterByte_same (p : Word) (b : Byte) (i : Nat) (s : State) : SameOutside s (afterByte p b i s) :=
  (SameOutside.refl s).setReq _

theorem addByte_eq {s : State} {p : Word} (hp : s.req.p = some p) (b : Byte) :
    addByte b s = .ok (wrappingAdd p (b.zeroExtend 32)) := by
  rw [addByte, hp]
  rfl

theorem advanceByte_afterProgram {s : State} {i : Nat} (hi : s.req.bi = some i) (p : Word) (b : Byte) :
    advanceByte (afterProgram .a (wrappingAdd p (b.zeroExtend 32)) s) = .ok (afterByte p b i s) := by
  rw [advanceByte, show (afterProgram _ _ s).req.bi = some i from hi]
  rfl

/-- One step as a run. -/
theorem core_run_one (M : Host.Core) (s : M.State) : M.run 1 s = M.step s := by
  cases h : M.step s <;> simp [Host.Core.run, h]

section
variable {s u : State} {p : Word} {i cap : Nat} (hs : SignRuns s) (hp : s.req.p = some p)
include hs hp

/-- When no byte is left, the turn starts program B, and the turn after it is the finalisation. -/
theorem run_signTail (hstep : step u = outcome (byteTurn s)) (hnext : nextByte s = .ok none) :
    ∃ k, Host.Core.run Sys2Proof.core k u = outcome (signTail s) := by
  have hturn : byteTurn s = .ok (startApply .b p s) := by
    simp only [byteTurn, hnext, hp, need_some, ok_bind]
    rfl
  have htail : signTail s = finalise (afterProgram .b p s) := by
    simp only [signTail, hp, need_some, applyProgram_eq_afterProgram (x := .b) hs.progB, ok_bind]
  rw [hturn] at hstep
  refine ⟨(progBytes .b s).length / 3 + 1 + 1, ?_⟩
  rw [core_run_succ Sys2Proof.core hstep, core_run_add Sys2Proof.core _ _ (run_startApply hs.toInSequencer hs.progB p),
    htail]
  exact (core_run_one Sys2Proof.core _).trans (step_turn_afterProgram hs.toInSequencer)

/-- A byte is added, program A runs, and the turn at its end is the turn on the next byte. -/
theorem run_afterByte (hi : s.req.bi = some i) (hstep : step u = outcome (byteTurn s)) {b : Byte}
    (hnext : nextByte s = .ok (some b)) :
    ∃ k v, Host.Core.run Sys2Proof.core k u = .next v ∧ step v = outcome (byteTurn (afterByte p b i s)) := by
  have hturn : byteTurn s = .ok (startApply .a (wrappingAdd p (b.zeroExtend 32)) s) := by
    simp only [byteTurn, hnext, addByte_eq hp, ok_bind]
    rfl
  rw [hturn] at hstep
  refine ⟨(progBytes .a s).length / 3 + 1, _,
    (core_run_succ Sys2Proof.core hstep).trans (run_startApply hs.toInSequencer hs.progA _),
    (step_turn_afterProgram hs.toInSequencer).trans ?_⟩
  change outcome (advanceByte _ >>= byteTurn) = _
  rw [advanceByte_afterProgram hi, ok_bind]

/-- A byte of the loop, and the rest of the loop (R155). -/
theorem byteLoop_succ_some (hi : s.req.bi = some i) {b : Byte} (hnext : nextByte s = .ok (some b)) (fuel : Nat) :
    byteLoop (fuel + 1) s = byteLoop fuel (afterByte p b i s) := by
  rw [byteLoop, hnext]
  simp only [ok_bind, addByte_eq hp, applyProgram_eq_afterProgram (x := .a) hs.progA, advanceByte_afterProgram hi]

end

/-- The loop reads no byte at or above `CAP` (R155, R156). -/
theorem nextByte_ok {s : State} {i cap : Nat} (hi : s.req.bi = some i) (hc : s.req.cap = some cap) :
    ∃ o, nextByte s = .ok o ∧ (cap ≤ i → o = none) := by
  refine ⟨if i < cap then s.req.bb.read i else none, ?_, fun h => if_neg (Nat.not_lt.2 h)⟩
  rw [nextByte, hi, hc]
  rfl

theorem byteLoop_of_none {s : State} (hnext : nextByte s = .ok none) (fuel : Nat) : byteLoop fuel s = .ok s := by
  cases fuel with
  | zero => rfl
  | succ fuel =>
    rw [byteLoop, hnext]
    rfl

/-- From the turn on a byte, the small steps run the loop on the bytes from there on, and what follows the loop. -/
theorem run_byteLoop (fuel : Nat) : ∀ {s u : State} {p : Word} {i cap : Nat}, SignRuns s → s.req.p = some p →
    s.req.bi = some i → s.req.cap = some cap → cap ≤ i + fuel → step u = outcome (byteTurn s) →
      ∃ k, Host.Core.run Sys2Proof.core k u = outcome (byteLoop fuel s >>= signTail) := by
  induction fuel with
  | zero =>
    intro s u p i cap hs hp hi hc hle hstep
    obtain ⟨o, hnext, hnone⟩ := nextByte_ok hi hc
    rw [hnone hle] at hnext
    exact run_signTail hs hp hstep hnext
  | succ fuel ih =>
    intro s u p i cap hs hp hi hc hle hstep
    obtain ⟨o, hnext, -⟩ := nextByte_ok hi hc
    cases o with
    | none =>
      rw [byteLoop_of_none hnext]
      exact run_signTail hs hp hstep hnext
    | some b =>
      obtain ⟨k, v, hrun, hv⟩ := run_afterByte hs hp hi hstep hnext
      obtain ⟨j, hrest⟩ := ih (hs.of_same (afterByte_same p b i s)) rfl rfl hc (by omega) hv
      rw [byteLoop_succ_some hs hp hi hnext]
      exact ⟨k + j, (core_run_add Sys2Proof.core k j hrun).trans hrest⟩

/-! ### What a `SIGN` that started has passed -/

theorem programProblem_of_checkProgram {x : Prog} {s : State} {a : Unit} (h : checkProgram x s = .ok a) :
    programProblem (progNumber x) (progBytes x s) = none := by
  cases hp : programProblem (progNumber x) (progBytes x s) with
  | none => rfl
  | some f => rw [checkProgram_raise hp] at h; cases h

theorem le_maxUnits_of_checkCapacity {s : State} {n : Nat} {a : Unit} (hn : s.req.n = some n)
    (h : checkCapacity s = .ok a) : n ≤ s.params.maxUnits := by
  by_contra hlt
  rw [checkCapacity_raise hn (Nat.not_le.1 hlt)] at h
  cases h

theorem le_length_of_readInput {s : State} {n : Nat} {units read : List CodeUnit} (hn : s.req.n = some n)
    (hi : s.req.inp = some units) (h : readInput s = .ok read) : n ≤ units.length := by
  by_contra hlt
  rw [readInput_short hn hi (Nat.not_le.1 hlt)] at h
  cases h

theorem expansion_of_expand {tx : List CodeUnit} {s t : State} (h : expand (writeText tx s) = .ok t) :
    ∃ bytes, expansion s.params.loneSurrogate tx 0 = .ok bytes := by
  cases hx : expansion s.params.loneSurrogate tx 0 with
  | ok bytes => exact ⟨bytes, rfl⟩
  | error k =>
    have hraise := expand_writeText tx s
    rw [hx] at hraise
    obtain ⟨u, -, hexpand⟩ := hraise
    cases hexpand.symm.trans h

/-- The premises of `signStart_eq`, from a start that completed (R150). -/
theorem signStart_premises {n : Nat} {units : List CodeUnit} {s t : State} (h : signStart n units s = .ok t) :
    programProblem 0 s.rom.progA = none ∧ programProblem 1 s.rom.progB = none ∧ n ≤ units.length ∧
      n ≤ s.params.maxUnits ∧
      ∃ bytes, expansion s.params.loneSurrogate (truncateUnits s.params.truncCount (units.take n)) 0 = .ok bytes := by
  unfold signStart at h
  obtain ⟨_, hA, h⟩ := bind_eq_ok.1 h
  obtain ⟨_, hB, h⟩ := bind_eq_ok.1 h
  obtain ⟨_, hcapacity, h⟩ := bind_eq_ok.1 h
  obtain ⟨v, htruncate, h⟩ := bind_eq_ok.1 h
  obtain ⟨w, hexpand, -⟩ := bind_eq_ok.1 h
  obtain ⟨read, hread, hwrite⟩ := bind_eq_ok.1 htruncate
  have hn := le_length_of_readInput rfl rfl hread
  cases (readInput_ok rfl rfl hn).symm.trans hread
  cases hwrite
  exact ⟨programProblem_of_checkProgram hA, programProblem_of_checkProgram hB, hn,
    le_maxUnits_of_checkCapacity (s := beginText 0x01 n units s) rfl hcapacity,
    expansion_of_expand (s := beginText 0x01 n units s) hexpand⟩

/-- Settles O42: the start leaves the sequencer before its first program, where the turn is the turn on byte 0, and
`CAP` bounds the loop. -/
theorem signSmallStepsAgree : Obligations.SignSmallStepsAgree := by
  intro s t n units hs h
  obtain ⟨hA, hB, hn, hmax, bytes, hx⟩ := signStart_premises h
  obtain ⟨r, hstart, -, hcap, -, hbi, hp, hpsel, -⟩ := signStart_eq hA hB hn hmax hx
  cases hstart.symm.trans h
  have hruns : SignRuns { s.setReq r with phase := .sequencer } := ⟨⟨hs, rfl⟩, hA, hB⟩
  have hstep := step_turn_before_program hruns.toInSequencer hpsel
  obtain ⟨k, hrun⟩ := run_byteLoop _ hruns hp hbi hcap (Nat.le_add_left _ 0) hstep
  refine ⟨k, hrun.trans ?_⟩
  rw [← signFinish_eq_byteLoop hcap]
  exact congrArg outcome (congrArg (· >>= signFinish) hstart).symm

end Sys2Proof.Machine
end

section
/-! PROOFS. The family 43_checksum_engine: the remap (O40), the byte loop's turn (O20), truncation (O36), `LOAD_SECRET`
(O44), and `SIGN` as a function of what it depends on (O41), from which its rule (O33), its result (O38, O39) and the
truncation law (O37) follow. -/

namespace Sys2Proof.Machine

open Sys2Proof.Safety

/-! ### The remap -/

theorem signBit_eq (p : Word) : signBit p = decide (2147483648 ≤ u32 p) := BitVec.msb_eq_decide p

theorem remap_of_signBit {p : Word} (h : signBit p = true) : remap p = (u32 p &&& 0x7FFFFFFF) + 0x80000000 := if_pos h

theorem remap_of_not_signBit {p : Word} (h : signBit p = false) : remap p = u32 p := if_neg (by rw [h]; decide)

/-- Clearing bit 31 and adding its weight gives the word back (R160). -/
theorem remap_eq_u32 (p : Word) : remap p = u32 p := by
  cases h : signBit p with
  | true =>
    have hhigh : 2147483648 ≤ u32 p := by simpa [signBit_eq] using h
    have hmask : u32 p &&& 0x7FFFFFFF = u32 p % 2147483648 := Nat.and_two_pow_sub_one_eq_mod (u32 p) 31
    have hlt : u32 p < 4294967296 := p.isLt
    rw [remap_of_signBit h, hmask]
    omega
  | false => exact remap_of_not_signBit h

/-- Settles O40: below 2^31 the signed reading is the unsigned one. -/
theorem remapIsUnsigned : Obligations.RemapIsUnsigned := by
  intro p
  refine ⟨remap_of_signBit, fun h => ⟨remap_of_not_signBit h, ?_⟩, remap_eq_u32 p⟩
  have hmsb : p.msb = false := h
  rw [remap_of_not_signBit h, s32, BitVec.toInt_eq_toNat_of_msb hmsb]

/-! ### The turn of the byte loop -/

theorem step_turn_past_end {s : State} (hs : InSequencer s) {x : Prog} {u : Nat} (hx : s.req.psel = some x)
    (hu : s.req.upc = some u) (hle : (progBytes x s).length ≤ u) : step s = outcome (signTurn s) := by
  simp only [step, fetch, hs.noSelection, hs.sequencer, fetchSequencer, hx, hu, if_neg (Nat.not_lt.2 hle)]

/-- The state with `BI` at cell `i`. -/
def atCell (i : Nat) (s : State) : State := s.setReq { s.req with bi := some i }

/-- After program A the turn is the one on the next byte (R155). -/
theorem signTurn_of_progA {s : State} {i : Nat} (hx : s.req.psel = some .a) (hi : s.req.bi = some i) :
    signTurn s = byteTurn (atCell (i + 1) s) := by
  simp only [signTurn, hx, advanceByte, hi, need_some, ok_bind]
  rfl

section
variable {s : State} {i cap : Nat} (hi : s.req.bi = some i) (hc : s.req.cap = some cap)
include hi hc

theorem nextByte_of_valid {b : Byte} (hlt : i < cap) (hb : s.req.bb.read i = some b) : nextByte s = .ok (some b) := by
  simp only [nextByte, hi, hc, need_some, ok_bind, if_pos hlt, hb]
  rfl

theorem nextByte_of_end (h : cap ≤ i ∨ s.req.bb.read i = none) : nextByte s = .ok none := by
  have hnone : (if i < cap then s.req.bb.read i else none) = none := by
    rcases h with h | h
    · exact if_neg (Nat.not_lt.2 h)
    · rw [h, ite_self]
  simp only [nextByte, hi, hc, need_some, ok_bind, hnone]
  rfl

end

section
variable {s : State} {p : Word}

theorem byteTurn_of_some {b : Byte} (hnext : nextByte s = .ok (some b)) (hp : s.req.p = some p) :
    byteTurn s = .ok (startApply .a (p + b.zeroExtend 32) s) := by
  simp only [byteTurn, hnext, addByte_eq hp, wrappingAdd_eq, ok_bind]
  rfl

theorem byteTurn_of_none (hnext : nextByte s = .ok none) (hp : s.req.p = some p) :
    byteTurn s = .ok (startApply .b p s) := by
  simp only [byteTurn, hnext, hp, need_some, ok_bind]
  rfl

end

/-- Settles O20: the turn moves `BI` on, and the cell there decides which program starts. -/
theorem byteLoopTurn : Obligations.ByteLoopTurn := by
  intro s u i cap p hs hphase hx hu hle hi hc hp
  rw [step_turn_past_end ⟨hs, hphase⟩ hx hu hle, signTurn_of_progA hx hi]
  constructor
  · intro b hlt hb
    have hnext := nextByte_of_valid (s := atCell (i + 1) s) rfl hc hlt hb
    rw [byteTurn_of_some hnext hp, outcome_ok, startApply_eq, ← hx]
    rfl
  · intro hend
    have hnext := nextByte_of_end (s := atCell (i + 1) s) rfl hc hend
    rw [byteTurn_of_none hnext hp, outcome_ok, startApply_eq, ← hp]
    rfl

/-! ### The characters of a text -/

theorem exists_cons_of_pairs {u : CodeUnit} {rest : List CodeUnit} (h : Pairs u rest.head?) :
    ∃ lo units, rest = lo :: units := by
  obtain ⟨-, -, lo, hlo, -⟩ := h
  exact ⟨lo, List.head?_eq_some_iff.1 hlo⟩

/-- Induction over the characters of a text, a pair or a unit alone (R152). -/
theorem text_induction {motive : List CodeUnit → Prop} (nil : motive [])
    (pair : ∀ u lo rest, Pairs u (some lo) → motive rest → motive (u :: lo :: rest))
    (single : ∀ u rest, ¬ Pairs u rest.head? → motive rest → motive (u :: rest)) : ∀ units, motive units
  | [] => nil
  | u :: rest => by
    by_cases hp : Pairs u rest.head?
    · obtain ⟨lo, rest, rfl⟩ := exists_cons_of_pairs hp
      exact pair u lo rest hp (text_induction nil pair single rest)
    · exact single u rest hp (text_induction nil pair single rest)
termination_by units => units.length

theorem characters_of_pairs {u lo : CodeUnit} (h : Pairs u (some lo)) (rest : List CodeUnit) :
    characters (u :: lo :: rest) = [u, lo] :: characters rest :=
  if_pos ((pairs_iff u (some lo)).2 h)

theorem characters_of_not_pairs {u : CodeUnit} {rest : List CodeUnit} (h : ¬ Pairs u rest.head?) :
    characters (u :: rest) = [u] :: characters rest := by
  cases rest with
  | nil => rfl
  | cons lo rest => exact if_neg (mt (pairs_iff u (some lo)).1 h)

/-- A low surrogate is no high one. -/
theorem not_pairs_of_pairs {u lo : CodeUnit} (h : Pairs u (some lo)) (next : Option CodeUnit) : ¬ Pairs lo next := by
  obtain ⟨-, -, hlo, -⟩ := (pairs_some_iff u lo).1 h
  rintro ⟨-, hhigh, -⟩
  omega

/-- The units of a character: one alone, or a surrogate pair (R152). -/
def IsCharacter (ch : List CodeUnit) : Prop := (∃ u, ch = [u]) ∨ ∃ u lo, ch = [u, lo] ∧ Pairs u (some lo)

theorem isCharacter_of_mem_characters (units : List CodeUnit) : ∀ ch ∈ characters units, IsCharacter ch := by
  induction units using text_induction with
  | nil => exact fun _ h => absurd h List.not_mem_nil
  | pair u lo rest hp ih =>
    rw [characters_of_pairs hp]
    exact List.forall_mem_cons.2 ⟨.inr ⟨u, lo, rfl, hp⟩, ih⟩
  | single u rest hp ih =>
    rw [characters_of_not_pairs hp]
    exact List.forall_mem_cons.2 ⟨.inl ⟨u, rfl⟩, ih⟩

theorem flatten_characters (units : List CodeUnit) : (characters units).flatten = units := by
  induction units using text_induction with
  | nil => rfl
  | pair u lo rest hp ih => rw [characters_of_pairs hp, List.flatten_cons, ih]; rfl
  | single u rest hp ih => rw [characters_of_not_pairs hp, List.flatten_cons, ih]; rfl

/-- The reference's characters are runs, and a run breaks after a unit that makes no pair with the next. -/
theorem chars_append {ch rest : List CodeUnit} (h : ∀ u ∈ ch.getLast?, ¬ Pairs u rest.head?) :
    Reference.chars (ch ++ rest) = Reference.chars ch ++ Reference.chars rest := by
  refine List.splitBy_append fun u hu lo hlo => decide_eq_false fun hp => h u hu ?_
  rw [Option.mem_def.1 hlo]
  exact (pairs_some_iff u lo).2 hp

theorem characters_eq_chars (units : List CodeUnit) : characters units = Reference.chars units := by
  induction units using text_induction with
  | nil => rfl
  | pair u lo rest hp ih =>
    have happend : Reference.chars ([u, lo] ++ rest) = _ :=
      chars_append fun v hv => by cases hv; exact not_pairs_of_pairs hp _
    have hrun : Reference.chars [u, lo] = [[u, lo]] :=
      List.splitBy_of_isChain (List.cons_ne_nil _ _) (by simpa using (pairs_some_iff u lo).1 hp)
    rw [characters_of_pairs hp, ih]
    exact (happend.trans (by rw [hrun]; rfl)).symm
  | single u rest hp ih =>
    have happend : Reference.chars ([u] ++ rest) = _ := chars_append fun v hv => by cases hv; exact hp
    rw [characters_of_not_pairs hp, ih]
    exact happend.symm

/-! ### Truncation -/

theorem countedUnits_eq (t : TruncCount) (units : List CodeUnit) :
    countedUnits t units = if t = .characters then Reference.chars units else units.map fun u => [u] := by
  cases t with
  | characters => exact characters_eq_chars units
  | codeUnits => rfl

theorem flatten_countedUnits (t : TruncCount) (units : List CodeUnit) : (countedUnits t units).flatten = units := by
  cases t with
  | characters => exact flatten_characters units
  | codeUnits => exact List.flatMap_def.symm.trans (List.flatMap_singleton' units)

/-- The three segments of more than thirty characters, as the rule slices them (R151). -/
theorem keptCharacters_eq {ch : List (List CodeUnit)} (h : 30 < ch.length) :
    keptCharacters ch =
      ch.take 10 ++ ((ch.drop (ch.length / 2 - 5)).take 10 ++ ch.drop (ch.length - 10)) := by
  have hmid : ch.length / 2 + 5 - (ch.length / 2 - 5) = 10 := by omega
  have hlast : (ch.drop (ch.length - 10)).length = ch.length - (ch.length - 10) := List.length_drop
  simp only [keptCharacters, slice, segLen, List.drop_zero, List.append_assoc]
  rw [hmid, ← hlast, List.take_length]

theorem truncateUnits_of_le {t : TruncCount} {units : List CodeUnit} (h : (countedUnits t units).length ≤ 30) :
    truncateUnits t units = units := if_pos h

theorem truncateUnits_of_gt {t : TruncCount} {units : List CodeUnit} (h : 30 < (countedUnits t units).length) :
    truncateUnits t units = (keptCharacters (countedUnits t units)).flatten := if_neg (Nat.not_le.2 h)

theorem truncateUnits_eq (t : TruncCount) (units : List CodeUnit) :
    truncateUnits t units = Reference.truncate t units := by
  simp only [Reference.truncate, ← countedUnits_eq]
  rcases Nat.lt_or_ge 30 (countedUnits t units).length with h | h
  · rw [truncateUnits_of_gt h, if_neg (Nat.not_le.2 h), keptCharacters_eq h, List.append_assoc]
  · rw [truncateUnits_of_le h, if_pos h]

theorem keptCharacters_length {ch : List (List CodeUnit)} (h : 30 < ch.length) : (keptCharacters ch).length = 30 := by
  rw [keptCharacters_eq h]
  simp only [List.length_append, List.length_take, List.length_drop]
  omega

/-- The segments stand in order in the text. -/
theorem keptCharacters_sublist {ch : List (List CodeUnit)} (h : 30 < ch.length) : (keptCharacters ch).Sublist ch := by
  have hlast : (ch.drop (ch.length - 10)).Sublist ((ch.drop (ch.length / 2 - 5)).drop 10) := by
    rw [List.drop_drop]
    exact List.drop_sublist_drop_left ch (by omega)
  have hmid : (ch.drop (ch.length / 2 - 5)).Sublist (ch.drop 10) := List.drop_sublist_drop_left ch (by omega)
  rw [keptCharacters_eq h]
  calc List.Sublist _
        (ch.take 10 ++ ((ch.drop (ch.length / 2 - 5)).take 10 ++ (ch.drop (ch.length / 2 - 5)).drop 10)) :=
        (hlast.append_left _).append_left _
    _ = ch.take 10 ++ ch.drop (ch.length / 2 - 5) := by rw [List.take_append_drop]
    List.Sublist _ (ch.take 10 ++ ch.drop 10) := hmid.append_left _
    _ = ch := List.take_append_drop 10 ch

/-- Settles O36: from 31 characters on, the middle of the text is ten characters away from both ends. -/
theorem truncationKeepsThreeSegments : Obligations.TruncationKeepsThreeSegments := by
  intro t units
  refine ⟨truncateUnits_eq t units, List.flatten_splitBy _ units, fun ch hch => ?_, ?_⟩
  · rw [← characters_eq_chars] at hch
    rcases isCharacter_of_mem_characters units ch hch with ⟨u, rfl⟩ | ⟨u, lo, rfl, -⟩
    · exact .inl rfl
    · exact .inr rfl
  · rintro l rfl hl
    exact ⟨by omega, by omega, keptCharacters_length hl⟩

/-! ### Truncating a truncated text -/

/-- A unit put before a text adds at most one character. -/
theorem length_characters_cons_le (u : CodeUnit) (rest : List CodeUnit) :
    (characters (u :: rest)).length ≤ (characters rest).length + 1 := by
  by_cases hp : Pairs u rest.head?
  · obtain ⟨lo, rest, rfl⟩ := exists_cons_of_pairs hp
    rw [characters_of_pairs hp, characters_of_not_pairs (not_pairs_of_pairs hp _)]
    simp only [List.length_cons]
    omega
  · rw [characters_of_not_pairs hp, List.length_cons]

/-- Characters put together make at most as many: the seam between two may make a pair. -/
theorem length_characters_flatten_le (chs : List (List CodeUnit)) (h : ∀ ch ∈ chs, IsCharacter ch) :
    (characters chs.flatten).length ≤ chs.length := by
  induction chs with
  | nil => exact Nat.le_refl 0
  | cons ch chs ih =>
    obtain ⟨hch, hrest⟩ := List.forall_mem_cons.1 h
    refine Nat.le_trans ?_ (Nat.succ_le_succ (ih hrest))
    rcases hch with ⟨u, rfl⟩ | ⟨u, lo, rfl, hp⟩
    · exact length_characters_cons_le u chs.flatten
    · exact Nat.le_of_eq (congrArg List.length (characters_of_pairs hp chs.flatten))

/-- What was counted of a text, put together, counts as at most as much. -/
theorem length_countedUnits_flatten_le {t : TruncCount} {units : List CodeUnit} {chs : List (List CodeUnit)}
    (h : ∀ ch ∈ chs, ch ∈ countedUnits t units) : (countedUnits t chs.flatten).length ≤ chs.length := by
  cases t with
  | characters => exact length_characters_flatten_le chs fun ch hch => isCharacter_of_mem_characters units ch (h ch hch)
  | codeUnits =>
    have hone : chs.map List.length = chs.map fun _ => 1 := List.map_congr_left fun ch hch => by
      obtain ⟨u, -, rfl⟩ := List.mem_map.1 (h ch hch)
      rfl
    rw [countedUnits, List.length_map, List.length_flatten, hone]
    simp

theorem truncateUnits_truncateUnits (t : TruncCount) (units : List CodeUnit) :
    truncateUnits t (truncateUnits t units) = truncateUnits t units := by
  rcases Nat.lt_or_ge 30 (countedUnits t units).length with h | h
  · rw [truncateUnits_of_gt h]
    have hcount := length_countedUnits_flatten_le fun ch hch => (keptCharacters_sublist h).subset hch
    exact truncateUnits_of_le (keptCharacters_length h ▸ hcount)
  · rw [truncateUnits_of_le h, truncateUnits_of_le h]

theorem length_truncateUnits_le (t : TruncCount) (units : List CodeUnit) :
    (truncateUnits t units).length ≤ units.length := by
  rcases Nat.lt_or_ge 30 (countedUnits t units).length with h | h
  · have hsub := (keptCharacters_sublist h).flatten.length_le
    rwa [flatten_countedUnits, ← truncateUnits_of_gt h] at hsub
  · rw [truncateUnits_of_le h]

/-! ### Decimal strings -/

theorem digitString_of_lt {n : Nat} (h : n < 10) : Reference.digitString n = [digitChar n] := by
  rcases Nat.eq_zero_or_pos n with rfl | hpos
  · rfl
  · rw [Reference.digitString, if_neg (by omega), Nat.digits_of_lt 10 n (by omega) h]
    rfl

theorem digitString_of_ge {n : Nat} (h : 10 ≤ n) :
    Reference.digitString n = Reference.digitString (n / 10) ++ [digitChar (n % 10)] := by
  rw [Reference.digitString, Reference.digitString, if_neg (by omega), if_neg (by omega),
    Nat.digits_def' (by decide) (by omega), List.reverse_cons, List.map_append]
  rfl

theorem decimalDigits_eq {fuel n : Nat} (h : n < fuel) (acc : List Byte) :
    decimalDigits fuel n acc = Reference.digitString n ++ acc := by
  induction fuel generalizing n acc with
  | zero => omega
  | succ k ih =>
    rw [decimalDigits]
    split
    case isTrue hlt => rw [digitString_of_lt hlt]; rfl
    case isFalse hge =>
      rw [ih (by omega), digitString_of_ge (n := n) (by omega), List.append_assoc]
      rfl

theorem decimalNat_eq_digitString (n : Nat) : decimalNat n = Reference.digitString n := by
  rw [decimalNat, decimalDigits_eq (Nat.lt_succ_self n), List.append_nil]

theorem decimal_of_neg {x : Int} (h : x < 0) : Reference.decimal x = 0x2D :: Reference.digitString x.natAbs := if_pos h

theorem decimal_of_nonneg {x : Int} (h : 0 ≤ x) : Reference.decimal x = Reference.digitString x.natAbs :=
  if_neg (Int.not_lt.2 h)

theorem decimalInt_eq_decimal (x : Int) : decimalInt x = Reference.decimal x := by
  rw [decimalInt, Reference.decimal, decimalNat_eq_digitString, decimalNat_eq_digitString]
  split
  · rw [show (-x).toNat = x.natAbs by omega]
    rfl
  · rw [show x.toNat = x.natAbs by omega]

theorem digitChar_isDigit {d : Nat} (h : d < 10) : 0x30 ≤ (digitChar d).toNat ∧ (digitChar d).toNat ≤ 0x39 := by
  rw [digitChar, BitVec.toNat_ofNat]
  omega

theorem isNumber_digitString (n : Nat) : Reference.IsNumber (Reference.digitString n) := by
  induction n using Nat.strong_induction_on with
  | _ n ih =>
    rcases Nat.lt_or_ge n 10 with hlt | hge
    · rw [digitString_of_lt hlt]
      exact ⟨List.cons_ne_nil _ _, List.forall_mem_singleton.2 (digitChar_isDigit hlt)⟩
    · rw [digitString_of_ge hge]
      obtain ⟨-, hdigits⟩ := ih (n / 10) (by omega)
      refine ⟨by simp, List.forall_mem_append.2 ⟨hdigits, List.forall_mem_singleton.2 (digitChar_isDigit ?_)⟩⟩
      omega

/-- A number below a power of ten has as many digits at most. -/
theorem length_digitString_le {n k : Nat} (h : n < 10 ^ (k + 1)) : (Reference.digitString n).length ≤ k + 1 := by
  unfold Reference.digitString
  split
  · simp
  · rw [List.length_map, List.length_reverse]
    exact (Nat.digits_length_le_iff (by decide) n).2 h

/-! ### Secret pairs -/

theorem isDigit_iff (c : Byte) : isDigit c = true ↔ 0x30 ≤ c.toNat ∧ c.toNat ≤ 0x39 := by simp [isDigit]

theorem isNumber_iff (text : List Byte) : isNumber text = true ↔ Reference.IsNumber text := by
  simp [isNumber, Reference.IsNumber, isDigit_iff]

/-- The value of a digit string is the reference's, most significant digit first (R153). -/
theorem decimalValue_eq_numberValue (text : List Byte) : decimalValue text = Reference.numberValue text := by
  rw [decimalValue, Reference.numberValue, Nat.ofDigits_eq_foldr, List.map_reverse, List.foldr_reverse, List.foldl_map]
  simp only [Nat.cast_id, Nat.add_comm]

theorem not_point_of_isNumber {text : List Byte} (h : Reference.IsNumber text) : charPoint ∉ text := by
  intro hmem
  have hdigit : 0x30 ≤ charPoint.toNat := (h.2 _ hmem).1
  exact absurd hdigit (by decide)

theorem splitAtPoint_of_not_mem {x : List Byte} (h : charPoint ∉ x) (y : List Byte) :
    splitAtPoint (x ++ charPoint :: y) = some (x, y) := by
  induction x with
  | nil => rfl
  | cons b x ih =>
    obtain ⟨hb, hx⟩ := not_or.1 (mt List.mem_cons.2 h)
    rw [List.cons_append, splitAtPoint, if_neg (Ne.symm hb), ih hx]

theorem append_of_splitAtPoint {text x y : List Byte} (h : splitAtPoint text = some (x, y)) :
    text = x ++ charPoint :: y := by
  induction text generalizing x with
  | nil => cases h
  | cons b text ih =>
    rw [splitAtPoint] at h
    split at h
    case isTrue hb => cases h; rw [hb]; rfl
    case isFalse =>
      cases hrest : splitAtPoint text with
      | none => rw [hrest] at h; cases h
      | some parts =>
        obtain ⟨x', y'⟩ := parts
        rw [hrest] at h
        cases h
        rw [ih hrest, List.cons_append]

/-- The check on the two parts of a pair is the reference's (R153). -/
theorem secretParts_iff (x y : List Byte) :
    (isNumber x ∧ isNumber y ∧ decimalValue x ≤ maxSecret ∧ decimalValue y ≤ maxSecret) ↔
      Reference.IsNumber x ∧ Reference.IsNumber y ∧ Reference.numberValue x ≤ 2147483647 ∧
        Reference.numberValue y ≤ 2147483647 := by
  rw [isNumber_iff, isNumber_iff, decimalValue_eq_numberValue, decimalValue_eq_numberValue, maxSecret]

theorem parseSecrets_of_isSecretPair {text : List Byte} {m k : Nat} (h : Reference.IsSecretPair text m k) :
    parseSecrets text = (trunc32 m, trunc32 k) ∧ m ≤ 2147483647 ∧ k ≤ 2147483647 := by
  obtain ⟨x, y, rfl, hx, hy, rfl, rfl, hm, hk⟩ := h
  have hsplit : splitAtPoint (x ++ 0x2E :: y) = some (x, y) := splitAtPoint_of_not_mem (not_point_of_isNumber hx) y
  refine ⟨?_, hm, hk⟩
  simp only [parseSecrets, hsplit]
  rw [if_pos ((secretParts_iff x y).2 ⟨hx, hy, hm, hk⟩), decimalValue_eq_numberValue, decimalValue_eq_numberValue]

theorem parseSecrets_of_not_isSecretPair {text : List Byte} (h : ∀ m k, ¬ Reference.IsSecretPair text m k) :
    parseSecrets text = (0, 0) := by
  unfold parseSecrets
  cases hsplit : splitAtPoint text with
  | none => rfl
  | some parts =>
    obtain ⟨x, y⟩ := parts
    refine if_neg fun hparts => ?_
    obtain ⟨hx, hy, hm, hk⟩ := (secretParts_iff x y).1 hparts
    exact h _ _ ⟨x, y, append_of_splitAtPoint hsplit, hx, hy, rfl, rfl, hm, hk⟩

/-- `LOAD_SECRET` responds on the state with both secrets written. -/
theorem exec_loadSecret (text : List Byte) (s : State) : exec (.loadSecret text) s =
    .next (respond .empty (writeSecrets (parseSecrets text).1 (parseSecrets text).2 s)) := rfl

theorem u32_trunc32_of_le {x : Nat} (h : x ≤ 2147483647) : u32 (trunc32 x) = x :=
  (u32_trunc32 x).trans (Nat.mod_eq_of_lt (by omega))

/-- Settles O44: what the text parses to is written, and is below 2^31. -/
theorem loadSecretRule : Obligations.LoadSecretRule := by
  intro text s
  refine ⟨_, exec_loadSecret text s, completed_respond_writeSecrets _ _ s, fun m k h => ?_, fun h => ?_⟩
  · obtain ⟨hparse, hm, hk⟩ := parseSecrets_of_isSecretPair h
    rw [hparse]
    exact ⟨u32_trunc32_of_le hm, u32_trunc32_of_le hk⟩
  · rw [parseSecrets_of_not_isSecretPair h]
    exact ⟨rfl, rfl⟩

/-! ### `SIGN` as a function of what it depends on -/

/-- The response of a taken fault (R212). -/
def faultResponse (f : FaultCode) (info : Word) : Response := { code := faultNumber f, info := info, result := .empty }

/-- The response of a `SIGN` whose text is admitted, from its truncated text (R150). -/
def textResponse (tx : List CodeUnit) (s : State) : Response :=
  match expansion s.params.loneSurrogate tx 0 with
  | .ok bytes => { code := 0, info := 0, result := signResult s.rom.progA s.rom.progB s.cfgM s.cfgS bytes }
  | .error k => faultResponse .invalidUnit (indexInfo k)

/-- The first fault of the checks before the text is read, in their order (R150, R211). -/
def signProblem (n : Nat) (s : State) : Option (FaultCode × Word) :=
  (programProblem 0 s.rom.progA).or ((programProblem 1 s.rom.progB).or
    (if s.params.maxUnits < n then some (.capacityExceeded, trunc32 (min n 4294967295)) else none))

/-- The response of `SIGN`, and none where it stops on a short record (R150). -/
def signAnswer (n : Nat) (units : List CodeUnit) (s : State) : Option Response :=
  match signProblem n s with
  | some (f, info) => some (faultResponse f info)
  | none =>
    if units.length < n then none else some (textResponse (truncateUnits s.params.truncCount (units.take n)) s)

/-- The state after the response `r` to a request (R82, R212, R249). -/
def answered (r : Response) (s : State) : State :=
  { s with status := r.code, response := some r, phase := .idle, req := RequestState.empty }

theorem enterFault_eq_answered (f : FaultCode) (info : Word) (s : State) :
    enterFault f info s = answered (faultResponse f info) s := rfl

theorem respond_eq_answered (res : Result) (s : State) :
    respond res s = answered { code := 0, info := 0, result := res } s := rfl

section
variable {n : Nat} {units : List CodeUnit} {s : State}

theorem signProblem_eq_none_iff : signProblem n s = none ↔
    programProblem 0 s.rom.progA = none ∧ programProblem 1 s.rom.progB = none ∧ n ≤ s.params.maxUnits := by
  simp [signProblem]

/-- `SIGN` takes the fault of its checks. -/
theorem execSign_problem {f : FaultCode} {info : Word} (h : signProblem n s = some (f, info)) :
    execSign n units s = .next (enterFault f info s) := by
  unfold signProblem at h
  cases hA : programProblem 0 s.rom.progA with
  | some problem =>
    rw [hA] at h
    cases h
    exact execSign_programA hA
  | none =>
    cases hB : programProblem 1 s.rom.progB with
    | some problem =>
      rw [hA, hB] at h
      cases h
      exact execSign_programB hA hB
    | none =>
      rw [hA, hB, Option.none_or, Option.none_or] at h
      split_ifs at h with hmax
      cases h
      exact execSign_capacity hA hB hmax

/-- `SIGN` on a text that passes the checks. -/
theorem execSign_text (h : signProblem n s = none) (hn : n ≤ units.length) : execSign n units s =
    .next (answered (textResponse (truncateUnits s.params.truncCount (units.take n)) s) s) := by
  obtain ⟨hA, hB, hmax⟩ := signProblem_eq_none_iff.1 h
  unfold textResponse
  cases hx : expansion s.params.loneSurrogate (truncateUnits s.params.truncCount (units.take n)) 0 with
  | ok bytes => rw [execSign_eq hA hB hn hmax hx, respond_eq_answered]
  | error k => rw [execSign_invalidUnit hA hB hn hmax hx, enterFault_eq_answered]

/-- `SIGN` answers its response, or stops. -/
theorem execSign_eq_signAnswer : execSign n units s =
    (signAnswer n units s).elim (.fault (.outsideSpace .inp 0)) fun r => .next (answered r s) := by
  unfold signAnswer
  cases h : signProblem n s with
  | some problem =>
    rw [execSign_problem h, enterFault_eq_answered]
    rfl
  | none =>
    obtain ⟨hA, hB, hmax⟩ := signProblem_eq_none_iff.1 h
    simp only
    split
    case isTrue hshort => exact execSign_short hA hB hmax hshort
    case isFalse hn => exact execSign_text h (Nat.not_lt.1 hn)

theorem exec_sign_eq_next_iff {t : State} :
    exec (.sign n units) s = .next t ↔ ∃ r, signAnswer n units s = some r ∧ t = answered r s := by
  rw [exec, execSign_eq_signAnswer]
  cases signAnswer n units s with
  | none => simp
  | some r => simp [eq_comm]

theorem exists_signAnswer (hn : n ≤ units.length) : ∃ r, signAnswer n units s = some r := by
  unfold signAnswer
  split
  · exact ⟨_, rfl⟩
  · exact ⟨_, if_neg (Nat.not_lt.2 hn)⟩

theorem faultNumber_ne_zero (f : FaultCode) : faultNumber f ≠ 0 := by
  cases f <;> decide

/-- A response without a fault code carries the result of a checksum. -/
theorem result_of_signAnswer {r : Response} (h : signAnswer n units s = some r) (hcode : r.code = 0) :
    ∃ bytes, r.result = signResult s.rom.progA s.rom.progB s.cfgM s.cfgS bytes := by
  have hfault : ∀ f info, r ≠ faultResponse f info := by
    rintro f info rfl
    exact faultNumber_ne_zero f hcode
  unfold signAnswer at h
  split at h
  · cases h
    exact (hfault _ _ rfl).elim
  · split_ifs at h
    cases h
    unfold textResponse at hfault ⊢
    split at hfault
    · exact ⟨_, rfl⟩
    · exact (hfault _ _ rfl).elim

end

/-- Settles O41: the response is a function of the text, the configuration, the programs and the parameters. -/
theorem signHasNoHiddenState : Obligations.SignHasNoHiddenState := by
  intro s s' t n units hm hs hA hB hparams h
  obtain ⟨r, hr, rfl⟩ := exec_sign_eq_next_iff.1 h
  have hsame : signAnswer n units s' = signAnswer n units s := by
    simp only [signAnswer, signProblem, textResponse, hm, hs, hA, hB, hparams]
  exact ⟨answered r s', exec_sign_eq_next_iff.2 ⟨r, hsame.trans hr, rfl⟩, rfl, rfl⟩

/-- Settles O37: the truncated text is admitted as the text is, and truncates to itself. -/
theorem truncationLaw : Obligations.TruncationLaw := by
  intro s units hmax
  obtain ⟨r, hr⟩ := exists_signAnswer (s := s) (Nat.le_refl units.length)
  rw [← truncateUnits_eq]
  have hmax' := Nat.le_trans (length_truncateUnits_le s.params.truncCount units) hmax
  have hproblem : signProblem (truncateUnits s.params.truncCount units).length s = signProblem units.length s := by
    rw [signProblem, signProblem, if_neg (Nat.not_lt.2 hmax), if_neg (Nat.not_lt.2 hmax')]
  have hsame : signAnswer (truncateUnits s.params.truncCount units).length (truncateUnits s.params.truncCount units) s =
      signAnswer units.length units s := by
    simp only [signAnswer, hproblem, List.take_length, truncateUnits_truncateUnits, Nat.lt_irrefl, if_false]
  exact ⟨_, _, exec_sign_eq_next_iff.2 ⟨r, hr, rfl⟩, exec_sign_eq_next_iff.2 ⟨r, hsame.trans hr, rfl⟩, rfl⟩

/-! ### The result of a successful `SIGN` -/

theorem toNat_signResidue (p : Word) : (signResidue p).toNat = u32 p % 1000000 := by
  rw [signResidue, remap_eq_u32, signMod, BitVec.toNat_ofNat]
  omega

theorem signResidue_le (p : Word) : (signResidue p).toNat ≤ 999999 := by
  rw [toNat_signResidue]
  omega

theorem signSecond_eq (resP : BitVec 20) (m : Word) : signSecond resP m = resP.zeroExtend 32 ^^^ m := xor32_eq _ m

/-- `RES_P` has no bit 31, so `RES_Q` has that of `m` (R162). -/
theorem msb_signSecond (resP : BitVec 20) (m : Word) : (signSecond resP m).msb = m.msb := by
  have hclear : (resP.zeroExtend 32).msb = false := by simp [BitVec.msb_setWidth]
  rw [signSecond_eq, BitVec.msb_xor, hclear, Bool.false_xor]

theorem s32_signSecond_neg_iff (resP : BitVec 20) (m : Word) : s32 (signSecond resP m) < 0 ↔ s32 m < 0 := by
  have hmsb := msb_signSecond resP m
  rw [BitVec.msb_eq_toInt, BitVec.msb_eq_toInt] at hmsb
  exact decide_eq_decide.1 hmsb

/-- What a successful `SIGN` responds with (R161, R162, R163). -/
theorem result_of_exec_sign {s t : State} {n : Nat} {units : List CodeUnit} {info : Word} {res : Result}
    (h : exec (.sign n units) s = .next t) (ht : t.response = some { code := 0, info := info, result := res }) :
    ∃ p : BitVec 20, p.toNat ≤ 999999 ∧ res = .sign p (signSecond p s.cfgM) (signString p (signSecond p s.cfgM)) := by
  obtain ⟨r, hr, rfl⟩ := exec_sign_eq_next_iff.1 h
  cases ht
  obtain ⟨bytes, hbytes⟩ := result_of_signAnswer hr rfl
  exact ⟨_, signResidue_le _, hbytes⟩

/-- Settles O38: the numbers of the result, whatever the bytes were. -/
theorem signNumbers : Obligations.SignNumbers := by
  intro s t n units info res h ht
  obtain ⟨p, hp, rfl⟩ := result_of_exec_sign h ht
  have hneg := s32_signSecond_neg_iff p s.cfgM
  exact ⟨p, _, _, rfl, hp, signSecond_eq p s.cfgM, fun hm => by omega, hneg.2⟩

theorem signString_eq (resP : BitVec 20) (resQ : Word) : signString resP resQ =
    Reference.digitString resP.toNat ++ [0x2E] ++ Reference.decimal (s32 resQ) := by
  rw [signString, decimalNat_eq_digitString, decimalInt_eq_decimal]
  rfl

/-- Settles O39: the first number is below 10^6, and the second is a digit string behind its sign. -/
theorem signOutputPattern : Obligations.SignOutputPattern := by
  intro s t n units info res h ht
  obtain ⟨p, hp, rfl⟩ := result_of_exec_sign h ht
  have hfirst := isNumber_digitString p.toNat
  have hlen : (Reference.digitString p.toNat).length ≤ 6 := length_digitString_le (by omega)
  have hsecond := isNumber_digitString (s32 (signSecond p s.cfgM)).natAbs
  rw [signString_eq]
  rcases lt_or_ge (s32 (signSecond p s.cfgM)) 0 with hneg | hpos
  · rw [decimal_of_neg hneg, List.append_cons]
    exact ⟨p, _, _, [0x2D], _, rfl, hfirst, hlen, .inr rfl, hsecond⟩
  · rw [decimal_of_nonneg hpos, ← List.append_nil (_ ++ [0x2E])]
    exact ⟨p, _, _, [], _, rfl, hfirst, hlen, .inl rfl, hsecond⟩

/-! ### The rule of `SIGN` -/

theorem exists_microOp_of_getElem? {bytes : List Byte} {k : Nat} {c : Byte} (h : bytes[3 * k + 2]? = some c) :
    ∃ c0 c1 c2 rest, bytes = c0 :: c1 :: c2 :: rest := by
  have hlen : 3 ≤ bytes.length := by
    have := (List.getElem?_eq_some_iff.1 h).1
    omega
  match bytes, hlen with
  | c0 :: c1 :: c2 :: rest, _ => exact ⟨c0, c1, c2, rest, rfl⟩

/-- The search finds the first reserved amount byte (R211). -/
theorem firstReserved_eq_some {k : Nat} {c2 : Byte} (hres : Reference.AmountReserved c2) :
    ∀ {bytes : List Byte} (t : Nat), bytes[3 * k + 2]? = some c2 →
      (∀ j c, j < k → bytes[3 * j + 2]? = some c → ∃ n, Reference.AmountIs c n) →
        firstReserved bytes t = some (t + 3 * k) := by
  induction k with
  | zero =>
    intro bytes t hk _
    obtain ⟨c0, c1, c, rest, rfl⟩ := exists_microOp_of_getElem? hk
    cases hk
    rw [firstReserved, (amount_eq_none_iff c2).2 hres]
    rfl
  | succ k ih =>
    intro bytes t hk hlegal
    obtain ⟨c0, c1, c, rest, rfl⟩ := exists_microOp_of_getElem? hk
    rw [firstReserved, if_pos ((amount_isSome_iff c).2 (hlegal 0 c (Nat.succ_pos k) rfl)),
      ih (t + 3) hk fun j d hj hd => hlegal (j + 1) d (Nat.succ_lt_succ hj) hd]
    congr 1
    omega

/-- The fault of R211 is the one the check raises. -/
theorem programProblem_of_programFault {prog : Nat} {program : List Byte} {code : Byte} {info : Word}
    (h : Reference.ProgramFault prog program code info) :
    ∃ f, programProblem prog program = some (f, info) ∧ faultNumber f = code := by
  unfold programProblem
  rcases h with ⟨hlen, rfl, rfl⟩ | ⟨hne, hmod, rfl, k, c2, hk, hres, hlegal, rfl⟩
  · exact ⟨.programMalformed, by rw [if_pos hlen, pair16_eq_ofNat], rfl⟩
  · refine ⟨.illegalMicroOp, ?_, rfl⟩
    rw [if_neg (by omega), firstReserved_eq_some hres 0 hk hlegal, Nat.zero_add]
    simp only [pair16_eq_ofNat]

theorem bytesValue_eq {progA : List Byte} (hl : legalBytes progA = true) (bytes : List Byte) (m : Word) :
    bytesValue progA bytes m = bytes.foldl (fun p b => Reference.apply progA (p + b.zeroExtend 32)) m := by
  simp only [bytesValue, programValue_eq_apply progA hl, wrappingAdd_eq]

section
variable {progA progB : List Byte} (hA : programProblem 0 progA = none) (hB : programProblem 1 progB = none)
include hA hB

/-- The `P` of the finalisation is the reference's checksum (R154-R159). -/
theorem signValue_eq_checksum (m sec : Word) (bytes : List Byte) :
    signValue progA progB m sec bytes = Reference.checksum progA progB m sec bytes := by
  rw [signValue, xor32_eq, programValue_eq_apply progB (legalBytes_of_programProblem hB),
    bytesValue_eq (legalBytes_of_programProblem hA), Reference.checksum]

/-- The result of a `SIGN`, from the checksum as a number (R161, R162, R163). -/
theorem signResult_eq {m sec : Word} {bytes : List Byte} {resP : Nat}
    (hp : resP = u32 (Reference.checksum progA progB m sec bytes) % 1000000) :
    signResult progA progB m sec bytes = .sign (BitVec.ofNat 20 resP) (BitVec.ofNat 32 resP ^^^ m)
      (Reference.decimal resP ++ [0x2E] ++ Reference.decimal (BitVec.ofNat 32 resP ^^^ m).toInt) := by
  have hlt : resP < 2 ^ 20 := by omega
  have hresidue : signResidue (signValue progA progB m sec bytes) = BitVec.ofNat 20 resP := by
    rw [hp, ← signValue_eq_checksum hA hB, ← toNat_signResidue, BitVec.ofNat_toNat, BitVec.setWidth_eq]
  have hsecond : signSecond (BitVec.ofNat 20 resP) m = BitVec.ofNat 32 resP ^^^ m := by
    rw [signSecond_eq, BitVec.zeroExtend, BitVec.setWidth_ofNat_of_le_of_lt (by decide) hlt]
  have hnat : (BitVec.ofNat 20 resP).toNat = resP := Nat.mod_eq_of_lt hlt
  rw [signResult, hresidue, hsecond, signString_eq, hnat, decimal_of_nonneg (Int.natCast_nonneg resP),
    Int.natAbs_natCast]

end

/-- Settles O33: each clause is the one end of `SIGN` under its premises. -/
theorem signRule : Obligations.SignRule := by
  intro s n units hn
  obtain ⟨r, hr⟩ := exists_signAnswer (s := s) hn
  have hexec := exec_sign_eq_next_iff.2 ⟨r, hr, rfl⟩
  have hend : ∀ {t}, execSign n units s = .next t → t = answered r s := fun ht =>
    Host.Outcome.next.inj (ht.symm.trans hexec)
  rw [← programProblem_eq_none_iff 0 s.rom.progA, ← programProblem_eq_none_iff 1 s.rom.progB]
  refine ⟨answered r s, hexec, rfl, rfl, fun code info h => ?progA, fun hA code info h => ?progB,
    fun hA hB hmax => ?capacity, fun hA hB hmax => ?text⟩
  case progA =>
    obtain ⟨f, hf, rfl⟩ := programProblem_of_programFault h
    exact hend (execSign_programA hf) ▸ faultTaken_enterFault f info s
  case progB =>
    obtain ⟨f, hf, rfl⟩ := programProblem_of_programFault h
    exact hend (execSign_programB hA hf) ▸ faultTaken_enterFault f info s
  case capacity => exact hend (execSign_capacity hA hB hmax) ▸ faultTaken_enterFault .capacityExceeded _ s
  case text =>
    rw [← expansion_eq_utf8, ← truncateUnits_eq]
    cases hx : expansion s.params.loneSurrogate (truncateUnits s.params.truncCount (units.take n)) 0 with
    | ok bytes =>
      have hcompleted := hend (execSign_eq hA hB hn hmax hx) ▸ completed_respond _ s
      rw [signResult_eq hA hB rfl] at hcompleted
      exact hcompleted
    | error k =>
      exact ⟨_, hend (execSign_invalidUnit hA hB hn hmax hx) ▸ faultTaken_enterFault .invalidUnit _ s,
        indexInfo_correct k⟩

end Sys2Proof.Machine
end

section
/-! PROOFS. The family 44_md5_engine: the round functions (O8) and the tables (O52), one step (O50), the load of a block
(O49), the padding (O48) and the digest (O51); with them `MD5` as a function of its text (O45, O46), and its small steps
(O53). -/

namespace Sys2Proof.Machine

open Sys2Proof.Safety

/-! ### The round functions and the tables -/

section
variable (x y z : Word)

theorem md5F_eq : md5F x y z = x &&& y ||| ~~~x &&& z := by
  rw [md5F, not32_eq, and32_eq, and32_eq, or32_eq]

theorem md5G_eq : md5G x y z = x &&& z ||| y &&& ~~~z := by
  rw [md5G, not32_eq, and32_eq, and32_eq, or32_eq]

theorem md5H_eq : md5H x y z = x ^^^ y ^^^ z := by
  rw [md5H, xor32_eq, xor32_eq]

theorem md5I_eq : md5I x y z = y ^^^ (x ||| ~~~z) := by
  rw [md5I, not32_eq, or32_eq, xor32_eq]

theorem exec_md5F (s : State) : exec (.md5F x y z) s = .next (s.setResult (md5F x y z)) := rfl

theorem exec_md5G (s : State) : exec (.md5G x y z) s = .next (s.setResult (md5G x y z)) := rfl

theorem exec_md5H (s : State) : exec (.md5H x y z) s = .next (s.setResult (md5H x y z)) := rfl

theorem exec_md5I (s : State) : exec (.md5I x y z) s = .next (s.setResult (md5I x y z)) := rfl

end

/-- Settles O8: each function is built of the machine's bitwise operations; in `F` and `G` the selecting bit decides. -/
theorem roundFunctions : Obligations.RoundFunctions := by
  intro ops s
  refine ⟨⟨rfl, _, exec_md5F _ _ _ s, fun i hi => ?f⟩, ⟨rfl, _, exec_md5G _ _ _ s, fun i hi => ?g⟩,
    ⟨rfl, _, exec_md5H _ _ _ s, fun i hi => ?h⟩, rfl, _, exec_md5I _ _ _ s, fun i hi => ?i⟩
  case f =>
    simp only [md5F_eq, BitVec.getLsbD_or, BitVec.getLsbD_and, BitVec.getLsbD_not, hi, decide_true, Bool.true_and]
    cases ops.a.getLsbD i <;> simp
  case g =>
    simp only [md5G_eq, BitVec.getLsbD_or, BitVec.getLsbD_and, BitVec.getLsbD_not, hi, decide_true, Bool.true_and]
    cases ops.c.getLsbD i <;> simp
  case h => simp [md5H_eq]
  case i => simp [md5I_eq, hi]

theorem ktTable_eq_additive : ktTable = Reference.additive := rfl

theorem ktTable_length : ktTable.length = 64 := rfl

theorem ksTable_length : ksTable.length = 64 := rfl

theorem ksTable_getD_toNat : ∀ j < 64, (ksTable.getD j 0).toNat = Reference.rotation j := by decide

theorem rotation_range : ∀ j < 64, 4 ≤ Reference.rotation j ∧ Reference.rotation j ≤ 23 := by decide

theorem messageIndex_eq_wordIndex : ∀ j < 64, messageIndex j = Reference.wordIndex j := by decide

/-- The odd factors 5, 3 and 7 permute the residues modulo 16 (R194). -/
theorem messageIndex_perm_of_round : ∀ r < 4, ((List.range' (16 * r) 16).map messageIndex).Perm (List.range 16) := by
  decide

/-- Settles O52: the tables are finite, and the general facts used below are among the clauses. -/
theorem md5Schedules : Obligations.Md5Schedules :=
  ⟨fun _ _ => rfl, messageIndex_perm_of_round, ktTable_eq_additive, ktTable_length, ksTable_length, ksTable_getD_toNat,
    rotation_range, ktTable_eq_additive, rfl, rfl, rfl⟩

/-! ### One step -/

/-- The round of a step, as the division by 16 and as the bounds that the model compares with. -/
theorem round_cases {j : Nat} (h : j < 64) : (j / 16 = 0 ∧ j < 16) ∨ (j / 16 = 1 ∧ ¬ j < 16 ∧ j < 32) ∨
    (j / 16 = 2 ∧ ¬ j < 16 ∧ ¬ j < 32 ∧ j < 48) ∨ (j / 16 = 3 ∧ ¬ j < 16 ∧ ¬ j < 32 ∧ ¬ j < 48) := by omega

theorem roundFunction_eq {j : Nat} (h : j < 64) (x y z : Word) :
    roundFunction j x y z = Reference.roundFn j x y z := by
  rcases round_cases h with ⟨hr, h1⟩ | ⟨hr, h1, h2⟩ | ⟨hr, h1, h2, h3⟩ | ⟨hr, h1, h2, h3⟩
  · simp only [roundFunction, Reference.roundFn, hr, h1, if_true, md5F_eq]
  · simp only [roundFunction, Reference.roundFn, hr, h1, h2, if_true, if_false, md5G_eq]
  · simp only [roundFunction, Reference.roundFn, hr, h1, h2, h3, if_true, if_false, md5H_eq]
  · simp only [roundFunction, Reference.roundFn, hr, h1, h2, h3, if_false, md5I_eq]

/-- The rotate amount of a step is a legal amount of `ROTL` (R96, R192). -/
theorem rotl_ksTable {j : Nat} (h : j < 64) (t : Word) :
    rotl t (ksTable.getD j 0).toNat = t.rotateLeft (Reference.rotation j) := by
  obtain ⟨hlow, hhigh⟩ := rotation_range j h
  rw [ksTable_getD_toNat j h, rotl_natCast t (by omega) (by omega)]

theorem modularSum_nil : modularSum [] = 0 := rfl

/-- The working words after step `j` with the tables of R191 and R192, in the machine's words (R193). -/
theorem stepWith_eq {rom : ReadOnlyStores} (hkt : rom.kt = ktTable) (hks : rom.ks = ksTable) {j : Nat} (hj : j < 64)
    (x : List Word) (w : Quad) : stepWith rom x w j =
      { a := w.d
        b := w.b + (w.a + Reference.roundFn j w.b w.c w.d + Reference.additive.getD j 0 +
          x.getD (Reference.wordIndex j) 0).rotateLeft (Reference.rotation j)
        c := w.b
        d := w.c } := by
  simp only [stepWith, stepWords, hkt, hks, ktTable_eq_additive, rotl_ksTable hj, roundFunction_eq hj,
    messageIndex_eq_wordIndex j hj, modularSum_cons, modularSum_nil, add_zero, add_assoc]

/-- Settles O50: the step's words are those of the fixed tables. -/
theorem md5StepRule : Obligations.Md5StepRule := by
  intro s j w x hj hsj hw hx hx16 hkt hks f t nb
  rw [md5Step_eq hsj hj hw hx hx16 (hkt ▸ ktTable_length) (hks ▸ ksTable_length), stepWith_eq hkt hks hj]
  rfl

/-! ### The load of a block -/

/-- The bytes of a little-endian word (R53, R185). -/
theorem u32_littleWord (b0 b1 b2 b3 : Byte) : u32 (littleWord b0 b1 b2 b3) =
    b0.toNat + 256 * b1.toNat + 65536 * b2.toNat + 16777216 * b3.toNat := by
  have happend : ∀ {n : Nat} (hi : BitVec n) (lo : Byte), (hi ++ lo).toNat = 256 * hi.toNat + lo.toNat := by
    intro n hi lo
    rw [BitVec.toNat_append, ← Nat.shiftLeft_add_eq_or_of_lt lo.isLt, Nat.shiftLeft_eq, Nat.mul_comm]
  rw [u32, littleWord, happend, happend, happend]
  omega

section
variable {s : State} {base n cap : Nat} {bytes : Nat → Byte} (hcap : s.req.cap = some cap) (hle : base + n ≤ cap)
  (hbytes : ∀ i, i < n → s.req.bb.read (base + i) = some (bytes i))
include hcap hle hbytes

/-- The word of four valid cells. -/
theorem bbWord_of_valid {i : Nat} (hi : i + 4 ≤ n) : bbWord s (base + i) =
    .ok (littleWord (bytes i) (bytes (i + 1)) (bytes (i + 2)) (bytes (i + 3))) := by
  have hget : ∀ k < n, bbGet s (base + k) = .ok (bytes k) := fun k hk => bbGet_ok hcap (by omega) (hbytes k hk)
  simp only [bbWord, Nat.add_assoc, hget i (by omega), hget (i + 1) (by omega), hget (i + 2) (by omega),
    hget (i + 3) (by omega), ok_bind]
  rfl

/-- The words of a range of valid cells, one for every fourth index (R185). -/
theorem bbWords_of_valid (k : Nat) {i : Nat} (hi : i + 4 * k ≤ n) : bbWords s (base + i) k =
    .ok ((List.range' i k 4).map fun j => littleWord (bytes j) (bytes (j + 1)) (bytes (j + 2)) (bytes (j + 3))) := by
  induction k generalizing i with
  | zero => rfl
  | succ k ih =>
    rw [bbWords, bbWord_of_valid hcap hle hbytes (by omega), ok_bind, Nat.add_assoc, ih (by omega), ok_bind,
      List.range'_succ, List.map_cons]
    rfl

end

theorem loadBlock_of_words {s : State} {blk : Nat} {x : List Word} {h : Quad}
    (hx : bbWords s (64 * blk) 16 = .ok x) (hh : s.req.h = some h) :
    loadBlock blk s = .ok (s.setReq { s.req with blk := some blk, x := some x, w := some h, j := some 0 }) := by
  rw [loadBlock, show md5Block = 64 from rfl, hx, hh]
  rfl

/-- Settles O49: the block's 64 valid cells are read as sixteen words. -/
theorem blockLoadRule : Obligations.BlockLoadRule := by
  intro s blk cap h bytes hcap hle hh hbytes
  have hwords := bbWords_of_valid hcap hle hbytes 16 (Nat.le_of_eq (Nat.zero_add 64))
  refine ⟨_, loadBlock_of_words hwords hh, by rw [List.length_map, List.length_range'], fun k hk => ?_⟩
  rw [List.getElem?_map, List.getElem?_range' hk, Nat.zero_add]
  exact ⟨_, rfl, u32_littleWord _ _ _ _⟩

/-! ### The padding -/

/-- A byte-wide field at a byte boundary (R54, R55). -/
theorem byteOf_field (n k : Nat) : byteOf (field n (8 * k + 7) (8 * k)) = BitVec.ofNat 8 (n / 256 ^ k) := by
  have hwidth : 8 * k + 7 - 8 * k + 1 = 8 := by omega
  rw [byteOf, field, hwidth, Nat.pow_mul]
  exact BitVec.eq_of_toNat_eq (by simp)

theorem lengthTrailer_eq (l : Nat) : lengthTrailer (BitVec.ofNat 64 l) =
    (List.range 8).map fun k => BitVec.ofNat 8 (8 * l % 2 ^ 64 / 256 ^ k) := by
  have hbits : (8 * BitVec.ofNat 64 l).toNat = 8 * l % 2 ^ 64 := by simp
  rw [← hbits]
  simp only [← byteOf_field]
  rfl

/-- The bits above 2^64 do not show in the low eight bytes (R182). -/
theorem byte_mod_two_pow {k : Nat} (hk : k < 8) (n : Nat) :
    BitVec.ofNat 8 (n % 2 ^ 64 / 256 ^ k) = BitVec.ofNat 8 (n / 256 ^ k) := by
  have hsplit : 2 ^ 64 = 256 ^ k * 256 ^ (8 - k) := by
    rw [← Nat.pow_add, Nat.add_sub_cancel' hk.le]
    rfl
  apply BitVec.eq_of_toNat_eq
  rw [BitVec.toNat_ofNat, BitVec.toNat_ofNat, hsplit, Nat.mod_mul_right_div_self,
    Nat.mod_mod_of_dvd _ (dvd_pow_self 256 (by omega))]

theorem zeroFill_eq (l : Nat) : zeroFill l = (119 - l % 64) % 64 := by
  unfold zeroFill
  omega

/-- The padded message is the reference's (R184). -/
theorem paddedMessage_eq_pad (bytes : List Byte) : paddedMessage bytes = Reference.pad bytes := by
  have htrailer : lengthTrailer (BitVec.ofNat 64 bytes.length) =
      (List.range 8).map fun k => BitVec.ofNat 8 (8 * bytes.length / 256 ^ k) := by
    rw [lengthTrailer_eq]
    exact List.map_congr_left fun k hk => byte_mod_two_pow (List.mem_range.1 hk) _
  simp only [paddedMessage, padding, Reference.pad, htrailer, zeroFill_eq, List.append_assoc]

theorem padding_marker (l : Nat) : (padding l)[0]? = some 0x80 := rfl

theorem padding_zero {l k : Nat} (h0 : 0 < k) (hk : k ≤ zeroFill l) : (padding l)[k]? = some 0 := by
  obtain ⟨k, rfl⟩ := Nat.exists_eq_add_one_of_ne_zero h0.ne'
  simp only [padding, List.cons_append, List.nil_append, List.getElem?_cons_succ]
  rw [List.getElem?_append_left (by rw [List.length_replicate]; omega), List.getElem?_replicate_of_lt hk]

theorem padding_trailer {l k : Nat} (hk : k < 8) :
    (padding l)[zeroFill l + 1 + k]? = some (BitVec.ofNat 8 (8 * l % 2 ^ 64 / 256 ^ k)) := by
  have hlen : ([0x80] ++ List.replicate (zeroFill l) 0 : List Byte).length = zeroFill l + 1 := by simp
  rw [padding, List.getElem?_append_right (by omega), hlen, Nat.add_sub_cancel_left, lengthTrailer_eq,
    List.getElem?_map, List.getElem?_range hk]
  rfl

/-- The state after the padding of `L` bytes (R182, R184). -/
def afterPadding (l : Nat) (s : State) : State :=
  s.setReq { s.req with
    len := some (BitVec.ofNat 64 l)
    nb := some ((l + (padding l).length) / 64)
    cap := some (l + (padding l).length)
    bb := s.req.bb.writeMany l (padding l) }

theorem padMessage_eq {s : State} {l : Nat} (hc : s.req.c = some l) : padMessage s = .ok (afterPadding l s) := by
  rw [padMessage, hc, need_some, ok_bind, bbWrite_of_le rfl (Nat.le_refl _)]
  rfl

/-- The cells of the padding (R184). -/
theorem afterPadding_read (l i : Nat) (s : State) : (afterPadding l s).req.bb.read i =
    if l ≤ i ∧ i < l + (padding l).length then (padding l)[i - l]? else s.req.bb.read i :=
  memory_read_writeMany _ _ _ _

theorem afterPadding_read_add {l k : Nat} {b : Byte} (h : (padding l)[k]? = some b) (s : State) :
    (afterPadding l s).req.bb.read (l + k) = some b := by
  have hk := (List.getElem?_eq_some_iff.1 h).1
  rw [afterPadding_read, if_pos (by omega), Nat.add_sub_cancel_left, h]

/-- Settles O48: marker, zero fill and trailer stand one after the other from cell `L` on. -/
theorem paddingRule : Obligations.PaddingRule := by
  intro s l hc
  have hlen := padding_length l
  have hfill := zeroFill_lt l
  refine ⟨_, l + (padding l).length, padMessage_eq hc, rfl, rfl, rfl, padding_total l, by omega, by omega,
    fun i hi => ?before, afterPadding_read_add (padding_marker l) s, fun i hi hi' => ?zero, fun k hk => ?trailer,
    fun i hi => ?after⟩
  case before => rw [afterPadding_read, if_neg (by omega)]
  case after => rw [afterPadding_read, if_neg (by omega)]
  case zero =>
    obtain ⟨k, rfl⟩ := Nat.exists_eq_add_of_lt hi
    exact afterPadding_read_add (padding_zero (Nat.succ_pos k) (by omega)) s
  case trailer =>
    rw [show l + (padding l).length - 8 + k = l + (zeroFill l + 1 + k) by omega]
    exact afterPadding_read_add (padding_trailer hk) s

/-! ### The digest -/

theorem wordBytes_eq_lowFirst (w : Word) : wordBytes w = Reference.lowFirst w := by
  simp only [Reference.lowFirst, ← byteOf_field]
  rfl

theorem lowFirst_length (w : Word) : (Reference.lowFirst w).length = 4 := rfl

theorem hexChar_eq : ∀ d < 16, hexChar d = Reference.hexDigits.getD d 0 := by decide

/-- The string is the reference's (R200). -/
theorem hexString_eq_hex (bytes : List Byte) : hexString bytes = Reference.hex bytes := by
  induction bytes with
  | nil => rfl
  | cons b rest ih =>
    rw [hexString, ih, hexChar_eq _ (by omega), hexChar_eq _ (by omega)]
    rfl

/-- Element `k` of part `i` of a list that is joined from parts of one length. -/
theorem getElem?_flatMap_mul_add {α β : Type} {f : α → List β} {n k : Nat} (hf : ∀ a, (f a).length = n) (hk : k < n) :
    ∀ {l : List α} {i : Nat} {a : α}, l[i]? = some a → (l.flatMap f)[n * i + k]? = (f a)[k]?
  | b :: rest, 0, a, h => by
    cases h
    rw [List.flatMap_cons, Nat.mul_zero, Nat.zero_add, List.getElem?_append_left (by rw [hf]; exact hk)]
  | b :: rest, i + 1, a, h => by
    rw [List.flatMap_cons, List.getElem?_append_right (by rw [hf, Nat.mul_succ]; omega), hf,
      show n * (i + 1) + k - n = n * i + k by rw [Nat.mul_succ]; omega]
    exact getElem?_flatMap_mul_add hf hk h

theorem digestBytes_eq_flatMap (q : Quad) : digestBytes q = [q.a, q.b, q.c, q.d].flatMap Reference.lowFirst := by
  simp only [digestBytes, wordBytes_eq_lowFirst, List.flatMap_cons, List.flatMap_nil, List.append_nil,
    List.append_assoc]

/-- Settles O51: the digest is joined from four bytes a word, and the string from two characters a byte. -/
theorem digestRule : Obligations.DigestRule := by
  intro s q hh
  refine ⟨_, _, _, md5Output_eq hh, rfl, digestBytes_length q, ?_, fun i k w hw hk => ?_, fun j b hb => ?_⟩
  · rw [hexString_length, digestBytes_length]
  · rw [digestBytes_eq_flatMap, getElem?_flatMap_mul_add lowFirst_length hk hw, Reference.lowFirst, List.getElem?_map,
      List.getElem?_range hk]
    rfl
  · rw [hexString_eq_hex]
    exact ⟨getElem?_flatMap_mul_add (by intro; rfl) Nat.zero_lt_two hb,
      getElem?_flatMap_mul_add (by intro; rfl) Nat.one_lt_two hb⟩

/-! ### The digest as the reference's -/

/-- The tables of a core that holds its fixed contents (R22, R191, R192). -/
structure FixedTables (rom : ReadOnlyStores) : Prop where
  kt : rom.kt = ktTable
  ks : rom.ks = ksTable
  iv : rom.iv = ivTable

theorem FixedTables.kt_length {rom : ReadOnlyStores} (h : FixedTables rom) : rom.kt.length = 64 :=
  h.kt ▸ ktTable_length

theorem FixedTables.ks_length {rom : ReadOnlyStores} (h : FixedTables rom) : rom.ks.length = 64 :=
  h.ks ▸ ksTable_length

theorem messageWord_eq_wordAt (message : List Byte) (i : Nat) : messageWord message i = Reference.wordAt message i := by
  rw [← trunc32_u32 (messageWord message i), messageWord, u32_littleWord]
  rfl

theorem messageWords_getD (message : List Byte) (base : Nat) {i : Nat} (h : i < 16) :
    (messageWords message base 16).getD i 0 = Reference.wordAt message (base + 4 * i) := by
  rw [List.getD_eq_getElem?_getD, messageWords_getElem? message base 16 i h, messageWord_eq_wordAt, Option.getD_some]

section
variable {rom : ReadOnlyStores} (hrom : FixedTables rom)
include hrom

/-- A step on the words of a block is the reference's, which adds the message word before the constant (R193, R197). -/
theorem stepWith_eq_md5Round (message : List Byte) (base : Nat) (w : Quad) {j : Nat} (hj : j < 64) :
    stepWith rom (messageWords message base 16) w j = Reference.md5Round message base w j := by
  have hindex : Reference.wordIndex j < 16 := messageIndex_eq_wordIndex j hj ▸ messageIndex_lt j
  rw [stepWith_eq hrom.kt hrom.ks hj, messageWords_getD message base hindex, Reference.md5Round,
    add_right_comm (w.a + _)]

theorem blockWith_eq_md5Block (message : List Byte) (h : Quad) (base : Nat) :
    blockWith rom message h base = Reference.md5Block message h base := by
  have hsteps : (List.range' 0 64).foldl (stepWith rom (messageWords message base 16)) h =
      (List.range 64).foldl (Reference.md5Round message base) h := by
    rw [List.range_eq_range']
    exact List.foldl_ext _ _ _ fun w j hj => stepWith_eq_md5Round hrom message base w (by simpa using hj)
  simp only [blockWith, hsteps, addQuad, Reference.md5Block, modularSum_cons, modularSum_nil, add_zero]

/-- The blocks of the padded message in order, from the fixed start (R186, R196). -/
theorem digestWith_eq_md5 (bytes : List Byte) :
    digestWith rom { a := 0x67452301, b := 0xEFCDAB89, c := 0x98BADCFE, d := 0x10325476 } bytes =
      Reference.md5 bytes := by
  simp only [digestWith, digestBytes, wordBytes_eq_lowFirst, paddedMessage_eq_pad, blockWith_eq_md5Block hrom,
    Reference.md5, Reference.md5Chain, List.range_eq_range']

end

/-! ### `MD5` as a function of its text -/

/-- The response of an `MD5` whose text is admitted, from its normalised text (R180). -/
def md5TextResponse (lone : LoneSurrogate) (tx : List CodeUnit) : Response :=
  match Reference.utf8 lone tx 0 with
  | .ok bytes => { code := 0, info := 0, result := .md5 (Reference.md5 bytes) (Reference.hex (Reference.md5 bytes)) }
  | .error k => faultResponse .invalidUnit (indexInfo k)

/-- The response of `MD5`, and none where it stops on a short record (R180). -/
def md5Answer (n : Nat) (units : List CodeUnit) (params : Parameters) : Option Response :=
  if params.maxUnits < n then some (faultResponse .capacityExceeded (trunc32 (min n 4294967295)))
  else if units.length < n then none
  else some (md5TextResponse params.loneSurrogate (Reference.normalise (units.take n)))

section
variable {n : Nat} {units : List CodeUnit} {s : State} (hrom : FixedTables s.rom)
include hrom

/-- `MD5` on a text that passes the capacity check. -/
theorem execMd5_text (hmax : n ≤ s.params.maxUnits) (hn : n ≤ units.length) : execMd5 n units s =
    .next (answered (md5TextResponse s.params.loneSurrogate (Reference.normalise (units.take n))) s) := by
  rw [md5TextResponse, ← normaliseUnits_eq, ← expansion_eq_utf8]
  cases hx : expansion s.params.loneSurrogate (normaliseUnits (units.take n)) 0 with
  | ok bytes =>
    rw [execMd5_eq hn hmax hrom.iv hrom.kt_length hrom.ks_length hx, digestWith_eq_md5 hrom, hexString_eq_hex,
      respond_eq_answered]
  | error k => rw [execMd5_invalidUnit hn hmax hx, enterFault_eq_answered]

/-- `MD5` answers its response, or stops. -/
theorem execMd5_eq_md5Answer : execMd5 n units s =
    (md5Answer n units s.params).elim (.fault (.outsideSpace .inp 0)) fun r => .next (answered r s) := by
  rw [md5Answer]
  split_ifs with hmax hshort
  · exact execMd5_capacity hmax
  · exact execMd5_short (Nat.not_lt.1 hmax) hshort
  · exact execMd5_text hrom (Nat.not_lt.1 hmax) (Nat.not_lt.1 hshort)

theorem exec_md5_eq_next_iff {t : State} :
    exec (.md5 n units) s = .next t ↔ ∃ r, md5Answer n units s.params = some r ∧ t = answered r s := by
  rw [exec, execMd5_eq_md5Answer hrom]
  cases md5Answer n units s.params with
  | none => simp
  | some r => simp [eq_comm]

end

/-- Settles O46: the response is a function of the record and the parameters. -/
theorem md5ReadsTheTextAlone : Obligations.Md5ReadsTheTextAlone := by
  intro s s' t n units hkt hks hiv hkt' hks' hiv' hparams h
  obtain ⟨r, hr, rfl⟩ := (exec_md5_eq_next_iff ⟨hkt, hks, hiv⟩).1 h
  exact ⟨answered r s', (exec_md5_eq_next_iff ⟨hkt', hks', hiv'⟩).2 ⟨r, hparams ▸ hr, rfl⟩, rfl, rfl⟩

/-- Settles O45: the capacity check decides first, and the expansion of the normalised text decides between a digest and
the fault. -/
theorem md5Rule : Obligations.Md5Rule := by
  intro s n units hn hkt hks hiv
  have hrom : FixedTables s.rom := ⟨hkt, hks, hiv⟩
  rcases Nat.lt_or_ge s.params.maxUnits n with hmax | hmax
  · exact ⟨_, execMd5_capacity hmax, rfl, rfl, fun _ => faultTaken_enterFault .capacityExceeded _ s,
      fun h => absurd hmax (Nat.not_lt.2 h)⟩
  · refine ⟨_, execMd5_text hrom hmax hn, rfl, rfl, fun h => absurd h (Nat.not_lt.2 hmax), fun _ => ?_⟩
    rw [md5TextResponse]
    cases Reference.utf8 s.params.loneSurrogate (Reference.normalise (units.take n)) 0 with
    | ok bytes => exact completed_respond _ s
    | error k => exact ⟨_, faultTaken_enterFault .invalidUnit _ s, indexInfo_correct k⟩

/-! ### The small steps of an `MD5` -/

/-- The compression phase with no selection: a step is a turn of an `MD5` in flight. -/
structure InCompression (s : State) : Prop where
  noSelection : s.select = none
  compression : s.phase = .compression

theorem InCompression.setReq {s : State} (hs : InCompression s) (r : RequestState) : InCompression (s.setReq r) :=
  ⟨hs.noSelection, hs.compression⟩

section
variable {s : State} (hs : InCompression s)
include hs

theorem step_md5Turn : step s = outcome (md5Turn s) := by
  simp only [step, fetch, hs.noSelection, hs.compression]

theorem step_first_block (hj : s.req.j = none) : step s = outcome (loadBlock 0 s) := by
  rw [step_md5Turn hs, md5Turn, hj]

theorem step_md5Step {j : Nat} (hj : s.req.j = some (BitVec.ofNat 6 j)) (hlt : j < 63) :
    step s = outcome (md5Step s) := by
  have hne : ¬ BitVec.ofNat 6 j = 63 := fun h => by
    have hnat : j % 64 = 63 := (BitVec.toNat_ofNat j 6).symm.trans (congrArg BitVec.toNat h)
    omega
  rw [step_md5Turn hs, md5Turn, hj]
  simp only [if_neg hne]
  cases md5Step s <;> rfl

theorem step_last_md5Step (hj : s.req.j = some 63) : step s = outcome (md5Step s >>= blockTurn) := by
  rw [step_md5Turn hs, md5Turn, hj]
  rfl

end

theorem md5Steps_succ_of_ok {s t : State} (h : md5Step s = .ok t) (k : Nat) : md5Steps (k + 1) s = md5Steps k t := by
  rw [md5Steps, h, ok_bind]

/-- From step `j` on, the small steps run the rest of the block and its turn. -/
theorem run_md5Steps (k : Nat) : ∀ {s : State} {j : Nat} {w : Quad} {x : List Word}, InCompression s → j + k = 63 →
    s.req.j = some (BitVec.ofNat 6 j) → s.req.w = some w → s.req.x = some x → x.length = 16 → FixedTables s.rom →
      Host.Core.run Sys2Proof.core (k + 1) s = outcome (md5Steps (k + 1) s >>= blockTurn) := by
  induction k with
  | zero =>
    intro s j w x hs hjk hj hw hx hx16 hrom
    obtain rfl : j = 63 := hjk
    refine (core_run_one Sys2Proof.core s).trans ((step_last_md5Step hs hj).trans ?_)
    have hlast := md5Step_eq hj (by omega) hw hx hx16 hrom.kt_length hrom.ks_length
    rw [md5Steps_succ_of_ok hlast, hlast]
    rfl
  | succ k ih =>
    intro s j w x hs hjk hj hw hx hx16 hrom
    have hone := md5Step_eq hj (by omega) hw hx hx16 hrom.kt_length hrom.ks_length
    have hstep := step_md5Step hs hj (by omega)
    rw [hone] at hstep
    rw [md5Steps_succ_of_ok hone]
    exact (core_run_succ Sys2Proof.core hstep).trans
      (ih (hs.setReq _) (j := j + 1) (by omega) rfl rfl hx hx16 hrom)

section
variable {s : State} {h w : Quad} (hh : s.req.h = some h) (hw : s.req.w = some w)
include hh hw

theorem feedForward_eq : feedForward s = .ok (s.setReq { s.req with h := some (addQuad h w) }) := by
  rw [feedForward, hh, hw]
  rfl

theorem blockTurn_eq {blk nb : Nat} (hblk : s.req.blk = some blk) (hnb : s.req.nb = some nb) : blockTurn s =
    if blk + 1 < nb then loadBlock (blk + 1) (s.setReq { s.req with h := some (addQuad h w) })
    else md5Output (s.setReq { s.req with h := some (addQuad h w) }) := by
  simp only [blockTurn, feedForward_eq hh hw, ok_bind, setReq_req, hblk, hnb, need_some]

end

/-- What the block loop of an `MD5` in flight keeps, on the padded message in `BB` (R195, R196). -/
structure BlockLoop (message : List Byte) (s : State) : Prop extends InCompression s where
  tables : FixedTables s.rom
  cells : ∀ i, s.req.bb.read i = message[i]?
  cap : s.req.cap = some message.length
  nb : s.req.nb = some (message.length / 64)
  chaining : ∃ h, s.req.h = some h

/-- The state in block `blk` of a message, before its first step or after its last, with the working words `w` (R185,
R195). -/
def inBlock (message : List Byte) (blk : Nat) (w : Quad) (s : State) : State :=
  s.setReq { s.req with
    blk := some blk, x := some (messageWords message (64 * blk) 16), w := some w, j := some 0 }

/-- The small steps of a block are its compression and the turn after it, to the next block or to the output. -/
theorem run_block {message : List Byte} {s : State} {blk : Nat} (hs : BlockLoop message s)
    (hlt : blk < message.length / 64) : ∃ u t, loadBlock blk s = .ok u ∧ compress blk s = .ok t ∧ BlockLoop message t ∧
      Host.Core.run Sys2Proof.core 64 u =
        outcome (if blk + 1 < message.length / 64 then loadBlock (blk + 1) t else md5Output t) := by
  obtain ⟨h, hh⟩ := hs.chaining
  have hx16 := messageWords_length message (64 * blk) 16
  have hload : loadBlock blk s = .ok (inBlock message blk h s) := loadBlock_eq hs.cells hs.cap hh (by omega)
  obtain ⟨w, hsteps⟩ : ∃ w, md5Steps 64 (inBlock message blk h s) = .ok (inBlock message blk w s) :=
    ⟨_, md5Steps_eq 64 (inBlock message blk h s) 0 h _ rfl (Nat.le_refl 64) rfl rfl hx16 hs.tables.kt_length
      hs.tables.ks_length⟩
  have hrun := run_md5Steps 63 (s := inBlock message blk h s) (j := 0) (hs.setReq _) rfl rfl rfl rfl hx16 hs.tables
  have hturn := blockTurn_eq (s := inBlock message blk w s) hh rfl rfl hs.nb
  rw [hsteps, ok_bind, hturn] at hrun
  have hcompress : compress blk s = feedForward (inBlock message blk w s) := by
    rw [compress, hload, ok_bind, hsteps, ok_bind]
  exact ⟨_, _, hload, hcompress.trans (feedForward_eq hh rfl),
    ⟨hs.setReq _, hs.tables, hs.cells, hs.cap, hs.nb, _, rfl⟩, hrun⟩

theorem compressFrom_succ_of_ok {s t : State} {blk : Nat} (h : compress blk s = .ok t) (k : Nat) :
    compressFrom blk (k + 1) s = compressFrom (blk + 1) k t := by
  rw [compressFrom, h, ok_bind]

/-- From the first step of block `blk` on, the small steps run the blocks from there on, and the output. -/
theorem run_blocks {message : List Byte} (k : Nat) : ∀ {s u : State} {blk : Nat}, BlockLoop message s →
    blk + k + 1 = message.length / 64 → loadBlock blk s = .ok u →
      ∃ m, Host.Core.run Sys2Proof.core m u = outcome (compressFrom blk (k + 1) s >>= md5Output) := by
  induction k with
  | zero =>
    intro s u blk hs hk hu
    obtain ⟨u, t, hload, hcompress, -, hrun⟩ := run_block hs (blk := blk) (by omega)
    cases hload.symm.trans hu
    rw [if_neg (by omega)] at hrun
    rw [compressFrom_succ_of_ok hcompress]
    exact ⟨64, hrun⟩
  | succ k ih =>
    intro s u blk hs hk hu
    obtain ⟨u, t, hload, hcompress, ht, hrun⟩ := run_block hs (blk := blk) (by omega)
    cases hload.symm.trans hu
    obtain ⟨v, -, hnext, -⟩ := run_block ht (blk := blk + 1) (by omega)
    rw [if_pos (by omega), hnext] at hrun
    obtain ⟨m, hrest⟩ := ih ht (by omega) hnext
    rw [compressFrom_succ_of_ok hcompress]
    exact ⟨64 + m, (core_run_add Sys2Proof.core 64 m hrun).trans hrest⟩

/-- The premises of `md5Start_eq`, from a start that completed (R180). -/
theorem md5Start_premises {n : Nat} {units : List CodeUnit} {s t : State} (h : md5Start n units s = .ok t) :
    n ≤ units.length ∧ n ≤ s.params.maxUnits ∧
      ∃ bytes, expansion s.params.loneSurrogate (normaliseUnits (units.take n)) 0 = .ok bytes := by
  unfold md5Start at h
  obtain ⟨_, hcapacity, h⟩ := bind_eq_ok.1 h
  obtain ⟨v, hnormalise, h⟩ := bind_eq_ok.1 h
  obtain ⟨w, hexpand, -⟩ := bind_eq_ok.1 h
  obtain ⟨read, hread, hwrite⟩ := bind_eq_ok.1 hnormalise
  have hn := le_length_of_readInput rfl rfl hread
  cases (readInput_ok rfl rfl hn).symm.trans hread
  cases hwrite
  exact ⟨hn, le_maxUnits_of_checkCapacity (s := beginText 0x02 n units s) rfl hcapacity,
    expansion_of_expand (s := beginText 0x02 n units s) hexpand⟩

/-- A padded message has a block (R184). -/
theorem one_le_blocks (bytes : List Byte) : 1 ≤ (paddedMessage bytes).length / 64 := by
  have htotal := padding_total bytes.length
  rw [paddedMessage, List.length_append]
  rw [padding_length] at htotal ⊢
  omega

/-- Settles O53: the start leaves the block loop before block 0, which the first step loads, and the blocks follow. -/
theorem md5SmallStepsAgree : Obligations.Md5SmallStepsAgree := by
  intro s t n units hs hkt hks hiv h
  obtain ⟨hn, hmax, bytes, hx⟩ := md5Start_premises h
  obtain ⟨r, hstart, hcells, hcap, hh, hnb, hj, -⟩ := md5Start_eq hn hmax hiv hx
  cases hstart.symm.trans h
  have hloop : BlockLoop (paddedMessage bytes) { s.setReq r with phase := .compression } :=
    ⟨⟨hs, rfl⟩, ⟨hkt, hks, hiv⟩, hcells, hcap, hnb, _, hh⟩
  have hblocks := one_le_blocks bytes
  obtain ⟨u, -, hload, -⟩ := run_block hloop (blk := 0) (by omega)
  have hstep := step_first_block hloop.toInCompression hj
  rw [hload] at hstep
  obtain ⟨m, hrun⟩ := run_blocks ((paddedMessage bytes).length / 64 - 1) hloop (by omega) hload
  refine ⟨m + 1, (core_run_succ Sys2Proof.core hstep).trans (hrun.trans ?_)⟩
  rw [Nat.sub_add_cancel hblocks]
  have hfinish : md5Finish { s.setReq r with phase := .compression } =
      compressFrom 0 ((paddedMessage bytes).length / 64) { s.setReq r with phase := .compression } >>= md5Output := by
    rw [md5Finish, hloop.nb]
    rfl
  rw [← hfinish]
  exact congrArg outcome (congrArg (· >>= md5Finish) hstart).symm

end Sys2Proof.Machine
end

section
/-! PROOFS. The family 60_exceptions: the invariant kept by every step (O56), a dutiful host's core that never stops
(O59), and the program check (O34). -/

namespace Sys2Proof.Machine

open Sys2Proof.Safety

/-! ### What keeps the invariant -/

/-- The invariant speaks of `STATUS`, the response and request state alone. -/
theorem inv_of_eq {s t : State} (h : Inv s) (hstatus : t.status = s.status) (hresponse : t.response = s.response)
    (hreq : t.req = s.req) : Inv t where
  status := hstatus ▸ h.status
  response := hstatus ▸ hresponse ▸ h.response
  upc := hreq ▸ h.upc
  bufferForm := hreq ▸ h.bufferForm
  bufferBound := hreq ▸ h.bufferBound
  words := hreq ▸ h.words

/-- A change of request state that leaves the ByteBuffer keeps the invariant, if `UPC` and `X` keep theirs. -/
theorem inv_setReq {s : State} (h : Inv s) {r : RequestState} (hbb : r.bb = s.req.bb) (hcap : r.cap = s.req.cap)
    (hx : ∀ x, r.x = some x → x.length = 16) (hupc : ∀ u, r.upc = some u → u % 3 = 0) : Inv (s.setReq r) where
  status := h.status
  response := h.response
  upc := hupc
  bufferForm := by rw [setReq_req, hbb]; exact h.bufferForm
  bufferBound := by rw [setReq_req, hbb, hcap]; exact h.bufferBound
  words := hx

/-- Where request state holds no value, the invariant asks for the report alone. -/
theorem inv_of_req_empty {t : State} (hreq : t.req = RequestState.empty) (hstatus : t.status.toNat ≤ 6)
    (hresponse : ∀ r, t.response = some r →
      r.code = t.status ∧ (r.code = 0 → r.info = 0) ∧ (r.code ≠ 0 → r.result = .empty) ∧ ResultForm r.result) :
    Inv t where
  status := hstatus
  response := hresponse
  upc := fun u hu => by rw [hreq] at hu; cases hu
  bufferForm := by rw [hreq]; rfl
  bufferBound := fun i b hb => by rw [hreq] at hb; cases hb
  words := fun x hx => by rw [hreq] at hx; cases hx

/-- A taken fault reports a code from 1 to 6 and carries no result (R210, R212). -/
theorem inv_enterFault (f : FaultCode) (info : Word) (s : State) : Inv (enterFault f info s) := by
  refine inv_of_req_empty rfl (faultNumber_range f).2 fun r hr => ?_
  cases hr
  exact ⟨rfl, fun hzero => absurd hzero (faultNumber_ne_zero f), fun _ => rfl, trivial⟩

/-- A completed request reports the code 0 with `INFO` 0 and its result (R82). -/
theorem inv_respond {res : Result} (hres : ResultForm res) (s : State) : Inv (respond res s) := by
  refine inv_of_req_empty rfl (by simp) fun r hr => ?_
  cases hr
  exact ⟨rfl, fun _ => rfl, fun hne => absurd rfl hne, hres⟩

/-- After reset no response stands (R240). -/
theorem inv_resetCore (s : State) : Inv (resetCore s) :=
  inv_of_req_empty rfl (Nat.zero_le 6) fun _ hr => nomatch hr

/-- Every end of an instruction keeps the invariant; a micro-op advances `UPC` by 3 (R30). -/
theorem Ends.keeps_inv {i : Instr} {s t : State} (he : Ends i s t) (h : Inv s) : Inv t := by
  cases he with
  | illegal info | range info | fault f info => exact inv_enterFault _ info s
  | text res _ hres => exact inv_respond hres s
  | config m k => exact inv_respond (res := .empty) trivial _
  | latch w => exact inv_of_eq h rfl rfl rfl
  | micro o p u _ hu =>
    refine inv_setReq h rfl rfl h.words fun v hv => ?_
    cases hv
    rw [Nat.add_mod_right]
    exact h.upc u hu

/-- Every end of a turn keeps the invariant; a turn starts a program at `UPC` 0 and loads sixteen words (R30, R32). -/
theorem TurnEnds.keeps_inv {s t : State} (ht : TurnEnds s t) (h : Inv s) : Inv t := by
  rcases ht with ⟨f, info, rfl⟩ | ⟨res, rfl, hres⟩ | ⟨r, rfl, hbb, hcap, hx, hupc⟩
  · exact inv_enterFault f info s
  · exact inv_respond hres s
  · refine inv_setReq h hbb hcap (fun x hrx => (hx x hrx).elim id (h.words x)) fun u hu => ?_
    rcases hupc u hu with rfl | hs
    · rfl
    · exact h.upc u hs

theorem exec_keeps_inv {i : Instr} {s t : State} (he : exec i s = .next t) (h : Inv s) : Inv t :=
  (exec_ends he).keeps_inv h

/-- Settles O56, by cases on what the step did: an instruction, a turn, a fault, a reset, or nothing. -/
theorem stepKeepsInv : Obligations.StepKeepsInv := by
  intro s t h hstep
  cases step_ends hstep with
  | select x i _ _ he => exact exec_keeps_inv he (inv_of_eq h rfl rfl rfl)
  | request r rest i _ _ _ _ he => exact exec_keeps_inv he (inv_of_eq h rfl rfl rfl)
  | program i b _ _ _ he => exact exec_keeps_inv he h
  | turn _ _ ht => exact ht.keeps_inv h
  | wait _ _ _ ht => exact ht ▸ h
  | reset rest _ _ _ ht => exact ht ▸ inv_resetCore _
  | unknown r rest _ _ _ ht => exact ht ▸ inv_enterFault _ _ _

/-! ### A core at rest under a dutiful host -/

/-- The commands of the four codes (R80). -/
theorem decode_request_cases {r : Request} {i : Instr} (h : decode (.request r) = .ok i) :
    i = .sign r.n r.units ∨ i = .md5 r.n r.units ∨ i = .setSecrets r.m r.sec ∨ i = .loadSecret r.text := by
  simp only [decode, decodeRequest] at h
  split_ifs at h <;> cases h <;> simp

/-- A decoded request is a command. -/
theorem encode_request_of_decode {r : Request} {i : Instr} (h : decode (.request r) = .ok i) :
    ∃ q, encode i = .request q := by
  rcases decode_request_cases h with rfl | rfl | rfl | rfl <;> exact ⟨_, rfl⟩

/-- A command from a record with `N` units answers a next state, if the tables hold their fixed contents. -/
theorem exec_request_next {r : Request} (hr : dutiful r) {i : Instr} (hd : decode (.request r) = .ok i) {s : State}
    (hrom : FixedTables s.rom) : ∃ t, exec i s = .next t := by
  have hn : r.n ≤ r.units.length := hr.ge
  rcases decode_request_cases hd with rfl | rfl | rfl | rfl
  · obtain ⟨t, ht, -⟩ := signRule s r.n r.units hn
    exact ⟨t, ht⟩
  · obtain ⟨t, ht, -⟩ := md5Rule s r.n r.units hn hrom.kt hrom.ks hrom.iv
    exact ⟨t, ht⟩
  · exact ⟨_, exec_setSecrets r.m r.sec s⟩
  · exact ⟨_, exec_loadSecret r.text s⟩

theorem atRest_of_eq {s t : State} (h : AtRest s) (hphase : t.phase = .idle) (hselect : t.select = s.select)
    (hrom : t.rom = s.rom) : AtRest t :=
  ⟨hphase, hselect.trans h.noSelection, hrom ▸ h.kt, hrom ▸ h.ks, hrom ▸ h.iv⟩

section
variable {s : State} (h : AtRest s)
include h

theorem step_wait (hh : s.host = []) : step s = .next s := by
  simp only [step, fetch, h.noSelection, h.idle, fetchHost, hh]

theorem step_reset {rest : List HostMove} (hh : s.host = .reset :: rest) :
    step s = .next (resetCore { s with host := rest }) := by
  simp only [step, fetch, h.noSelection, h.idle, fetchHost, hh]

/-- A dutiful request runs to its response in one step, and the core is at rest again (R249, log 2). -/
theorem step_submit_dutiful {r : Request} (hr : dutiful r) {rest : List HostMove} (hh : s.host = .submit r :: rest) :
    ∃ t, step s = .next t ∧ AtRest t ∧ t.host = rest := by
  cases hd : decode (.request r) with
  | error e =>
    exact ⟨_, step_submit_unknown h.noSelection h.idle hh hd, atRest_of_eq h rfl rfl rfl, rfl⟩
  | ok i =>
    obtain ⟨t, ht⟩ := exec_request_next hr hd (s := { s with host := rest }) ⟨h.kt, h.ks, h.iv⟩
    obtain ⟨hrom, -, hhost, hselect, -, -, -, hcommand⟩ := execFrame i _ t ht
    obtain ⟨-, hphase, -⟩ := hcommand (encode_request_of_decode hd)
    exact ⟨t, (step_submit h.noSelection h.idle hh hd).trans ht, atRest_of_eq h hphase hselect hrom, hhost⟩

/-- A step makes the host's next move, if there is one, and the core is at rest again. -/
theorem step_atRest (hdutiful : ∀ r, HostMove.submit r ∈ s.host → dutiful r) :
    ∃ t, step s = .next t ∧ AtRest t ∧ t.host = s.host.tail := by
  cases hh : s.host with
  | nil => exact ⟨s, step_wait h hh, h, hh⟩
  | cons move rest =>
    cases move with
    | reset => exact ⟨_, step_reset h hh, ⟨rfl, rfl, h.kt, h.ks, h.iv⟩, rfl⟩
    | submit r => exact step_submit_dutiful h (hdutiful r (by simp [hh])) hh

end

/-- Settles O59, by induction on the number of steps: one step makes one move, and the moves left are dutiful. -/
theorem dutifulCoreNeverStops : Obligations.DutifulCoreNeverStops := by
  intro k
  induction k with
  | zero => exact fun s h _ => ⟨s, rfl, h, rfl⟩
  | succ k ih =>
    intro s h hdutiful
    obtain ⟨u, hstep, hu, hhost⟩ := step_atRest h hdutiful
    obtain ⟨t, hrun, ht, hrest⟩ := ih u hu fun r hr => hdutiful r (List.mem_of_mem_tail (hhost ▸ hr))
    exact ⟨t, (core_run_succ Sys2Proof.core hstep).trans hrun, ht, by rw [hrest, hhost, List.drop_tail]⟩

/-! ### The program check -/

theorem checkProgram_eq_ok_iff (x : Prog) (s : State) :
    checkProgram x s = .ok () ↔ Reference.WellFormedProgram (progBytes x s) := by
  rw [← programProblem_eq_none_iff (progNumber x)]
  exact ⟨programProblem_of_checkProgram, checkProgram_ok⟩

/-- A program with an amount byte that is not legal has a first one. -/
theorem exists_first_reserved {bytes : List Byte} (h : ¬ AmountsLegal bytes) :
    ∃ k c2, bytes[3 * k + 2]? = some c2 ∧ Reference.AmountReserved c2 ∧
      ∀ j c, j < k → bytes[3 * j + 2]? = some c → ∃ n, Reference.AmountIs c n := by
  classical
  have hex : ∃ k c2, bytes[3 * k + 2]? = some c2 ∧ Reference.AmountReserved c2 := by
    simpa only [AmountsLegal, Reference.AmountReserved, not_forall, not_exists, exists_prop] using h
  obtain ⟨c2, hk, hres⟩ := Nat.find_spec hex
  refine ⟨Nat.find hex, c2, hk, hres, fun j c hj hc => ?_⟩
  by_contra hnone
  exact Nat.find_min hex hj ⟨c, hc, not_exists.1 hnone⟩

/-- The programs with a check fault are those that R76 does not call well-formed (R211). -/
theorem exists_programFault_iff (prog : Nat) (bytes : List Byte) :
    (∃ code info, Reference.ProgramFault prog bytes code info) ↔ ¬ Reference.WellFormedProgram bytes := by
  constructor
  · rintro ⟨code, info, hfault⟩ hwf
    obtain ⟨f, hf, -⟩ := programProblem_of_programFault hfault
    cases ((programProblem_eq_none_iff prog bytes).2 hwf).symm.trans hf
  · intro hwf
    by_cases hlen : bytes.length = 0 ∨ bytes.length % 3 ≠ 0
    · exact ⟨2, _, .inl ⟨hlen, rfl, rfl⟩⟩
    · have hillegal : ¬ AmountsLegal bytes := fun hl => hwf ((wellFormedProgram_iff bytes).2 ⟨hlen, hl⟩)
      obtain ⟨hne, hmod⟩ := not_or.1 hlen
      obtain ⟨k, c2, hk, hres, hlegal⟩ := exists_first_reserved hillegal
      exact ⟨1, _, .inr ⟨hne, not_not.1 hmod, rfl, k, c2, hk, hres, hlegal, rfl⟩⟩

/-- Settles O34: the check raises the fault its search finds, which is the one of R211. -/
theorem programCheckRule : Obligations.ProgramCheckRule := by
  intro x s
  refine ⟨checkProgram_eq_ok_iff x s, exists_programFault_iff _ _, fun code info hfault => ?_⟩
  obtain ⟨f, hf, rfl⟩ := programProblem_of_programFault hfault
  exact ⟨_, checkProgram_raise hf, faultTaken_enterFault f info s⟩

end Sys2Proof.Machine
end

section
/-! PROOFS. The family 70_reset_and_hazards: the clean-entry record kept by whole requests and resets (O60), what reset
leaves and a core that waits (O29), and the invariant after reset (O55). -/

namespace Sys2Proof.Machine

open Sys2Proof.Safety

/-! ### What meets the launch premises -/

/-- The fixed contents, store by store, are the fixed stores. -/
theorem rom_eq_fixed_of_launch {s : State} (h : Launch s) : s.rom = ReadOnlyStores.fixed := by
  rw [ReadOnlyStores.fixed, ← h.progA, ← h.progB, ← h.kt, ← h.ks, ← h.iv]

theorem launch_of_rom_eq_fixed {s : State} (hrom : s.rom = ReadOnlyStores.fixed) (hphase : s.phase = .idle)
    (hselect : s.select = none) (hreq : s.req = RequestState.empty) (hnone : s.response = none → s.status = 0)
    (hsome : ∀ r, s.response = some r → s.status = r.code) : Launch s where
  idle := hphase
  noSelection := hselect
  kt := hrom ▸ rfl
  ks := hrom ▸ rfl
  iv := hrom ▸ rfl
  req := hreq
  progA := hrom ▸ rfl
  progB := hrom ▸ rfl
  statusAfterReset := hnone
  statusAfterResponse := hsome

/-- After a reset of a core with the fixed stores (R240). -/
theorem launch_resetCore {s : State} (hrom : s.rom = ReadOnlyStores.fixed) : Launch (resetCore s) :=
  launch_of_rom_eq_fixed hrom rfl rfl rfl (fun _ => rfl) fun _ hr => nomatch hr

/-- After a response of a core with the fixed stores and no selection, whatever the response (R249). -/
theorem launch_answered (r : Response) {s : State} (hrom : s.rom = ReadOnlyStores.fixed) (hselect : s.select = none) :
    Launch (answered r s) :=
  launch_of_rom_eq_fixed hrom rfl hselect rfl (fun hr => nomatch hr) fun _ hr => by cases hr; rfl

/-- Every end of a command is a response, from a state with its stores and its selection. -/
theorem Ends.eq_answered {i : Instr} {s t : State} (h : Ends i s t) {q : Request} (hi : encode i = .request q) :
    ∃ r u, t = answered r u ∧ u.rom = s.rom ∧ u.select = s.select := by
  cases h with
  | fault f info => exact ⟨_, s, enterFault_eq_answered f info s, rfl, rfl⟩
  | text res => exact ⟨_, s, respond_eq_answered res s, rfl, rfl⟩
  | config m k => exact ⟨_, writeSecrets m k s, respond_eq_answered _ _, rfl, rfl⟩
  | illegal _ hb | micro _ _ _ hb => obtain ⟨b, hb⟩ := hb; cases hi.symm.trans hb
  | range _ hx | latch _ hx => obtain ⟨x, hx⟩ := hx; cases hi.symm.trans hx

/-- A step from the launch premises ends in them, by cases on what it did: it waits, resets, or answers a request whole
(R243, R245). -/
theorem step_keeps_launch {s t : State} (h : Launch s) (hstep : step s = .next t) : Launch t := by
  have hrom := rom_eq_fixed_of_launch h
  cases step_ends hstep with
  | wait _ _ _ ht => exact ht ▸ h
  | reset rest _ _ _ ht => exact ht ▸ launch_resetCore hrom
  | unknown r rest hs _ _ ht =>
    rw [ht, enterFault_eq_answered]
    exact launch_answered _ hrom hs
  | request r rest i hs _ _ hd he =>
    obtain ⟨q, hq⟩ := encode_request_of_decode hd
    obtain ⟨a, u, rfl, hu, hselect⟩ := (exec_ends he).eq_answered hq
    exact launch_answered a (hu.trans hrom) (hselect.trans hs)
  | select x i hs => exact absurd hs (by simp [h.noSelection])
  | program i b _ hp => exact absurd hp (by simp [h.idle])
  | turn _ hp => exact absurd h.idle hp

/-! ### What the host's other moves leave of the configuration -/

/-- A step whose move configures nothing keeps the configuration (R21). -/
theorem step_keeps_config {s t : State} (hstep : step s = .next t) (hmove : ∀ x ∈ s.host.take 1, ¬ configures x) :
    t.cfgM = s.cfgM ∧ t.cfgS = s.cfgS := by
  by_contra hc
  obtain ⟨-, -, ⟨rest, hh⟩ | ⟨r, rest, hh, hcmd⟩⟩ := onlyThreeMovesConfigure s t hstep (not_and_or.1 hc)
  · exact hmove .reset (by simp [hh]) (.inl rfl)
  · exact hmove (.submit r) (by simp [hh]) (.inr ⟨r, rfl, hcmd⟩)

/-- Settles O60, by induction on the number of steps: each step makes one move of the dutiful host, keeps the premises,
and keeps the configuration unless its move configures. -/
theorem launchIsKept : Obligations.LaunchIsKept := by
  refine ⟨launch_resetCore (s := State.reset) rfl, fun k => ?_⟩
  induction k with
  | zero => exact fun s h _ => ⟨s, rfl, h, fun _ => ⟨rfl, rfl⟩⟩
  | succ k ih =>
    intro s h hdutiful
    obtain ⟨u, hstep, -, hhost⟩ := step_atRest h.toAtRest hdutiful
    obtain ⟨t, hrun, ht, hconfig⟩ :=
      ih u (step_keeps_launch h hstep) fun r hr => hdutiful r (List.mem_of_mem_tail (hhost ▸ hr))
    refine ⟨t, (core_run_succ Sys2Proof.core hstep).trans hrun, ht, fun hmoves => ?_⟩
    have hfirst : ∀ x ∈ s.host.take 1, ¬ configures x := fun x hx =>
      hmoves x (List.take_subset_take_left s.host (Nat.succ_pos k) hx)
    have hlater : ∀ x ∈ u.host.take k, ¬ configures x := fun x hx =>
      hmoves x (List.mem_of_mem_tail (by rwa [List.tail_take_eq_take_tail, Nat.add_sub_cancel, ← hhost]))
    obtain ⟨hm, hk⟩ := step_keeps_config hstep hfirst
    obtain ⟨hm', hk'⟩ := hconfig hlater
    exact ⟨hm'.trans hm, hk'.trans hk⟩

/-! ### Reset and the idle core, whatever its stores hold -/

theorem fetch_of_idle {s : State} (hs : s.select = none) (hp : s.phase = .idle) : fetch s = fetchHost s := by
  simp only [fetch, hs, hp]

theorem step_idle_reset {s : State} {rest : List HostMove} (hs : s.select = none) (hp : s.phase = .idle)
    (hh : s.host = .reset :: rest) : step s = .next (resetCore { s with host := rest }) := by
  simp only [step, fetch_of_idle hs hp, fetchHost, hh]

theorem step_idle_wait {s : State} (hs : s.select = none) (hp : s.phase = .idle) (hh : s.host = []) :
    step s = .next s := by
  simp only [step, fetch_of_idle hs hp, fetchHost, hh]

/-- Settles O29: the step is a reset of the core with the move consumed, or leaves the state. -/
theorem resetAndIdle : Obligations.ResetAndIdle := by
  refine ⟨fun s rest hs hp hh => ?_, fun s => step_idle_wait, ?_⟩
  · exact ⟨_, step_idle_reset hs hp hh, rfl, rfl, rfl, rfl, rfl, rfl, rfl, rfl⟩
  · exact ⟨rfl, rfl, rfl, rfl, rfl, rfl⟩

/-- Settles O55: the reset state is what the host's reset makes of it, which meets the invariant. -/
theorem resetMeetsInv : Obligations.ResetMeetsInv := inv_resetCore State.reset

end Sys2Proof.Machine
end
